-- ==== Sys2Proof/Word.lean ====
section
/-! DEFINITION. The value domains of the block: the spec's `u8`, `u32` and `u64` (00_scope.md R6). -/

namespace Sys2Proof

/-- The spec's `u8` (R6): a character, an element of a FIFO. -/
abbrev Byte := BitVec 8

/-- The spec's `u32` (R6): the width of every device register and of every access (R5, R52). -/
abbrev Word := BitVec 32

/-- The spec's `u64` (R6): the tick counter and its differences. -/
abbrev DWord := BitVec 64

/-- An address value: a `u64` (R5 ADDR_WIDTH, R50). -/
abbrev Addr := BitVec 64

end Sys2Proof
end

