-- ==== Sys2Proof/Config.lean ====
section
/-! DEFINITION. What an implementation fixes and what the environment chooses: the OPEN parameters of 00_scope.md R5,
the draws of R7, and the interleaving of the environment agents (R8). The numeric literals of R5 (addresses, offsets,
bit positions, function codes) stand together in Sys2Proof/Machine/Platform.lean. -/

namespace Sys2Proof

/-- The OPEN parameters of R5, "the model takes it as an argument, and every claim holds for every admitted value": a record
held in the state, which no step changes. Admitted: both depths at least 1 (log 3). -/
structure Params where
  /-- NUM_GPIO_PINS: the number of admitted pin indices (D26). -/
  numGpioPins : Nat
  /-- TX_FIFO_DEPTH (D18). -/
  txDepth : Nat
  /-- RX_FIFO_DEPTH (D19). -/
  rxDepth : Nat
  deriving DecidableEq, Repr

/-- The environment agents: the timer counter (10_state.md R34), the transmit drain (R35), the receive arrival (R36). -/
inductive EnvAgent where
  | timer
  | drain
  | arrival
  deriving DecidableEq, Repr

/-- `draw()` of R7, number k of a run: a value chosen by the environment, under no law. FREE VALUE (log 2). -/
opaque Config.draw : Nat → Word

/-- The environment steps that fall after controller turn number k and before the next one, in order: "any number of steps,
including none" (R8). FREE VALUE (log 1). -/
opaque Config.envMoves : Nat → List EnvAgent

end Sys2Proof
end

