-- ==== Sys2Proof/Syntax.lean ====
section
/-! DEFINITION. The operations of the block as syntax: one constructor of `Instr` per row of the selector map
(30_encoding.md R73), and the operation words that spell them (R71): an 8-bit selector and typed operand slots. -/

namespace Sys2Proof

/-- An operation of the block with its literal operands (R71, R72, R73). -/
inductive Instr where
  /-- `read(address)`, R100. -/
  | regRead (addr : Addr)
  /-- `write(address, value)`, R101. -/
  | regWrite (addr : Addr) (value : Word)
  /-- `ticks()`, R110. -/
  | ticks
  /-- `delay_us(n)`, R111. -/
  | delayUs (n : Word)
  /-- `delay_ms(n)`, R112. -/
  | delayMs (n : Word)
  /-- `uptime_seconds()`, R113. -/
  | uptimeSeconds
  /-- `init()`, R130. -/
  | uartInit
  /-- `put_char(c)`, R131. -/
  | putChar (c : Byte)
  /-- `put_string(s)`, R132. -/
  | putString (s : List Byte)
  /-- `get_char()`, R133. -/
  | getChar
  /-- `put_hex(n)`, R134. -/
  | putHex (n : Word)
  /-- `set_function(pin, function_code)`, R150. -/
  | gpioSetFunction (pin f : Word)
  /-- `set_output(pin)`, R151. -/
  | gpioSetOutput (pin : Word)
  /-- `set_input(pin)`, R152. -/
  | gpioSetInput (pin : Word)
  /-- `set(pin, value)`, R153. -/
  | gpioSet (pin : Word) (value : Bool)
  /-- `get(pin)`, R154. -/
  | gpioGet (pin : Word)
  /-- `led_on(pin)`, R155. -/
  | ledOn (pin : Word)
  /-- `led_off(pin)`, R156. -/
  | ledOff (pin : Word)
  /-- `blink_activity_led()`, R157. -/
  | blinkActivityLed
  deriving DecidableEq, Repr

/-- The operation a selector names, without operands: the 19 rows of R73. -/
inductive Op where
  | regRead | regWrite
  | ticks | delayUs | delayMs | uptimeSeconds
  | uartInit | putChar | putString | getChar | putHex
  | gpioSetFunction | gpioSetOutput | gpioSetInput | gpioSet | gpioGet | ledOn | ledOff | blinkActivityLed
  deriving DecidableEq, Repr

/-- The type of one operand slot (R71). -/
inductive SlotKind where
  | u64 | u32 | u8 | bool | bytes
  deriving DecidableEq, Repr

/-- The operand formats of R71. -/
inductive Format where
  | f0 | fa | fav | fn | fc | fs | fp | fpf | fpb
  deriving DecidableEq, Repr

/-- One operand slot of an operation word, with its literal value (R71, R72). -/
inductive Slot where
  | u64 (v : BitVec 64)
  | u32 (v : Word)
  | u8 (v : Byte)
  | bool (v : Bool)
  | bytes (v : List Byte)
  deriving DecidableEq, Repr

/-- An operation word: "a structured term: an 8-bit selector `sel` and the operand slots that `sel`'s format names, in the
order given" (R71). Any selector and any slots can be written down; the decoder says which of them are operations. -/
structure OpWord where
  sel : BitVec 8
  slots : List Slot
  deriving DecidableEq, Repr

end Sys2Proof
end

