-- ==== Sys2Proof/Machine/State.lean ====
section
/-! DEFINITION. The state of the block (10_state.md, all of it) as plain data, the reasons a step can stop, and the state
after reset. -/

namespace Sys2Proof.Machine

/-- A result of an operation (10_state.md R21). -/
inductive Result where
  | unit
  | u8 (b : Byte)
  | u32 (w : Word)
  | u64 (d : DWord)
  | unsupported
  deriving DecidableEq, Repr

/-- A device access in the access trace (R23). -/
inductive Event where
  | rd (addr : Addr) (v : Word)
  | wr (addr : Addr) (v : Word)
  deriving DecidableEq, Repr

/-- Why the controller has stopped with a fault. The first four are the reasons of 60_exceptions.md R171; an operation that
raises one records it in `State.fault` and the step answers a next state (R174, log 9); a controller step asked of a state
that already carries the mark answers it as the outcome (R24). -/
inductive Fault where
  /-- R171 code 1: REG_READ or REG_WRITE at an address that is not mapped. Safe (D9). -/
  | unmapped (addr : Addr)
  /-- R171 code 2: REG_WRITE to GPIO_STATUS(p), TIMER_LO, TIMER_HI or UART_FR. Safe (D10). -/
  | readOnly (addr : Addr)
  /-- R171 code 3: REG_WRITE to UART_DR with `tx` full. Safe (D21). -/
  | txOverflow
  /-- R171 code 4: a GPIO operation whose pin is not below NUM_GPIO_PINS. Safe (D26). -/
  | pinRange (pin : Word)
  /-- The model's own: `exec` was asked to step an operation from a phase of another operation, which no run reaches
  (log 10). Raised by every meaning, never recorded. Safe: the model stops. -/
  | foreignPhase
  deriving DecidableEq, Repr

/-- Why the controller has refused an operation word. The second and third are the reasons of R172; the decoder's refusal is
recorded in `State.refused` and the step answers a next state (log 9); a controller step asked of a state that already
carries the mark answers it as the outcome (R24). -/
inductive Refusal where
  /-- An operation of the table with no meaning in `exec`. Raised by no arm. Safe. -/
  | notModelled (mnemonic : String)
  /-- R172 code 0x80: the selector is none of R73. Raised by the decoder. Safe (D3). -/
  | noSuchOperation (sel : BitVec 8)
  /-- R172 code 0x81: a PUT_STRING operand holds 0x00. Raised by the decoder. Safe (D34). -/
  | nulInString
  /-- The model's own: the slots are not those the selector's format names, so the term is no operation word of R71, R77.
  Raised by the decoder (log 8). Safe. -/
  | slotMismatch (sel : BitVec 8)
  deriving DecidableEq, Repr

/-- Where one TICKS stands (R110, R38): which of its three reads is next, with the values read so far. -/
inductive TicksPhase where
  /-- The first TIMER_HI read is next. -/
  | hi1
  /-- The TIMER_LO read is next. -/
  | lo (h1 : Word)
  /-- The second TIMER_HI read is next. -/
  | hi2 (h1 lo : Word)
  deriving DecidableEq, Repr

/-- Where one DELAY_US stands (R111, R38): in the TICKS that gives `start`, or in one that gives `now`. -/
inductive DelayPhase where
  | first (t : TicksPhase)
  | spin (start : DWord) (t : TicksPhase)
  deriving DecidableEq, Repr

/-- Where one BLINK_ACTIVITY_LED stands (R157): which of its four calls is in progress. In an LED call, `none` before the
control read and the value read after it. -/
inductive BlinkPhase where
  | ledOn (held : Option Word)
  | delayOn (d : DelayPhase)
  | ledOff (held : Option Word)
  | delayOff (d : DelayPhase)
  deriving DecidableEq, Repr

/-- The local state of the operation in progress (R22, R38; log 11). -/
inductive Phase where
  /-- The operation has performed no access yet; of GET_CHAR, none but polls that returned RXFE = 1, after which it stands where it
  began. -/
  | start
  /-- TICKS and UPTIME_SECONDS. -/
  | ticks (t : TicksPhase)
  /-- DELAY_US and DELAY_MS. -/
  | delay (d : DelayPhase)
  /-- PUT_CHAR, PUT_STRING and PUT_HEX: the bytes still to be handed to the UART; `ready` when TXFF = 0 has been read for
  the first of them, so that its write is next (log 12). -/
  | send (todo : List Byte) (ready : Bool)
  /-- GET_CHAR: RXFE = 0 has been read, the UART_DR read is next. -/
  | recv
  /-- GPIO_SET_FUNCTION, GPIO_SET_OUTPUT, GPIO_SET_INPUT, LED_ON, LED_OFF: the control value read; its write is next. -/
  | rmw (v : Word)
  /-- BLINK_ACTIVITY_LED. -/
  | blink (b : BlinkPhase)
  deriving DecidableEq, Repr

/-- The block's only addressable storage, the GPIO_CTRL registers (R27): pin index and 32-bit value, in the canonical form
`Memory.wf` (pins strictly rising, no entry equal to what an unlisted pin reads as; log 19). -/
abbrev Memory := List (Nat × Word)

/-- The whole state (R20 to R41), and three fields of the model's own (`draws`, `turns`, `env`). -/
structure State where
  /-- The OPEN parameters (00_scope.md R5), which no step changes. -/
  params : Params
  /-- `interrupts masked`, R40 and R177; a launch premise (R192 item 4) that no step changes (log 13). -/
  interruptsMasked : Bool
  /-- `UART configuration`, R40; a launch premise (R192 item 2) that no step changes (log 13). -/
  uartConfigured : Bool
  /-- `prog` (R22): the program, as the operation words it is written in. -/
  prog : List OpWord
  /-- `opidx` (R22). -/
  opidx : Nat
  /-- `phase` (R22, R38). -/
  phase : Phase
  /-- `results` (R21), the first first. -/
  results : List Result
  /-- `trace` (R23), the first first. -/
  trace : List Event
  /-- `fault` (R24). -/
  fault : Option Fault
  /-- `refused` (R24). -/
  refused : Option Refusal
  /-- `ctr` (R30). -/
  ctr : DWord
  /-- `gpio_ctrl` (R27). -/
  gpioCtrl : Memory
  /-- `tx` (R31), oldest first. -/
  tx : List Byte
  /-- `rx` (R31), oldest first. -/
  rx : List Byte
  /-- `line_out` (R31). -/
  lineOut : List Byte
  /-- `host_in` (R31). -/
  hostIn : List Byte
  /-- `rx_lost` (R31). -/
  rxLost : Nat
  /-- MODEL'S OWN: how many draws have been made (log 2). -/
  draws : Nat
  /-- MODEL'S OWN: how many turns the controller has had (log 1). -/
  turns : Nat
  /-- MODEL'S OWN: the environment steps due before the controller's next turn (log 1). -/
  env : List EnvAgent
  deriving DecidableEq, Repr

/-- The entry state of R40. `params`, `prog`, `ctr`, `gpioCtrl`, `tx`, `rx` and `hostIn` have no value in the spec: those here
are DESIGN CHOICES of logs 3 to 7; the rest is R40's, and the model's own fields start at nothing (logs 1, 2). -/
def State.reset : State where
  params := { numGpioPins := 32, txDepth := 4, rxDepth := 4 }
  interruptsMasked := true
  uartConfigured := true
  prog := []
  opidx := 0
  phase := .start
  results := []
  trace := []
  fault := none
  refused := none
  ctr := 0
  gpioCtrl := []
  tx := []
  rx := []
  lineOut := []
  hostIn := []
  rxLost := 0
  draws := 0
  turns := 0
  env := []

/-- The answer of one controller step. -/
abbrev Exec := Host.Outcome State Fault Refusal

end Sys2Proof.Machine
end

