-- ==== Sys2Proof/WellFormed.lean ====
section
/-! DEFINITION. Which operations are well formed. The operand types carry every range of 30_encoding.md R72 but one: a
PUT_STRING operand holds no byte 0x00. -/

namespace Sys2Proof

/-- A C string's bytes: none is 0x00 (R71 format FS, R72). -/
def nulFree (s : List Byte) : Bool := s.all fun b => b != 0#8

/-- An operation whose operands are of the types R72 gives them. -/
def Instr.wellFormed : Instr → Bool
  | .putString s => nulFree s
  | .regRead _ => true
  | .regWrite _ _ => true
  | .ticks => true
  | .delayUs _ => true
  | .delayMs _ => true
  | .uptimeSeconds => true
  | .uartInit => true
  | .putChar _ => true
  | .getChar => true
  | .putHex _ => true
  | .gpioSetFunction _ _ => true
  | .gpioSetOutput _ => true
  | .gpioSetInput _ => true
  | .gpioSet _ _ => true
  | .gpioGet _ => true
  | .ledOn _ => true
  | .ledOff _ => true
  | .blinkActivityLed => true

end Sys2Proof
end

