-- ==== Sys2Proof/Decode.lean ====
section
/-! DEFINITION. The decoder of operation words (30_encoding.md R71 to R77), total and refusing by name, the encoder, and the
reading of an opcode-table word. -/

namespace Sys2Proof

/-- The selector of an operation (R73). -/
def Op.sel : Op → BitVec 8
  | .regRead => 0x01#8
  | .regWrite => 0x02#8
  | .ticks => 0x10#8
  | .delayUs => 0x11#8
  | .delayMs => 0x12#8
  | .uptimeSeconds => 0x13#8
  | .uartInit => 0x20#8
  | .putChar => 0x21#8
  | .putString => 0x22#8
  | .getChar => 0x23#8
  | .putHex => 0x24#8
  | .gpioSetFunction => 0x30#8
  | .gpioSetOutput => 0x31#8
  | .gpioSetInput => 0x32#8
  | .gpioSet => 0x33#8
  | .gpioGet => 0x34#8
  | .ledOn => 0x35#8
  | .ledOff => 0x36#8
  | .blinkActivityLed => 0x37#8

/-- The mnemonic of an operation (R73). -/
def Op.mnemonic : Op → String
  | .regRead => "REG_READ"
  | .regWrite => "REG_WRITE"
  | .ticks => "TICKS"
  | .delayUs => "DELAY_US"
  | .delayMs => "DELAY_MS"
  | .uptimeSeconds => "UPTIME_SECONDS"
  | .uartInit => "UART_INIT"
  | .putChar => "PUT_CHAR"
  | .putString => "PUT_STRING"
  | .getChar => "GET_CHAR"
  | .putHex => "PUT_HEX"
  | .gpioSetFunction => "GPIO_SET_FUNCTION"
  | .gpioSetOutput => "GPIO_SET_OUTPUT"
  | .gpioSetInput => "GPIO_SET_INPUT"
  | .gpioSet => "GPIO_SET"
  | .gpioGet => "GPIO_GET"
  | .ledOn => "LED_ON"
  | .ledOff => "LED_OFF"
  | .blinkActivityLed => "BLINK_ACTIVITY_LED"

/-- The operand format of an operation (R71, R73). -/
def Op.format : Op → Format
  | .regRead => .fa
  | .regWrite => .fav
  | .ticks => .f0
  | .delayUs => .fn
  | .delayMs => .fn
  | .uptimeSeconds => .f0
  | .uartInit => .f0
  | .putChar => .fc
  | .putString => .fs
  | .getChar => .f0
  | .putHex => .fn
  | .gpioSetFunction => .fpf
  | .gpioSetOutput => .fp
  | .gpioSetInput => .fp
  | .gpioSet => .fpb
  | .gpioGet => .fp
  | .ledOn => .fp
  | .ledOff => .fp
  | .blinkActivityLed => .f0

/-- The slots of a format, in order (R71). -/
def Format.slots : Format → List SlotKind
  | .f0 => []
  | .fa => [.u64]
  | .fav => [.u64, .u32]
  | .fn => [.u32]
  | .fc => [.u8]
  | .fs => [.bytes]
  | .fp => [.u32]
  | .fpf => [.u32, .u32]
  | .fpb => [.u32, .bool]

/-- Every operation, in the table's order (R73). -/
def allOps : List Op :=
  [.regRead, .regWrite, .ticks, .delayUs, .delayMs, .uptimeSeconds, .uartInit, .putChar, .putString, .getChar, .putHex,
   .gpioSetFunction, .gpioSetOutput, .gpioSetInput, .gpioSet, .gpioGet, .ledOn, .ledOff, .blinkActivityLed]

/-- "A decoder matches `sel` against the whole 8 bits (mask `0xFF`)" (R73); `none` for a reserved selector (R75). -/
def opOf (sel : BitVec 8) : Option Op := allOps.find? fun op => op.sel == sel

/-- The type of a slot's value. -/
def Slot.kind : Slot → SlotKind
  | .u64 _ => .u64
  | .u32 _ => .u32
  | .u8 _ => .u8
  | .bool _ => .bool
  | .bytes _ => .bytes

/-- Format `F0` (R71): no slots. -/
def takeF0 (i : Instr) : List Slot → Option Instr
  | [] => some i
  | _ => none

/-- Format `FA` (R71): an address. -/
def takeFA (k : Addr → Instr) : List Slot → Option Instr
  | [.u64 addr] => some (k addr)
  | _ => none

/-- Format `FAV` (R71): an address and a value. -/
def takeFAV (k : Addr → Word → Instr) : List Slot → Option Instr
  | [.u64 addr, .u32 value] => some (k addr value)
  | _ => none

/-- Formats `FN` and `FP` (R71): one `u32`. -/
def takeU32 (k : Word → Instr) : List Slot → Option Instr
  | [.u32 n] => some (k n)
  | _ => none

/-- Format `FC` (R71): a character. -/
def takeFC (k : Byte → Instr) : List Slot → Option Instr
  | [.u8 c] => some (k c)
  | _ => none

/-- Format `FS` (R71): a string. -/
def takeFS (k : List Byte → Instr) : List Slot → Option Instr
  | [.bytes s] => some (k s)
  | _ => none

/-- Format `FPF` (R71): a pin and a function code. -/
def takeFPF (k : Word → Word → Instr) : List Slot → Option Instr
  | [.u32 pin, .u32 f] => some (k pin f)
  | _ => none

/-- Format `FPB` (R71): a pin and a level. -/
def takeFPB (k : Word → Bool → Instr) : List Slot → Option Instr
  | [.u32 pin, .bool value] => some (k pin value)
  | _ => none

/-- The operation with the operands in its slots; `none` where the slots are not those of its format (R77). -/
def buildInstr : Op → List Slot → Option Instr
  | .regRead => takeFA .regRead
  | .regWrite => takeFAV .regWrite
  | .ticks => takeF0 .ticks
  | .delayUs => takeU32 .delayUs
  | .delayMs => takeU32 .delayMs
  | .uptimeSeconds => takeF0 .uptimeSeconds
  | .uartInit => takeF0 .uartInit
  | .putChar => takeFC .putChar
  | .putString => takeFS .putString
  | .getChar => takeF0 .getChar
  | .putHex => takeU32 .putHex
  | .gpioSetFunction => takeFPF .gpioSetFunction
  | .gpioSetOutput => takeU32 .gpioSetOutput
  | .gpioSetInput => takeU32 .gpioSetInput
  | .gpioSet => takeFPB .gpioSet
  | .gpioGet => takeU32 .gpioGet
  | .ledOn => takeU32 .ledOn
  | .ledOff => takeU32 .ledOff
  | .blinkActivityLed => takeF0 .blinkActivityLed

/-- The decoder: total, refusing by name NO_SUCH_OPERATION (R75), NUL_IN_STRING (R72), and, for a term that is no operation
word, `slotMismatch` (log 8). -/
def decode (w : OpWord) : Except Machine.Refusal Instr :=
  match opOf w.sel with
  | none => .error (.noSuchOperation w.sel)
  | some op =>
    match buildInstr op w.slots with
    | none => .error (.slotMismatch w.sel)
    | some i => if i.wellFormed then .ok i else .error .nulInString

/-- The operation an instruction is. -/
def Instr.op : Instr → Op
  | .regRead _ => .regRead
  | .regWrite _ _ => .regWrite
  | .ticks => .ticks
  | .delayUs _ => .delayUs
  | .delayMs _ => .delayMs
  | .uptimeSeconds => .uptimeSeconds
  | .uartInit => .uartInit
  | .putChar _ => .putChar
  | .putString _ => .putString
  | .getChar => .getChar
  | .putHex _ => .putHex
  | .gpioSetFunction _ _ => .gpioSetFunction
  | .gpioSetOutput _ => .gpioSetOutput
  | .gpioSetInput _ => .gpioSetInput
  | .gpioSet _ _ => .gpioSet
  | .gpioGet _ => .gpioGet
  | .ledOn _ => .ledOn
  | .ledOff _ => .ledOff
  | .blinkActivityLed => .blinkActivityLed

/-- The operand slots of an instruction, in the order of its format (R71). -/
def Instr.slots : Instr → List Slot
  | .regRead addr => [.u64 addr]
  | .regWrite addr value => [.u64 addr, .u32 value]
  | .ticks => []
  | .delayUs n => [.u32 n]
  | .delayMs n => [.u32 n]
  | .uptimeSeconds => []
  | .uartInit => []
  | .putChar c => [.u8 c]
  | .putString s => [.bytes s]
  | .getChar => []
  | .putHex n => [.u32 n]
  | .gpioSetFunction pin f => [.u32 pin, .u32 f]
  | .gpioSetOutput pin => [.u32 pin]
  | .gpioSetInput pin => [.u32 pin]
  | .gpioSet pin value => [.u32 pin, .bool value]
  | .gpioGet pin => [.u32 pin]
  | .ledOn pin => [.u32 pin]
  | .ledOff pin => [.u32 pin]
  | .blinkActivityLed => []

/-- The operation word of an instruction (R71, R73). -/
def encode (i : Instr) : OpWord := { sel := i.op.sel, slots := i.slots }

/-- The low `n` bytes of `w`, the lowest first. -/
def bytesOfNat : Nat → Nat → List Byte
  | 0, _ => []
  | n + 1, w => BitVec.ofNat 8 w :: bytesOfNat n (w >>> 8)

/-- The slots of the given types taken from the bits of `w`, the first slot lowest; a byte string has `len` bytes. The spec
gives the slots no bits (R71); this layout is the model's (log 8), and a table word has only zeros there. -/
def slotsOfBits : List SlotKind → Nat → Nat → List Slot
  | [], _, _ => []
  | .u64 :: ks, len, w => .u64 (BitVec.ofNat 64 w) :: slotsOfBits ks len (w >>> 64)
  | .u32 :: ks, len, w => .u32 (BitVec.ofNat 32 w) :: slotsOfBits ks len (w >>> 32)
  | .u8 :: ks, len, w => .u8 (BitVec.ofNat 8 w) :: slotsOfBits ks len (w >>> 8)
  | .bool :: ks, len, w => .bool (w % 2 == 1) :: slotsOfBits ks len (w >>> 8)
  | .bytes :: ks, len, w => .bytes (bytesOfNat len w) :: slotsOfBits ks len (w >>> (8 * len))

/-- The operation word whose bits are the low `nbits` bits of `w`, all bits above them 0: the selector in bits 7..0 (the
opcode table's numbering), its slots above it. -/
def OpWord.ofBits (nbits w : Nat) : OpWord :=
  let bits := w % 2 ^ nbits
  let sel := BitVec.ofNat 8 bits
  { sel := sel,
    slots := match opOf sel with
      | none => []
      | some op => slotsOfBits op.format.slots ((nbits - 8) / 8) (bits >>> 8) }

/-- The instruction the decoder reads from a word of the opcode table; `none` where it refuses. -/
def decodeTableWord (nbits w : Nat) : Option Instr :=
  match decode (OpWord.ofBits nbits w) with
  | .ok i => some i
  | .error _ => none

end Sys2Proof
end

