-- ==== Sys2Proof/Machine/Platform.lean ====
section
/-! DEFINITION. The numeric literals of 00_scope.md R5 in one place, and the address map (10_state.md R25, 20_memory.md R51). The
literals are the spec's only source and are unaudited there (log 20). -/

namespace Sys2Proof.Machine

/-- GPIO_BASE (R5). -/
def gpioBase : Nat := 0x1f000d0000
/-- GPIO_STRIDE (R5): bytes between consecutive pins' register pairs. -/
def gpioStride : Nat := 8
/-- GPIO_STATUS_OFF (R5). -/
def gpioStatusOff : Nat := 0x0000
/-- GPIO_CTRL_OFF (R5). -/
def gpioCtrlOff : Nat := 0x0004
/-- TIMER_BASE (R5). -/
def timerBase : Nat := 0x107c003000
/-- TIMER_LO_OFF (R5). -/
def timerLoOff : Nat := 0x04
/-- TIMER_HI_OFF (R5). -/
def timerHiOff : Nat := 0x08
/-- UART_BASE (R5). -/
def uartBase : Nat := 0x107d001000
/-- UART_DR_OFF (R5). -/
def uartDrOff : Nat := 0x00
/-- UART_FR_OFF (R5). -/
def uartFrOff : Nat := 0x18
/-- FR_RXFE_BIT (R5). -/
def frRxfeBit : Nat := 4
/-- FR_TXFF_BIT (R5). -/
def frTxffBit : Nat := 5
/-- FUNC_SIO (R5): software-controlled I/O. -/
def funcSio : Word := 5#32
/-- FUNC_UART (R5): UART-attached. No operation of the block writes it of itself. -/
def funcUart : Word := 2#32
/-- PIN_ACT_LED (R5). -/
def pinActLed : Word := 29#32
/-- PIN_PWR_LED (R5). No operation of the block names it of itself. -/
def pinPwrLed : Word := 31#32
/-- BLINK_HALF_PERIOD_MS (R5). -/
def blinkHalfPeriodMs : Word := 100#32
/-- TICK_HZ (R5). -/
def tickHz : DWord := 1000000#64

/-- The address of TIMER_LO (R28). -/
def timerLoAddr : Addr := BitVec.ofNat 64 (timerBase + timerLoOff)
/-- The address of TIMER_HI (R29). -/
def timerHiAddr : Addr := BitVec.ofNat 64 (timerBase + timerHiOff)
/-- The address of UART_DR (R32). -/
def uartDrAddr : Addr := BitVec.ofNat 64 (uartBase + uartDrOff)
/-- The address of UART_FR (R33). -/
def uartFrAddr : Addr := BitVec.ofNat 64 (uartBase + uartFrOff)

/-- The device registers of R25. -/
inductive DevReg where
  | gpioStatus (p : Nat)
  | gpioCtrl (p : Nat)
  | timerLo
  | timerHi
  | uartDr
  | uartFr
  deriving DecidableEq, Repr

/-- The pin register at an offset into the GPIO controller, for a controller of `pins` pins (R51). -/
def gpioRegAt (pins off : Nat) : Option DevReg :=
  if off / gpioStride < pins then
    if off % gpioStride = gpioStatusOff then some (.gpioStatus (off / gpioStride))
    else if off % gpioStride = gpioCtrlOff then some (.gpioCtrl (off / gpioStride))
    else none
  else none

/-- The address map (R51), for a controller of `pins` pins: the register at an address, `none` where it is unmapped, every
address that is not a multiple of 4 among them (R55). -/
def regAt (pins : Nat) (a : Addr) : Option DevReg :=
  if a = timerLoAddr then some .timerLo
  else if a = timerHiAddr then some .timerHi
  else if a = uartDrAddr then some .uartDr
  else if a = uartFrAddr then some .uartFr
  else if gpioBase ≤ a.toNat then gpioRegAt pins (a.toNat - gpioBase)
  else none

/-- The fault codes of R171; `none` for the model's own stop. -/
def faultCode : Fault → Option Nat
  | .unmapped _ => some 1
  | .readOnly _ => some 2
  | .txOverflow => some 3
  | .pinRange _ => some 4
  | .foreignPhase => none

/-- The refusal codes of R172; `none` for the model's own. -/
def refusalCode : Refusal → Option Nat
  | .noSuchOperation _ => some 0x80
  | .nulInString => some 0x81
  | _ => none

end Sys2Proof.Machine
end

