-- ==== Sys2Proof/Machine/Operands.lean ====
section
/-! DEFINITION. Operand assembly (30_encoding.md R74) and the values operations compute from their operands: addresses, the
function code and its insertion, the delay product, tick composition and difference, the bytes of characters, strings and
hexadecimal numbers. -/

namespace Sys2Proof.Machine

/-- `STATUS_ADDR(pin)` (R74); an operand is 32 bits, so the sum never wraps. -/
def statusAddr (pin : Word) : Addr := BitVec.ofNat 64 (gpioBase + gpioStride * pin.toNat + gpioStatusOff)

/-- `CTRL_ADDR(pin)` (R74). -/
def ctrlAddr (pin : Word) : Addr := BitVec.ofNat 64 (gpioBase + gpioStride * pin.toNat + gpioCtrlOff)

/-- `FUNC(f) = f & 0x1F` (R74). -/
def func (f : Word) : Word := f &&& 0x1F#32

/-- `(v & 0xFFFFFFE0) | (f & 0x1F)`: the control value with its FUNCSEL field replaced (43_gpio.md R150). -/
def insertFunc (v f : Word) : Word := (v &&& 0xFFFFFFE0#32) ||| func f

/-- `US(n) = (n * 1000) mod 2^32` (R74, R112). -/
def usOf (n : Word) : Word := n * 1000#32

/-- `trunc_8(v)`: bits 7..0 of a register value (R32, R133). -/
def lowByte (v : Word) : Byte := v.extractLsb' 0 8

/-- `zext_32(c)`: a byte as a register value, zeros above (R131). -/
def byteWord (c : Byte) : Word := c.setWidth 32

/-- The low half of the counter, the value of TIMER_LO (R28). -/
def lowHalf (t : DWord) : Word := t.extractLsb' 0 32

/-- The high half of the counter, the value of TIMER_HI (R29). -/
def highHalf (t : DWord) : Word := t.extractLsb' 32 32

/-- `(zext_64(h) << 32) | zext_64(lo)` (R110). -/
def composeTicks (h lo : Word) : DWord := (h.setWidth 64 <<< 32) ||| lo.setWidth 64

/-- `(now - start) mod 2^64 >= zext_64(n)` (R111). -/
def delayElapsed (start now : DWord) (n : Word) : Bool := (n.setWidth 64).ule (now - start)

/-- `trunc_32(t / 1_000_000)` (R113). -/
def secondsOf (t : DWord) : Word := (t / tickHz).setWidth 32

/-- `draw()[31:8] : b`, a read of UART_DR that removes the byte `b` (R32). -/
def drWord (draw : Word) (b : Byte) : Word := draw.extractLsb' 8 24 ++ b

/-- The bytes PUT_CHAR hands to the UART for a character: a line feed goes out after a carriage return (R131;
the codes are ASCII, log 21). -/
def lineBytes (c : Byte) : List Byte := if c = 0x0A#8 then [0x0D#8, 0x0A#8] else [c]

/-- The bytes of the characters of a string, in order (R132). -/
def stringBytes (s : List Byte) : List Byte := s.flatMap lineBytes

/-- `HEXDIGIT(d)` (R135; log 21). -/
def hexDigit (d : BitVec 4) : Byte :=
  if d.toNat ≤ 9 then BitVec.ofNat 8 (0x30 + d.toNat) else BitVec.ofNat 8 (0x41 + (d.toNat - 10))

/-- `n[4*i+3 : 4*i]` (R134). -/
def nibble (n : Word) (i : Nat) : BitVec 4 := n.extractLsb' (4 * i) 4

/-- The characters of PUT_HEX: "0x" and the eight digits, the most significant first (R134). -/
def hexChars (n : Word) : List Byte :=
  [0x30#8, 0x78#8] ++ [7, 6, 5, 4, 3, 2, 1, 0].map fun i => hexDigit (nibble n i)

end Sys2Proof.Machine
end

