-- ==== Sys2Proof/Machine/Flags.lean ====
section
/-! DEFINITION. The FIFO status flags and the flag register (10_state.md R33): the block's only flags. No operation writes a
flag; both are read off the FIFOs. -/

namespace Sys2Proof.Machine

/-- RXFE: the receive FIFO is empty (R33). -/
def rxEmpty (s : State) : Bool := s.rx.isEmpty

/-- TXFF: `length(tx) = TX_FIFO_DEPTH` (R33; log 17). -/
def txFull (s : State) : Bool := s.tx.length == s.params.txDepth

/-- The value of UART_FR: TXFF in bit 5, RXFE in bit 4, every other bit from the draw (R33). -/
def frWord (draw : Word) (rxfe txff : Bool) : Word :=
  draw.extractLsb' 6 26 ++ BitVec.ofBool txff ++ BitVec.ofBool rxfe ++ draw.extractLsb' 0 4

/-- TXFF as a value read from UART_FR shows it. -/
def txffOf (f : Word) : Bool := f.getLsbD frTxffBit

/-- RXFE as a value read from UART_FR shows it. -/
def rxfeOf (f : Word) : Bool := f.getLsbD frRxfeBit

end Sys2Proof.Machine
end

