-- ==== Sys2Proof/Machine/Ops.lean ====
section
/-! DEFINITION. The operations the meanings share: the GPIO_CTRL bank, the read and write effects of the device registers
(40_register_access.md R102, R103), MemRead and MemWrite (00_scope.md R7), the raising of a fault (60_exceptions.md R174), the
end of an operation (R21, R22), the guards of a controller step, and the environment agents (R34 to R36). -/

namespace Sys2Proof.Machine

/-! ### The GPIO_CTRL bank (R27) -/

/-- What a pin the bank does not list reads as. R40: any value per pin at entry; DESIGN CHOICE 0 (log 5). -/
def unlistedCtrl : Word := 0#32

/-- `gpio_ctrl(p)`. -/
def ctrlRead : Memory → Nat → Word
  | [], _ => unlistedCtrl
  | (q, w) :: rest, p => if p = q then w else ctrlRead rest p

/-- One entry before a bank, left out where it is what an unlisted pin reads as. -/
def ctrlCons (p : Nat) (v : Word) (m : Memory) : Memory := if v = unlistedCtrl then m else (p, v) :: m

/-- `gpio_ctrl(p) <- v`, keeping the canonical form. -/
def ctrlWrite : Memory → Nat → Word → Memory
  | [], p, v => ctrlCons p v []
  | (q, w) :: rest, p, v =>
    if p < q then ctrlCons p v ((q, w) :: rest)
    else if p = q then ctrlCons p v rest
    else (q, w) :: ctrlWrite rest p v

/-- The canonical form: pins strictly rising, no entry equal to what an unlisted pin reads as. -/
def Memory.wf : Memory → Bool
  | [] => true
  | (p, v) :: rest => v != unlistedCtrl && rest.all (fun c => p < c.1) && Memory.wf rest

/-! ### Updates of the controller's own state -/

/-- The operation goes on in another phase. -/
def State.setPhase (s : State) (p : Phase) : State := { s with phase := p }

/-- An access that was performed appends its event (R23). -/
def State.logEvent (s : State) (e : Event) : State := { s with trace := s.trace ++ [e] }

/-- A draw was made: the next one is another (log 2). -/
def State.countDraw (s : State) : State := { s with draws := s.draws + 1 }

/-- `result v`: the operation ends (R21, R22). -/
def State.endOp (s : State) (r : Result) : State :=
  { s with results := s.results ++ [r], opidx := s.opidx + 1, phase := .start }

/-- `fault <- some(reason)` (R24, R174). -/
def State.markFault (s : State) (r : Fault) : State := { s with fault := some r }

/-- `refused <- some(reason)` (R24, R172). -/
def State.markRefused (s : State) (r : Refusal) : State := { s with refused := some r }

/-- The environment's window between this controller turn and the next opens: the steps that fall in it are free (R8, log 1). -/
def State.openWindow (s : State) : State := { s with env := Config.envMoves s.turns, turns := s.turns + 1 }

/-! ### Taking a fault -/

/-- `raise Fault(reason)` (R7, R174): the access is not performed and appends no event, no result is appended, the reason is
recorded, every earlier effect stays. The block has no trap entry and no return from one (R178, R179). -/
def raiseFault (r : Fault) (s : State) : Exec := .next (s.markFault r)

/-! ### Device accesses -/

/-- `DevRead(addr)` (R102): the value and the state after the read's side effect. -/
def devRead (a : Addr) (s : State) : Except Fault (Word × State) :=
  match regAt s.params.numGpioPins a with
  | some (.gpioStatus _) => .ok (Config.draw s.draws, s.countDraw)
  | some (.gpioCtrl p) => .ok (ctrlRead s.gpioCtrl p, s)
  | some .timerLo => .ok (lowHalf s.ctr, s)
  | some .timerHi => .ok (highHalf s.ctr, s)
  | some .uartDr =>
    match s.rx with
    | [] => .ok (Config.draw s.draws, s.countDraw)
    | b :: rest => .ok (drWord (Config.draw s.draws) b, { s.countDraw with rx := rest })
  | some .uartFr => .ok (frWord (Config.draw s.draws) (rxEmpty s) (txFull s), s.countDraw)
  | none => .error (.unmapped a)

/-- `DevWrite(addr, v)` (R103). -/
def devWrite (a : Addr) (v : Word) (s : State) : Except Fault State :=
  match regAt s.params.numGpioPins a with
  | some (.gpioCtrl p) => .ok { s with gpioCtrl := ctrlWrite s.gpioCtrl p v }
  | some .uartDr => if txFull s then .error .txOverflow else .ok { s with tx := s.tx ++ [lowByte v] }
  | some (.gpioStatus _) => .error (.readOnly a)
  | some .timerLo => .error (.readOnly a)
  | some .timerHi => .error (.readOnly a)
  | some .uartFr => .error (.readOnly a)
  | none => .error (.unmapped a)

/-- `MemRead(addr, 4)` (R7), then what the operation does with the value; a faulting read raises its fault. -/
def readThen (a : Addr) (s : State) (k : Word → State → Exec) : Exec :=
  match devRead a s with
  | .ok (v, t) => k v (t.logEvent (.rd a v))
  | .error r => raiseFault r s

/-- `MemWrite(addr, 4, v)` (R7), then what the operation does next; a faulting write raises its fault. -/
def writeThen (a : Addr) (v : Word) (s : State) (k : State → Exec) : Exec :=
  match devWrite a v s with
  | .ok t => k (t.logEvent (.wr a v))
  | .error r => raiseFault r s

/-! ### The shape of a controller step -/

/-- The step ends with the operation in another phase. -/
def goTo (p : Phase) (s : State) : Exec := .next (s.setPhase p)

/-- `result v` (R7). -/
def finish (r : Result) (s : State) : Exec := .next (s.endOp r)

/-- "While either is not `none`, the controller takes no step" (R24): asked of a marked state, a controller step answers the
mark. (`step` does not ask: it leaves the turn to the environment.) -/
def whileRunning (s : State) (k : Exec) : Exec :=
  match s.fault with
  | some r => .fault r
  | none =>
    match s.refused with
    | some r => .refused r
    | none => k

/-- The step from a phase that is the operation's own; a phase of another operation is reached by no run (log 10). -/
def inPhase {α : Type} (p : Option α) (k : α → Exec) : Exec :=
  match p with
  | some a => k a
  | none => .fault .foreignPhase

/-- An operation that performs its one step from its start. -/
def startOnly : Phase → Option Unit
  | .start => some ()
  | _ => none

/-! ### The environment agents -/

/-- One step of an environment agent: the timer (R34), the transmit drain (R35), the receive arrival (R36). An agent that is
not enabled leaves the state as it is (log 15). -/
def envStep : EnvAgent → State → State
  | .timer, s => { s with ctr := s.ctr + 1#64 }
  | .drain, s =>
    match s.tx with
    | [] => s
    | b :: rest => { s with lineOut := s.lineOut ++ [b], tx := rest }
  | .arrival, s =>
    match s.hostIn with
    | [] => s
    | b :: rest =>
      if s.rx.length < s.params.rxDepth then { s with rx := s.rx ++ [b], hostIn := rest }
      else { s with rxLost := s.rxLost + 1, hostIn := rest }

/-- A window of environment steps, the first first. -/
def envRun (as : List EnvAgent) (s : State) : State := as.foldl (fun t a => envStep a t) s

/-! ### Fetch -/

/-- The operation word the controller has reached: the element of `prog` at `opidx` (R22); `none` when the controller is done
(log 14). -/
def fetch (s : State) : Option OpWord := s.prog[s.opidx]?

/-- Whether a mark stops the controller (R24). -/
def stopped (s : State) : Bool := s.fault.isSome || s.refused.isSome

/-- A program with `w` at the index `n`, the other elements as they are; a program too short for that is first filled up. -/
def placeWord (prog : List OpWord) (n : Nat) (w : OpWord) : List OpWord :=
  prog.take n ++ List.replicate (n - prog.length) w ++ w :: prog.drop (n + 1)

end Sys2Proof.Machine
end

