-- ==== Sys2Proof/Machine/Timer.lean ====
section
/-! DEFINITION. The Tick Timer (41_tick_timer.md): TICKS, DELAY_US, DELAY_MS, UPTIME_SECONDS, and the two loops they share. -/

namespace Sys2Proof.Machine

/-- One controller step of a TICKS (R110) inside an operation: `wrap` says where the operation then stands, `k` what it does
with the value. The loop reads TIMER_HI, TIMER_LO, TIMER_HI and starts again while the two high halves differ. -/
def ticksStep (wrap : TicksPhase → Phase) (k : DWord → State → Exec) (s : State) : TicksPhase → Exec
  | .hi1 => readThen timerHiAddr s fun h1 t => goTo (wrap (.lo h1)) t
  | .lo h1 => readThen timerLoAddr s fun lo t => goTo (wrap (.hi2 h1 lo)) t
  | .hi2 h1 lo => readThen timerHiAddr s fun h2 t => if h1 = h2 then k (composeTicks h1 lo) t else goTo (wrap .hi1) t

/-- One controller step of a DELAY_US of `n` microseconds (R111) inside an operation. -/
def delayStep (n : Word) (wrap : DelayPhase → Phase) (k : State → Exec) (s : State) : DelayPhase → Exec
  | .first p => ticksStep (fun q => wrap (.first q)) (fun start t => goTo (wrap (.spin start .hi1)) t) s p
  | .spin start p =>
    ticksStep (fun q => wrap (.spin start q))
      (fun now t => if delayElapsed start now n then k t else goTo (wrap (.spin start .hi1)) t) s p

/-- The phases of TICKS and UPTIME_SECONDS. -/
def ticksPhase : Phase → Option TicksPhase
  | .start => some .hi1
  | .ticks p => some p
  | _ => none

/-- The phases of DELAY_US and DELAY_MS. -/
def delayPhase : Phase → Option DelayPhase
  | .start => some (.first .hi1)
  | .delay d => some d
  | _ => none

/-- TICKS (R110). -/
def execTicks (s : State) : Exec :=
  whileRunning s (inPhase (ticksPhase s.phase) (ticksStep .ticks (fun v t => finish (.u64 v) t) s))

/-- DELAY_US (R111). -/
def execDelayUs (n : Word) (s : State) : Exec :=
  whileRunning s (inPhase (delayPhase s.phase) (delayStep n .delay (finish .unit) s))

/-- DELAY_MS (R112): DELAY_US of `US(n)`. -/
def execDelayMs (n : Word) (s : State) : Exec :=
  whileRunning s (inPhase (delayPhase s.phase) (delayStep (usOf n) .delay (finish .unit) s))

/-- UPTIME_SECONDS (R113): TICKS, then the truncated quotient. -/
def execUptimeSeconds (s : State) : Exec :=
  whileRunning s (inPhase (ticksPhase s.phase) (ticksStep .ticks (fun v t => finish (.u32 (secondsOf v)) t) s))

end Sys2Proof.Machine
end

