-- ==== Sys2Proof/Machine/Gpio.lean ====
section
/-! DEFINITION. The GPIO Pin Controller (43_gpio.md). -/

namespace Sys2Proof.Machine

/-- The pin check (R158): before any access, a pin not below NUM_GPIO_PINS faults PIN_RANGE. -/
def pinChecked (pin : Word) (s : State) (k : Exec) : Exec :=
  if pin.toNat < s.params.numGpioPins then k else raiseFault (.pinRange pin) s

/-- One controller step of a GPIO_SET_FUNCTION (R150) inside an operation: with nothing held, the pin check and the read of
the control register; with a value held, the write of it with its FUNCSEL field replaced. -/
def setFunctionStep (pin f : Word) (hold : Word → Phase) (k : State → Exec) (s : State) : Option Word → Exec
  | none => pinChecked pin s (readThen (ctrlAddr pin) s fun v t => goTo (hold v) t)
  | some v => writeThen (ctrlAddr pin) (insertFunc v f) s k

/-- GPIO_SET inside an operation (R153): the pin check, no access, the result UNSUPPORTED handed to `k`; the level has no
effect. -/
def setLevel (pin : Word) (_value : Bool) (s : State) (k : Result → Exec) : Exec := pinChecked pin s (k .unsupported)

/-- The phases of GPIO_SET_FUNCTION and of the operations that call it once. -/
def rmwPhase : Phase → Option (Option Word)
  | .start => some none
  | .rmw v => some (some v)
  | _ => none

/-- The phases of BLINK_ACTIVITY_LED. -/
def blinkPhase : Phase → Option BlinkPhase
  | .start => some (.ledOn none)
  | .blink b => some b
  | _ => none

/-- One controller step of an LED_ON or LED_OFF (R155, R156) inside an operation: GPIO_SET_OUTPUT, then GPIO_SET of the level,
whose UNSUPPORTED is handed to `k`. -/
def ledStep (pin : Word) (level : Bool) (hold : Word → Phase) (k : Result → State → Exec) (s : State) :
    Option Word → Exec :=
  setFunctionStep pin funcSio hold (fun t => setLevel pin level t fun r => k r t) s

/-- GPIO_SET_FUNCTION (R150). -/
def execGpioSetFunction (pin f : Word) (s : State) : Exec :=
  whileRunning s (inPhase (rmwPhase s.phase) (setFunctionStep pin f .rmw (finish .unit) s))

/-- GPIO_SET_OUTPUT (R151): GPIO_SET_FUNCTION of the software-controlled I/O code. -/
def execGpioSetOutput (pin : Word) (s : State) : Exec :=
  whileRunning s (inPhase (rmwPhase s.phase) (setFunctionStep pin funcSio .rmw (finish .unit) s))

/-- GPIO_SET_INPUT (R152): the same code as GPIO_SET_OUTPUT. -/
def execGpioSetInput (pin : Word) (s : State) : Exec :=
  whileRunning s (inPhase (rmwPhase s.phase) (setFunctionStep pin funcSio .rmw (finish .unit) s))

/-- GPIO_SET (R153): no access; the result is UNSUPPORTED. -/
def execGpioSet (pin : Word) (value : Bool) (s : State) : Exec :=
  whileRunning s (inPhase (startOnly s.phase) fun _ => setLevel pin value s fun r => finish r s)

/-- GPIO_GET (R154): no access; the result is UNSUPPORTED. -/
def execGpioGet (pin : Word) (s : State) : Exec :=
  whileRunning s (inPhase (startOnly s.phase) fun _ => pinChecked pin s (finish .unsupported s))

/-- LED_ON (R155). -/
def execLedOn (pin : Word) (s : State) : Exec :=
  whileRunning s (inPhase (rmwPhase s.phase) (ledStep pin true .rmw (fun r t => finish r t) s))

/-- LED_OFF (R156). -/
def execLedOff (pin : Word) (s : State) : Exec :=
  whileRunning s (inPhase (rmwPhase s.phase) (ledStep pin false .rmw (fun r t => finish r t) s))

/-- BLINK_ACTIVITY_LED (R157): LED_ON, DELAY_MS, LED_OFF, DELAY_MS of the activity LED's pin, then UNSUPPORTED. -/
def execBlinkActivityLed (s : State) : Exec :=
  whileRunning s (inPhase (blinkPhase s.phase) fun
    | .ledOn held =>
      ledStep pinActLed true (fun v => .blink (.ledOn (some v))) (fun _ t => goTo (.blink (.delayOn (.first .hi1))) t) s held
    | .delayOn d =>
      delayStep (usOf blinkHalfPeriodMs) (fun q => .blink (.delayOn q)) (fun t => goTo (.blink (.ledOff none)) t) s d
    | .ledOff held =>
      ledStep pinActLed false (fun v => .blink (.ledOff (some v))) (fun _ t => goTo (.blink (.delayOff (.first .hi1))) t) s held
    | .delayOff d =>
      delayStep (usOf blinkHalfPeriodMs) (fun q => .blink (.delayOff q)) (finish .unsupported) s d)

end Sys2Proof.Machine
end

