-- ==== Sys2Proof/Machine/RegAccess.lean ====
section
/-! DEFINITION. The Register Access Primitive (40_register_access.md): REG_READ and REG_WRITE. -/

namespace Sys2Proof.Machine

/-- REG_READ (R100): one access, its value the result. -/
def execRegRead (addr : Addr) (s : State) : Exec :=
  whileRunning s (inPhase (startOnly s.phase) fun _ => readThen addr s fun v t => finish (.u32 v) t)

/-- REG_WRITE (R101): one access, not gated by TXFF. -/
def execRegWrite (addr : Addr) (value : Word) (s : State) : Exec :=
  whileRunning s (inPhase (startOnly s.phase) fun _ => writeThen addr value s fun t => finish .unit t)

end Sys2Proof.Machine
end

