-- ==== Sys2Proof/Machine/Serial.lean ====
section
/-! DEFINITION. The Serial Channel (42_serial.md): UART_INIT, PUT_CHAR, PUT_STRING, GET_CHAR, PUT_HEX, and the gated write they
share. -/

namespace Sys2Proof.Machine

/-- The phases of the sending operations, for an operation that sends `bs`. -/
def sendPhase (bs : List Byte) : Phase → Option (List Byte × Bool)
  | .start => some (bs, false)
  | .send todo ready => some (todo, ready)
  | _ => none

/-- One controller step of the gated sending of bytes (R131, R136): each byte is written to UART_DR after a read of UART_FR that
returned TXFF = 0, with no access between. With no byte to send the operation ends at once (R132, R8). -/
def sendStep (s : State) : List Byte × Bool → Exec
  | ([], _) => finish .unit s
  | (b :: rest, false) =>
    readThen uartFrAddr s fun f t => goTo (.send (b :: rest) (!txffOf f)) t
  | (b :: rest, true) =>
    writeThen uartDrAddr (byteWord b) s fun t =>
      match rest with
      | [] => finish .unit t
      | _ :: _ => goTo (.send rest false) t

/-- The phases of GET_CHAR: whether RXFE = 0 has been read. -/
def recvPhase : Phase → Option Bool
  | .start => some false
  | .recv => some true
  | _ => none

/-- UART_INIT (R130): no access, one step. -/
def execUartInit (s : State) : Exec :=
  whileRunning s (inPhase (startOnly s.phase) fun _ => finish .unit s)

/-- PUT_CHAR (R131). -/
def execPutChar (c : Byte) (s : State) : Exec :=
  whileRunning s (inPhase (sendPhase (lineBytes c) s.phase) (sendStep s))

/-- PUT_STRING (R132): PUT_CHAR of each byte. -/
def execPutString (str : List Byte) (s : State) : Exec :=
  whileRunning s (inPhase (sendPhase (stringBytes str) s.phase) (sendStep s))

/-- GET_CHAR (R133): polls until RXFE = 0, then reads UART_DR. -/
def execGetChar (s : State) : Exec :=
  whileRunning s (inPhase (recvPhase s.phase) fun
    | false => readThen uartFrAddr s fun f t => goTo (if rxfeOf f then .start else .recv) t
    | true => readThen uartDrAddr s fun v t => finish (.u8 (lowByte v)) t)

/-- PUT_HEX (R134): PUT_CHAR of the ten characters. -/
def execPutHex (n : Word) (s : State) : Exec :=
  whileRunning s (inPhase (sendPhase (stringBytes (hexChars n)) s.phase) (sendStep s))

end Sys2Proof.Machine
end

