-- ==== Sys2Proof/Machine/Dispatch.lean ====
section
/-! DEFINITION. One controller step of an operation (00_scope.md R8), by constructor. -/

namespace Sys2Proof.Machine

def exec (i : Instr) (s : State) : Host.Outcome State Fault Refusal :=
  match i with
  | .regRead addr => Sys2Proof.Machine.execRegRead addr s
  | .regWrite addr value => Sys2Proof.Machine.execRegWrite addr value s
  | .ticks => Sys2Proof.Machine.execTicks s
  | .delayUs n => Sys2Proof.Machine.execDelayUs n s
  | .delayMs n => Sys2Proof.Machine.execDelayMs n s
  | .uptimeSeconds => Sys2Proof.Machine.execUptimeSeconds s
  | .uartInit => Sys2Proof.Machine.execUartInit s
  | .putChar c => Sys2Proof.Machine.execPutChar c s
  | .putString str => Sys2Proof.Machine.execPutString str s
  | .getChar => Sys2Proof.Machine.execGetChar s
  | .putHex n => Sys2Proof.Machine.execPutHex n s
  | .gpioSetFunction pin f => Sys2Proof.Machine.execGpioSetFunction pin f s
  | .gpioSetOutput pin => Sys2Proof.Machine.execGpioSetOutput pin s
  | .gpioSetInput pin => Sys2Proof.Machine.execGpioSetInput pin s
  | .gpioSet pin value => Sys2Proof.Machine.execGpioSet pin value s
  | .gpioGet pin => Sys2Proof.Machine.execGpioGet pin s
  | .ledOn pin => Sys2Proof.Machine.execLedOn pin s
  | .ledOff pin => Sys2Proof.Machine.execLedOff pin s
  | .blinkActivityLed => Sys2Proof.Machine.execBlinkActivityLed s

end Sys2Proof.Machine
end

