-- ==== Sys2Proof/Machine/Controller.lean ====
section
/-! DEFINITION. The controller's turn (10_state.md R22, R24), and an operation run to its end under a given interleaving. -/

namespace Sys2Proof.Machine

/-- One turn of the controller: stopped by a mark (R24) or done (R22) it takes no step; a word the decoder refuses sets
`refused` before anything of that word is done (R172, R176); a decoded operation takes one step. -/
def controllerTurn (s : State) : Exec :=
  if stopped s then .next s
  else
    match fetch s with
    | none => .next s
    | some w =>
      match decode w with
      | .error r => .next (s.markRefused r)
      | .ok i => exec i s

/-- The operation `i` under an interleaving (R8): before each of its controller steps a window of environment steps. It ends
where the operation ends (its result appended, or its fault marked), or where the windows do. -/
def runOp (i : Instr) : List (List EnvAgent) → State → Exec
  | [], s => .next s
  | w :: ws, s =>
    match exec i (envRun w s) with
    | .next t => if t.opidx = s.opidx ∧ stopped t = false then runOp i ws t else .next t
    | .fault r => .fault r
    | .refused r => .refused r

end Sys2Proof.Machine
end

