-- ==== Sys2Proof/Machine/Step.lean ====
section
/-! DEFINITION. One step of the block: an environment agent's step where one is due, else the controller's turn, after which the
next window of environment steps opens (00_scope.md R8, log 1). -/

namespace Sys2Proof.Machine

/-- One step. -/
def step (s : State) : Host.Outcome State Fault Refusal :=
  match s.env with
  | a :: rest => .next (envStep a { s with env := rest })
  | [] =>
    match controllerTurn s with
    | .next t => .next t.openWindow
    | .fault r => .fault r
    | .refused r => .refused r

/-- `s` with the operation word of an opcode-table word at the place the controller fetches next, about to run: the operation
at its start, the controller's turn, no mark standing (log 7). -/
def State.withFetchWord (s : State) (nbits w : Nat) : State :=
  { s with
    prog := placeWord s.prog s.opidx (OpWord.ofBits nbits w)
    phase := .start
    fault := none
    refused := none
    env := [] }

end Sys2Proof.Machine
end

