-- ==== Sys2Proof/Machine/Assembler.lean ====
section
/-! DEFINITION. The textual syntax of programs (30_encoding.md R78): one operation per line, source names, operands separated by
`, `. The points R78 leaves open are fixed in log 16. The assembler answers operation words; whether a word is an operation
is the decoder's to say (a string literal can hold `\x00`). -/

namespace Sys2Proof.Machine

/-- Why a line is no line of R78's syntax. -/
inductive AsmError where
  /-- The name is none of R78's. -/
  | unknownName
  /-- An operand is missing, not of its slot's form, or too large for its type. -/
  | badOperand
  /-- Text other than a comment follows the operation. -/
  | trailingText
  deriving DecidableEq, Repr

/-- The source name of an operation (R73, R78). -/
def sourceName : Op → String
  | .regRead => "read"
  | .regWrite => "write"
  | .ticks => "ticks"
  | .delayUs => "delay_us"
  | .delayMs => "delay_ms"
  | .uptimeSeconds => "uptime_seconds"
  | .uartInit => "init"
  | .putChar => "put_char"
  | .putString => "put_string"
  | .getChar => "get_char"
  | .putHex => "put_hex"
  | .gpioSetFunction => "set_function"
  | .gpioSetOutput => "set_output"
  | .gpioSetInput => "set_input"
  | .gpioSet => "set"
  | .gpioGet => "get"
  | .ledOn => "led_on"
  | .ledOff => "led_off"
  | .blinkActivityLed => "blink_activity_led"

/-- The operation of a source name. -/
def opNamed (name : List Char) : Option Op := allOps.find? fun op => (sourceName op).toList == name

/-- A character of a source name. -/
def isNameChar (c : Char) : Bool := c.isLower || c == '_'

/-- The value of a hexadecimal digit, in either case. -/
def digitValue (c : Char) : Option Nat :=
  let n := c.toNat
  if 0x30 ≤ n ∧ n ≤ 0x39 then some (n - 0x30)
  else if 0x41 ≤ n ∧ n ≤ 0x46 then some (n - 0x41 + 10)
  else if 0x61 ≤ n ∧ n ≤ 0x66 then some (n - 0x61 + 10)
  else none

/-- The digits of a number from the value read so far, and the text after them. -/
def digitsFrom (base : Nat) : Nat → List Char → Nat × List Char
  | acc, [] => (acc, [])
  | acc, c :: rest =>
    match digitValue c with
    | some d => if d < base then digitsFrom base (acc * base + d) rest else (acc, c :: rest)
    | none => (acc, c :: rest)

/-- A number of at least one digit. -/
def digits (base : Nat) : List Char → Option (Nat × List Char)
  | [] => none
  | c :: rest =>
    match digitValue c with
    | some d => if d < base then some (digitsFrom base d rest) else none
    | none => none

/-- "Numbers are decimal or `0x` hexadecimal" (R78). -/
def parseNumber : List Char → Option (Nat × List Char)
  | '0' :: 'x' :: rest => digits 16 rest
  | cs => digits 10 cs

/-- A number that fits its type. -/
def parseFitting (bits : Nat) (cs : List Char) : Option (Nat × List Char) :=
  match parseNumber cs with
  | some (n, rest) => if n < 2 ^ bits then some (n, rest) else none
  | none => none

/-- The byte of an escape, from the text after the backslash (R78), and the text after it. -/
def parseEscape : List Char → Option (Byte × List Char)
  | 'n' :: rest => some (0x0A#8, rest)
  | 'r' :: rest => some (0x0D#8, rest)
  | 'x' :: a :: b :: rest =>
    match digitValue a, digitValue b with
    | some x, some y => some (BitVec.ofNat 8 (16 * x + y), rest)
    | _, _ => none
  | c :: rest => if c.toNat = 0x5C ∨ c.toNat = 0x22 ∨ c.toNat = 0x27 then some (BitVec.ofNat 8 c.toNat, rest) else none
  | [] => none

/-- One character of a literal closed by the quote code `q`: an ASCII character or an escape. -/
def parseLiteralChar (q : Nat) : List Char → Option (Byte × List Char)
  | [] => none
  | c :: rest =>
    if c.toNat = 0x5C then parseEscape rest
    else if c.toNat = q ∨ 0x80 ≤ c.toNat then none
    else some (BitVec.ofNat 8 c.toNat, rest)

/-- The characters of a string literal after its opening quote, up to and with the closing one; `fuel` bounds their number. -/
def parseStringBody : Nat → List Char → Option (List Byte × List Char)
  | 0, _ => none
  | fuel + 1, cs =>
    match cs with
    | [] => none
    | c :: rest =>
      if c.toNat = 0x22 then some ([], rest)
      else
        match parseLiteralChar 0x22 (c :: rest) with
        | none => none
        | some (b, rest') =>
          match parseStringBody fuel rest' with
          | some (bs, rest'') => some (b :: bs, rest'')
          | none => none

/-- A byte operand: a number, or "a C character literal" (R78). -/
def parseByte : List Char → Option (Byte × List Char)
  | [] => none
  | c :: rest =>
    if c.toNat = 0x27 then
      match parseLiteralChar 0x27 rest with
      | some (b, q :: rest') => if q.toNat = 0x27 then some (b, rest') else none
      | _ => none
    else (parseFitting 8 (c :: rest)).map fun p => (BitVec.ofNat 8 p.1, p.2)

/-- A string operand: "a C string literal" (R78). -/
def parseString : List Char → Option (List Byte × List Char)
  | [] => none
  | c :: rest => if c.toNat = 0x22 then parseStringBody (rest.length + 1) rest else none

/-- An operand of a slot's type. "A `bool` is `0` or `1`" (R78). -/
def parseSlot (k : SlotKind) (cs : List Char) : Option (Slot × List Char) :=
  match k with
  | .u64 => (parseFitting 64 cs).map fun p => (.u64 (BitVec.ofNat 64 p.1), p.2)
  | .u32 => (parseFitting 32 cs).map fun p => (.u32 (BitVec.ofNat 32 p.1), p.2)
  | .u8 => (parseByte cs).map fun p => (.u8 p.1, p.2)
  | .bool => (parseFitting 1 cs).map fun p => (.bool (p.1 == 1), p.2)
  | .bytes => (parseString cs).map fun p => (.bytes p.1, p.2)

/-- The operands after the first, each after `, `. -/
def parseMoreSlots : List SlotKind → List Char → Option (List Slot × List Char)
  | [], cs => some ([], cs)
  | k :: ks, ',' :: ' ' :: cs =>
    match parseSlot k cs with
    | some (v, rest) => (parseMoreSlots ks rest).map fun p => (v :: p.1, p.2)
    | none => none
  | _ :: _, _ => none

/-- The operands of an operation, the first after a space (R78). -/
def parseSlots : List SlotKind → List Char → Option (List Slot × List Char)
  | [], cs => some ([], cs)
  | k :: ks, ' ' :: cs =>
    match parseSlot k cs with
    | some (v, rest) => (parseMoreSlots ks rest).map fun p => (v :: p.1, p.2)
    | none => none
  | _ :: _, _ => none

/-- Nothing but spaces and a comment: "Text from `;` to the end of a line is a comment" (R78). -/
def isLineEnd (cs : List Char) : Bool :=
  match cs.dropWhile (· == ' ') with
  | [] => true
  | c :: _ => c == ';'

/-- One line of a program: its operation word, or nothing for a line with no operation. -/
def assembleLine (line : List Char) : Except AsmError (Option OpWord) :=
  if isLineEnd line then .ok none
  else
    match opNamed (line.takeWhile isNameChar) with
    | none => .error .unknownName
    | some op =>
      match parseSlots op.format.slots (line.dropWhile isNameChar) with
      | none => .error .badOperand
      | some (slots, rest) =>
        if isLineEnd rest then .ok (some { sel := op.sel, slots := slots }) else .error .trailingText

/-- The lines of a program, in order. -/
def assemble : List String → Except AsmError (List OpWord)
  | [] => .ok []
  | line :: lines =>
    match assembleLine line.toList with
    | .error e => .error e
    | .ok w =>
      match assemble lines with
      | .error e => .error e
      | .ok ws => .ok (w.toList ++ ws)

end Sys2Proof.Machine
end

