-- ==== Sys2Proof/Safety.lean ====
section
/-! DEFINITION. The terms claims use: the ends of a run (60_exceptions.md R186), the committed serial output (10_state.md R39), the
invariant that every step keeps, the interleavings of R8 as executions, and the fairness assumptions of R37 and
41_tick_timer.md R116. -/

namespace Sys2Proof.Machine

/-! ### Ends of a run (R186) -/

/-- COMPLETED: the only successful end. -/
abbrev Completed (s : State) : Prop := s.opidx = s.prog.length ∧ s.fault = none ∧ s.refused = none

/-- FAULTED. -/
abbrev Faulted (s : State) : Prop := s.fault ≠ none

/-- REFUSED. -/
abbrev RefusedEnd (s : State) : Prop := s.refused ≠ none

/-- No mark stops the controller (R24). -/
abbrev Running (s : State) : Prop := s.fault = none ∧ s.refused = none

/-- The controller can take the first step of an operation: no mark, and the phase at its start (R22). -/
abbrev Ready (s : State) : Prop := Running s ∧ s.phase = .start

/-- The launch premises of R192 that the state shows; the others hold of the model by its shape (log 13). -/
abbrev LaunchPremises (s : State) : Prop := s.interruptsMasked = true ∧ s.uartConfigured = true

/-! ### The committed serial output -/

/-- The bytes handed to the UART, in order (R39). -/
def committed (s : State) : List Byte := s.lineOut ++ s.tx

/-- The bytes an operation hands to the UART by its rule, as R137 lists them; REG_WRITE to UART_DR sends the low byte. -/
def opBytes : Instr → List Byte
  | .regWrite addr value => if addr = uartDrAddr then [lowByte value] else []
  | .putChar c => lineBytes c
  | .putString str => stringBytes str
  | .putHex n => hexChars n
  | .regRead _ => []
  | .ticks => []
  | .delayUs _ => []
  | .delayMs _ => []
  | .uptimeSeconds => []
  | .uartInit => []
  | .getChar => []
  | .gpioSetFunction _ _ => []
  | .gpioSetOutput _ => []
  | .gpioSetInput _ => []
  | .gpioSet _ _ => []
  | .gpioGet _ => []
  | .ledOn _ => []
  | .ledOff _ => []
  | .blinkActivityLed => []

/-- The byte a write event hands to the UART. -/
def eventBytes : Event → List Byte
  | .wr a v => if a = uartDrAddr then [lowByte v] else []
  | .rd _ _ => []

/-- The bytes the write events of a trace handed to the UART, in order. -/
def sentBytes (tr : List Event) : List Byte := tr.flatMap eventBytes

/-! ### The invariant -/

/-- The pin whose control register an operation holds between its read and its write. -/
def heldPin : Instr → Option Word
  | .regRead _ => none
  | .regWrite _ _ => none
  | .ticks => none
  | .delayUs _ => none
  | .delayMs _ => none
  | .uptimeSeconds => none
  | .uartInit => none
  | .putChar _ => none
  | .putString _ => none
  | .getChar => none
  | .putHex _ => none
  | .gpioSetFunction pin _ => some pin
  | .gpioSetOutput pin => some pin
  | .gpioSetInput pin => some pin
  | .gpioSet _ _ => none
  | .gpioGet _ => none
  | .ledOn pin => some pin
  | .ledOff pin => some pin
  | .blinkActivityLed => some pinActLed

/-- The bytes a sending operation sends. -/
def sendBytes : Instr → Option (List Byte)
  | .regRead _ => none
  | .regWrite _ _ => none
  | .ticks => none
  | .delayUs _ => none
  | .delayMs _ => none
  | .uptimeSeconds => none
  | .uartInit => none
  | .putChar c => some (lineBytes c)
  | .putString str => some (stringBytes str)
  | .getChar => none
  | .putHex n => some (stringBytes (hexChars n))
  | .gpioSetFunction _ _ => none
  | .gpioSetOutput _ => none
  | .gpioSetInput _ => none
  | .gpioSet _ _ => none
  | .gpioGet _ => none
  | .ledOn _ => none
  | .ledOff _ => none
  | .blinkActivityLed => none

/-- The operations that are one TICKS. -/
def isTicks : Instr → Bool
  | .regRead _ => false
  | .regWrite _ _ => false
  | .ticks => true
  | .delayUs _ => false
  | .delayMs _ => false
  | .uptimeSeconds => true
  | .uartInit => false
  | .putChar _ => false
  | .putString _ => false
  | .getChar => false
  | .putHex _ => false
  | .gpioSetFunction _ _ => false
  | .gpioSetOutput _ => false
  | .gpioSetInput _ => false
  | .gpioSet _ _ => false
  | .gpioGet _ => false
  | .ledOn _ => false
  | .ledOff _ => false
  | .blinkActivityLed => false

/-- The operations that are one DELAY_US. -/
def isDelay : Instr → Bool
  | .regRead _ => false
  | .regWrite _ _ => false
  | .ticks => false
  | .delayUs _ => true
  | .delayMs _ => true
  | .uptimeSeconds => false
  | .uartInit => false
  | .putChar _ => false
  | .putString _ => false
  | .getChar => false
  | .putHex _ => false
  | .gpioSetFunction _ _ => false
  | .gpioSetOutput _ => false
  | .gpioSetInput _ => false
  | .gpioSet _ _ => false
  | .gpioGet _ => false
  | .ledOn _ => false
  | .ledOff _ => false
  | .blinkActivityLed => false

/-- GET_CHAR. -/
def isReceive : Instr → Bool
  | .regRead _ => false
  | .regWrite _ _ => false
  | .ticks => false
  | .delayUs _ => false
  | .delayMs _ => false
  | .uptimeSeconds => false
  | .uartInit => false
  | .putChar _ => false
  | .putString _ => false
  | .getChar => true
  | .putHex _ => false
  | .gpioSetFunction _ _ => false
  | .gpioSetOutput _ => false
  | .gpioSetInput _ => false
  | .gpioSet _ _ => false
  | .gpioGet _ => false
  | .ledOn _ => false
  | .ledOff _ => false
  | .blinkActivityLed => false

/-- The operations that are one GPIO_SET_FUNCTION. -/
def isSelect : Instr → Bool
  | .regRead _ => false
  | .regWrite _ _ => false
  | .ticks => false
  | .delayUs _ => false
  | .delayMs _ => false
  | .uptimeSeconds => false
  | .uartInit => false
  | .putChar _ => false
  | .putString _ => false
  | .getChar => false
  | .putHex _ => false
  | .gpioSetFunction _ _ => true
  | .gpioSetOutput _ => true
  | .gpioSetInput _ => true
  | .gpioSet _ _ => false
  | .gpioGet _ => false
  | .ledOn _ => true
  | .ledOff _ => true
  | .blinkActivityLed => false

/-- BLINK_ACTIVITY_LED. -/
def isBlink : Instr → Bool
  | .regRead _ => false
  | .regWrite _ _ => false
  | .ticks => false
  | .delayUs _ => false
  | .delayMs _ => false
  | .uptimeSeconds => false
  | .uartInit => false
  | .putChar _ => false
  | .putString _ => false
  | .getChar => false
  | .putHex _ => false
  | .gpioSetFunction _ _ => false
  | .gpioSetOutput _ => false
  | .gpioSetInput _ => false
  | .gpioSet _ _ => false
  | .gpioGet _ => false
  | .ledOn _ => false
  | .ledOff _ => false
  | .blinkActivityLed => true

/-- Whether `todo` is what is left of the bytes an operation sends. -/
def leftToSend (todo : List Byte) : Option (List Byte) → Bool
  | some bs => !todo.isEmpty && todo.isSuffixOf bs
  | none => false

/-- The phases an operation can be in (R22, R38). -/
def phaseFits (i : Instr) : Phase → Bool
  | .start => true
  | .ticks _ => isTicks i
  | .delay _ => isDelay i
  | .send todo _ => leftToSend todo (sendBytes i)
  | .recv => isReceive i
  | .rmw _ => isSelect i
  | .blink _ => isBlink i

/-- The control value an operation in progress holds. -/
def heldValue : Phase → Option Word
  | .rmw v => some v
  | .blink (.ledOn h) => h
  | .blink (.ledOff h) => h
  | _ => none

/-- The operation in progress, if its word decodes. -/
def current (s : State) : Option Instr :=
  match fetch s with
  | none => none
  | some w =>
    match decode w with
    | .ok i => some i
    | .error _ => none

/-- Whether an operation stands where it began. -/
def atStart : Phase → Bool
  | .start => true
  | _ => false

/-- The phase is one of the operation in progress; where none is in progress, it is the start. -/
def phaseOk (s : State) : Bool :=
  match current s with
  | some i => phaseFits i s.phase
  | none => atStart s.phase

/-- A byte about to be written has room, and a byte about to be read is there (42_serial.md R136, 20_memory.md R58). -/
def gateOk (s : State) : Bool :=
  match s.phase with
  | .send _ true => s.tx.length < s.params.txDepth
  | .recv => !s.rx.isEmpty
  | _ => true

/-- The value held, if any, is the register's. -/
def heldMatches (s : State) (pin : Word) : Bool :=
  match heldValue s.phase with
  | some v => ctrlRead s.gpioCtrl pin.toNat == v
  | none => true

/-- Past its start an operation on a pin has passed the pin check (43_gpio.md R158), and the control value it holds is still the
register's (20_memory.md R60). -/
def holdOk (s : State) : Bool :=
  match (current s).bind heldPin with
  | some pin => atStart s.phase || (decide (pin.toNat < s.params.numGpioPins) && heldMatches s pin)
  | none => true

/-- What holds of every state of a run (R21, R22, R24, R27, R31, R38). -/
structure BlockInv (s : State) : Prop where
  /-- One result for every operation that has ended (R21). -/
  one_result_per_op : s.results.length = s.opidx
  /-- The controller never passes the end of the program (R22). -/
  opidx_le : s.opidx ≤ s.prog.length
  /-- The transmit FIFO is within its depth (R31). -/
  tx_le : s.tx.length ≤ s.params.txDepth
  /-- The receive FIFO is within its depth (R31). -/
  rx_le : s.rx.length ≤ s.params.rxDepth
  /-- The GPIO_CTRL bank is in its canonical form. -/
  bank_wf : s.gpioCtrl.wf = true
  /-- Every listed control register is a pin of the controller (R27). -/
  bank_pins : s.gpioCtrl.all (fun c => c.1 < s.params.numGpioPins) = true
  /-- The phase is one of the operation in progress (R22). -/
  phase_ok : phaseOk s = true
  /-- The gates hold (R136). -/
  gate_ok : gateOk s = true
  /-- The value held between a control read and its write is the register's (R60). -/
  hold_ok : holdOk s = true
  /-- A mark stands only between operations: a fault is raised before any access of its operation (R174). -/
  mark_at_start : stopped s = true → s.phase = .start

/-! ### Interleavings -/

/-- Who takes a step: the controller or an environment agent (R8). -/
inductive Agent where
  | controller
  | env (a : EnvAgent)
  deriving DecidableEq, Repr

/-- When an environment agent can step: the timer always (R34), the drain with `tx` not empty (R35), the arrival with `host_in`
not empty (R36). -/
def envEnabled : EnvAgent → State → Bool
  | .timer, _ => true
  | .drain, s => !s.tx.isEmpty
  | .arrival, s => !s.hostIn.isEmpty

/-- `s` to `t` is a step of the agent (R8): the block's own transitions, with no schedule. -/
def AgentStep : Agent → State → State → Prop
  | .controller, s, t => controllerTurn s = .next t
  | .env a, s, t => envEnabled a s = true ∧ t = envStep a s

/-- An infinite execution: the states and who moves between them. -/
def IsExecution (σ : Nat → State) (who : Nat → Agent) : Prop := ∀ n, AgentStep (who n) (σ n) (σ (n + 1))

/-- The controller has nothing left to do: done, faulted or refused (R22, R24). -/
def halted (s : State) : Prop := stopped s = true ∨ fetch s = none

/-- CTRL_FAIR (R37). -/
def CtrlFair (σ : Nat → State) (who : Nat → Agent) : Prop := ∀ n, ∃ m, n ≤ m ∧ (who m = .controller ∨ halted (σ m))

/-- TIMER_FAIR (R37). -/
def TimerFair (who : Nat → Agent) : Prop := ∀ n, ∃ m, n ≤ m ∧ who m = .env .timer

/-- TX_DRAIN_FAIR (R37): "the drain agent steps whenever it stays enabled". -/
def TxDrainFair (σ : Nat → State) (who : Nat → Agent) : Prop :=
  ∀ n, (∀ m, n ≤ m → (σ m).tx ≠ []) → ∃ m, n ≤ m ∧ who m = .env .drain

/-- How many of the `len` steps from step `n` on are the agent's. -/
def countMoves (who : Nat → Agent) (a : Agent) (n : Nat) : Nat → Nat
  | 0 => 0
  | len + 1 => countMoves who a n len + if who (n + len) = a then 1 else 0

/-- TIMER_SLOW (41_tick_timer.md R116): "fewer than `2^32` timer steps occur during any six consecutive controller steps". -/
def TimerSlow (who : Nat → Agent) : Prop :=
  ∀ n len, who n = .controller → countMoves who .controller n len ≤ 6 →
    (0 < len → who (n + len - 1) = .controller) → countMoves who (.env .timer) n len < 2 ^ 32

/-- The number of timer steps in a window of environment steps. -/
def timerSteps (as : List EnvAgent) : Nat := as.count .timer

/-! ### Vocabulary of statements: the effects of R7's primitives, written out -/

/-- `s` after a device read of `v` at `a`: its event appended (R23). -/
def afterRead (s : State) (a : Addr) (v : Word) : State := { s with trace := s.trace ++ [.rd a v] }

/-- `s` after a device write of `v` at `a`: its event appended (R23). -/
def afterWrite (s : State) (a : Addr) (v : Word) : State := { s with trace := s.trace ++ [.wr a v] }

/-- `s` after its operation ended with the result `r` (R21, R22). -/
def afterEnd (s : State) (r : Result) : State :=
  { s with results := s.results ++ [r], opidx := s.opidx + 1, phase := .start }

/-- The steps of a TICKS (R110) inside the operation `i`: `at_` is the operation's phase at each point of the TICKS, `done`
what follows once a value is composed. -/
def TicksSteps (i : Instr) (at_ : TicksPhase → Phase) (done : DWord → State → State) : Prop :=
  ∀ s : State, Running s →
    (s.phase = at_ .hi1 →
      exec i s = .next { afterRead s 0x107c003008#64 (s.ctr.extractLsb' 32 32) with phase := at_ (.lo (s.ctr.extractLsb' 32 32)) }) ∧
    (∀ h1, s.phase = at_ (.lo h1) →
      exec i s = .next { afterRead s 0x107c003004#64 (s.ctr.extractLsb' 0 32) with phase := at_ (.hi2 h1 (s.ctr.extractLsb' 0 32)) }) ∧
    (∀ h1 lo, s.phase = at_ (.hi2 h1 lo) →
      exec i s = .next
        (if h1 = s.ctr.extractLsb' 32 32 then
          done ((h1.setWidth 64 <<< 32) ||| lo.setWidth 64) (afterRead s 0x107c003008#64 (s.ctr.extractLsb' 32 32))
        else { afterRead s 0x107c003008#64 (s.ctr.extractLsb' 32 32) with phase := at_ .hi1 }))

/-- The first step of an operation that begins with a TICKS. -/
def StartsTicks (i : Instr) (at_ : TicksPhase → Phase) : Prop :=
  ∀ s : State, Ready s →
    exec i s = .next { afterRead s 0x107c003008#64 (s.ctr.extractLsb' 32 32) with phase := at_ (.lo (s.ctr.extractLsb' 32 32)) }

/-- The steps of a DELAY_US of `n` microseconds (R111) inside the operation `i`. -/
def DelaySteps (i : Instr) (n : Word) (at_ : DelayPhase → Phase) (done : State → State) : Prop :=
  TicksSteps i (fun q => at_ (.first q)) (fun start t => { t with phase := at_ (.spin start .hi1) }) ∧
  ∀ start, TicksSteps i (fun q => at_ (.spin start q))
    (fun now t => if n.toNat ≤ (now - start).toNat then done t else { t with phase := at_ (.spin start .hi1) })

/-- `f` is a value UART_FR can show in `s`: RXFE in bit 4, TXFF in bit 5, the other bits free (R33). -/
def IsFlagValue (s : State) (f : Word) : Prop :=
  f.getLsbD 4 = s.rx.isEmpty ∧ f.getLsbD 5 = (s.tx.length == s.params.txDepth)

/-- The steps of an operation `i` that sends the bytes `bs` (R131): each is written to UART_DR after a read of UART_FR with TXFF = 0. -/
def SendSteps (i : Instr) (bs : List Byte) : Prop :=
  ∀ s : State, Running s →
    (s.phase = .start → bs = [] → exec i s = .next (afterEnd s .unit)) ∧
    (∀ todo, (s.phase = .start ∧ todo = bs ∨ s.phase = .send todo false) → todo ≠ [] →
      ∃ f, IsFlagValue s f ∧ exec i s = .next
        { afterRead s 0x107d001018#64 f with
          draws := s.draws + 1, phase := .send todo (s.tx.length != s.params.txDepth) }) ∧
    (∀ b rest, s.phase = .send (b :: rest) true → s.tx.length ≠ s.params.txDepth →
      exec i s = .next
        (if rest = [] then afterEnd { afterWrite s 0x107d001000#64 (b.setWidth 32) with tx := s.tx ++ [b] } .unit
        else { afterWrite s 0x107d001000#64 (b.setWidth 32) with tx := s.tx ++ [b], phase := .send rest false }))

/-- The steps of a function select of pin `pin` with the code `f` (R150) inside the operation `i`: `begin_` and `held` are the
operation's phases before its read and before its write, `done` what follows. -/
def SelectSteps (i : Instr) (pin f : Word) (begin_ : Phase) (held : Word → Phase) (done : State → State) : Prop :=
  ∀ s : State, Running s → pin.toNat < s.params.numGpioPins →
    (s.phase = begin_ →
      exec i s = .next
        { afterRead s (BitVec.ofNat 64 (0x1f000d0004 + 8 * pin.toNat)) (ctrlRead s.gpioCtrl pin.toNat) with
          phase := held (ctrlRead s.gpioCtrl pin.toNat) }) ∧
    (∀ v, s.phase = held v →
      exec i s = .next (done
        { afterWrite s (BitVec.ofNat 64 (0x1f000d0004 + 8 * pin.toNat)) ((v &&& 0xFFFFFFE0#32) ||| (f &&& 0x1F#32)) with
          gpioCtrl := ctrlWrite s.gpioCtrl pin.toNat ((v &&& 0xFFFFFFE0#32) ||| (f &&& 0x1F#32)) }))

/-- The address of a mapped register, for a controller of `pins` pins, as R51 lists them. -/
def MappedAddress (pins : Nat) (a : Addr) : Prop :=
  (∃ p < pins, a.toNat = 0x1f000d0000 + 8 * p ∨ a.toNat = 0x1f000d0004 + 8 * p) ∨
    a ∈ [0x107c003004#64, 0x107c003008#64, 0x107d001000#64, 0x107d001018#64]

/-- The address of a register that a write may not address, for a controller of `pins` pins, as R171 lists them: GPIO_STATUS(p),
TIMER_LO, TIMER_HI, UART_FR. -/
def ReadOnlyAddress (pins : Nat) (a : Addr) : Prop :=
  (∃ p < pins, a.toNat = 0x1f000d0000 + 8 * p) ∨ a ∈ [0x107c003004#64, 0x107c003008#64, 0x107d001018#64]

/-- Iteration number `k` of the TICKS reads among the events of an operation returns (R110): its two TIMER_HI reads agree. -/
def IterationReturns (ev : List Event) (k : Nat) : Prop :=
  ∃ h lo, ev[3 * k]? = some (.rd 0x107c003008#64 h) ∧ ev[3 * k + 1]? = some (.rd 0x107c003004#64 lo) ∧
    ev[3 * k + 2]? = some (.rd 0x107c003008#64 h)

/-- The pin an operation's fault names (R171): its pin operand, or pin 29 for BLINK_ACTIVITY_LED. -/
def checkedPin : Instr → Option Word
  | .regRead _ => none
  | .regWrite _ _ => none
  | .ticks => none
  | .delayUs _ => none
  | .delayMs _ => none
  | .uptimeSeconds => none
  | .uartInit => none
  | .putChar _ => none
  | .putString _ => none
  | .getChar => none
  | .putHex _ => none
  | .gpioSetFunction pin _ => some pin
  | .gpioSetOutput pin => some pin
  | .gpioSetInput pin => some pin
  | .gpioSet pin _ => some pin
  | .gpioGet pin => some pin
  | .ledOn pin => some pin
  | .ledOff pin => some pin
  | .blinkActivityLed => some pinActLed

end Sys2Proof.Machine
end

