-- ==== Sys2Proof/Certificates/Slice0/Obligations.lean ====
section
/-! DEFINITION. The statements for the provers. Each formalises rules of spec/ about what the block does; its docstring names
them. `exec i s` is ONE controller step of the operation `i` (00_scope.md R8); `runOp i ws s` is the operation under the interleaving
`ws`, one window of environment steps before each of its controller steps. -/

open Sys2Proof Sys2Proof.Machine

/-! ### Encoding -/

/-- 30_encoding.md R71, R73, R77: the decoder and the encoder agree: a word decodes to an operation exactly when it is the word the
operation is written as and the operation is well formed. So decoding the word of a well-formed operation gives the operation back. -/
def Obligations.DecodeAndEncodeAgree : Prop :=
  ∀ (w : OpWord) (i : Instr), decode w = .ok i ↔ encode i = w ∧ i.wellFormed = true

/-- R75: the reserved selectors, listed as the rule lists them, are refused by name when the controller reaches the word, whatever
the slots; the refusal is recorded and from then on the controller takes no step. -/
def Obligations.ReservedSelectorsAreRefused : Prop :=
  ∀ w : OpWord,
    (w.sel = 0x00#8 ∨ (0x03#8 ≤ w.sel ∧ w.sel ≤ 0x0F#8) ∨ (0x14#8 ≤ w.sel ∧ w.sel ≤ 0x1F#8) ∨
      (0x25#8 ≤ w.sel ∧ w.sel ≤ 0x2F#8) ∨ 0x38#8 ≤ w.sel) →
    decode w = .error (.noSuchOperation w.sel) ∧
    ∀ s : State, Running s → fetch s = some w →
      controllerTurn s = .next { s with refused := some (.noSuchOperation w.sel) } ∧
      controllerTurn { s with refused := some (.noSuchOperation w.sel) } =
        .next { s with refused := some (.noSuchOperation w.sel) }

/-- R72, R75, R77: a word whose slots are those of its selector's format decodes to that selector's operation, or is a PUT_STRING
with a byte 0x00 and is refused NUL_IN_STRING. (Other slots make no operation word: the model's `slotMismatch`, log 8.) -/
def Obligations.DecoderAnswersEveryOperationWord : Prop :=
  ∀ (w : OpWord) (op : Op), w.sel = op.sel → w.slots.map Slot.kind = op.format.slots →
    (∃ i, decode w = .ok i ∧ i.op = op) ∨
      (op = .putString ∧ decode w = .error .nulInString ∧ ∃ str, w.slots = [.bytes str] ∧ 0x00#8 ∈ str)

/-- R72, R172 (0x81), R24: a PUT_STRING operand is refused exactly when it holds 0x00, a PUT_CHAR operand never is; a controller that
reaches such a word records the refusal, changes nothing else, and from then on takes no step. -/
def Obligations.NulIsRefusedInStringsOnly : Prop :=
  (∀ str : List Byte, decode { sel := 0x22#8, slots := [.bytes str] } =
    if 0x00#8 ∈ str then .error .nulInString else .ok (.putString str)) ∧
  (∀ c : Byte, decode { sel := 0x21#8, slots := [.u8 c] } = .ok (.putChar c)) ∧
  (∀ (str : List Byte) (s : State), 0x00#8 ∈ str → Running s → fetch s = some { sel := 0x22#8, slots := [.bytes str] } →
    controllerTurn s = .next { s with refused := some .nulInString } ∧
    controllerTurn { s with refused := some .nulInString } = .next { s with refused := some .nulInString })

/-- R73: words written out from the selector map decode to their operations. A sanity check of the decoder. -/
def Obligations.SampleWordsDecode : Prop :=
  decode { sel := 0x01#8, slots := [.u64 0x1f000d00ec#64] } = .ok (.regRead 0x1f000d00ec#64) ∧
  decode { sel := 0x10#8, slots := [] } = .ok .ticks ∧
  decode { sel := 0x22#8, slots := [.bytes [0x48#8, 0x69#8, 0x0A#8]] } = .ok (.putString [0x48#8, 0x69#8, 0x0A#8]) ∧
  decode { sel := 0x30#8, slots := [.u32 29#32, .u32 0x25#32] } = .ok (.gpioSetFunction 29#32 0x25#32)

/-- R78: the rule's five example lines assemble to the words of their operations. The fifth stands here with a comment, and a space
before it: that spaces may stand before a comment is the model's choice (log 16). -/
def Obligations.SyntaxExamplesAssemble : Prop :=
  assemble ["read 0x107d001018", "write 0x107d001000, 0x41", "delay_ms 100", "put_string \"ok\\n\"", "set_function 29, 5 ; led"] =
    .ok [encode (.regRead 0x107d001018#64), encode (.regWrite 0x107d001000#64 0x41#32), encode (.delayMs 100#32),
      encode (.putString [0x6F#8, 0x6B#8, 0x0A#8]), encode (.gpioSetFunction 29#32 5#32)]

/-! ### The step -/

/-- R8, R22: with no environment step due and no mark, a step runs one controller step of the operation whose word stands at
`opidx`, after which the next window of environment steps opens (the window is the model's free value, log 1). -/
def Obligations.StepRunsTheFetchedOperation : Prop :=
  ∀ (s : State) (w : OpWord) (i : Instr), s.env = [] → Running s → s.prog[s.opidx]? = some w → decode w = .ok i →
    step s = match exec i s with
      | .next t => .next { t with env := Config.envMoves t.turns, turns := t.turns + 1 }
      | .fault r => .fault r
      | .refused r => .refused r

/-- R24, R174: while a mark stands the controller takes no step, whatever operation it is asked for, and the environment agents
keep stepping. (That exec answers the mark is the model's form of "takes no step", log 9.) -/
def Obligations.MarksStopOnlyTheController : Prop :=
  (∀ s : State, s.fault ≠ none ∨ s.refused ≠ none → controllerTurn s = .next s) ∧
  (∀ (s : State) (i : Instr) (r : Fault), s.fault = some r → exec i s = .fault r) ∧
  (∀ (s : State) (i : Instr) (r : Refusal), s.fault = none → s.refused = some r → exec i s = .refused r) ∧
  (∀ (s : State) (a : EnvAgent) (rest : List EnvAgent), s.env = a :: rest → step s = .next (envStep a { s with env := rest }))

/-- R22: the controller is done when `opidx = length(prog)`, and then takes no step. -/
def Obligations.DoneControllerTakesNoStep : Prop :=
  ∀ s : State, s.opidx = s.prog.length → controllerTurn s = .next s

/-- R8: every step of the model is a step of the controller or of one enabled environment agent, or changes nothing, up to the
model's own schedule fields. -/
def Obligations.StepIsAnInterleavedAgentStep : Prop :=
  ∀ s t : State, step s = .next t →
    ∃ u, (u = s ∨ ∃ a, AgentStep a s u) ∧ t = { u with env := t.env, turns := t.turns }

/-! ### Invariants and whole-machine rules -/

/-- 10_state.md R40, 70_reset_and_hazards.md R191: the entry state's values that the spec gives, the invariant and the launch
premises at reset. (That the FIFOs and the bank meet the invariant at reset rests on the model's choices of logs 3, 5 and 6.) -/
def Obligations.ResetMeetsTheInvariant : Prop :=
  BlockInv State.reset ∧ LaunchPremises State.reset ∧ Ready State.reset ∧ State.reset.opidx = 0 ∧ State.reset.results = [] ∧
    State.reset.trace = [] ∧ State.reset.lineOut = [] ∧ State.reset.rxLost = 0

/-- R21, R22, R27, R31, R60, R136, R174: from every state that meets the invariant the step answers a next state, which meets it. -/
def Obligations.EveryStepKeepsTheInvariant : Prop := ∀ s : State, BlockInv s → ∃ t, step s = .next t ∧ BlockInv t

/-- R8, R58: the invariant is kept under every interleaving, not only the model's own schedule. -/
def Obligations.EveryAgentStepKeepsTheInvariant : Prop :=
  ∀ (a : Agent) (s t : State), BlockInv s → AgentStep a s t → BlockInv t

/-- R21, R23, R24: no step removes or changes a result, an event or a mark; a step appends at most one of each list. -/
def Obligations.HistoryOnlyGrows : Prop :=
  ∀ s t : State, step s = .next t →
    (t.results = s.results ∨ ∃ r, t.results = s.results ++ [r]) ∧
    (t.trace = s.trace ∨ ∃ e, t.trace = s.trace ++ [e]) ∧
    (∀ r, s.fault = some r → t.fault = some r) ∧
    (∀ r, s.refused = some r → t.refused = some r)

/-- R21, R22: `opidx` changes only by one, when an operation ends and appends its one result, and then the phase is the start. -/
def Obligations.OpidxAdvancesExactlyWithAResult : Prop :=
  ∀ s t : State, step s = .next t →
    (t.opidx = s.opidx ∧ t.results = s.results) ∨
      (t.opidx = s.opidx + 1 ∧ t.phase = .start ∧ ∃ r, t.results = s.results ++ [r])

/-- R5, R22, R61, R177: no step changes the parameters, the program or the interrupt mask; nor the UART configuration, which is the
model's inference (log 13): no rule gives an operation that configures the UART (42_serial.md R130, 70_reset_and_hazards.md R192). -/
def Obligations.ProgramAndParametersNeverChange : Prop :=
  ∀ s t : State, step s = .next t →
    t.params = s.params ∧ t.prog = s.prog ∧ t.interruptsMasked = s.interruptsMasked ∧ t.uartConfigured = s.uartConfigured

/-- The frame of every operation's controller step, but for the control registers (ControlRegistersChangeOnlyAtTheirPin). The counter,
the line output, the host's bytes and the lost count are the environment's (R30, R31, R58); the decoder's mark, the parameters, the
program and the mask are no operation's (R24, R5, R22, R61, R177), nor the UART configuration (the model's inference, log 13), nor the
model's own schedule (`turns`, `env`, log 1). `tx` only gains a byte at its end, `rx` only loses its oldest, at most one event and
one result are appended (R32, R23, R21). -/
def Obligations.ControllerStepFrame : Prop :=
  ∀ (i : Instr) (s t : State), exec i s = .next t →
    (t.ctr = s.ctr ∧ t.lineOut = s.lineOut ∧ t.hostIn = s.hostIn ∧ t.rxLost = s.rxLost ∧ t.refused = s.refused) ∧
    (t.params = s.params ∧ t.prog = s.prog ∧ t.interruptsMasked = s.interruptsMasked ∧
      t.uartConfigured = s.uartConfigured ∧ t.turns = s.turns ∧ t.env = s.env) ∧
    (t.tx = s.tx ∨ ∃ b, t.tx = s.tx ++ [b]) ∧
    (t.rx = s.rx ∨ t.rx = s.rx.tail) ∧
    (t.trace = s.trace ∨ ∃ e, t.trace = s.trace ++ [e]) ∧
    (t.results = s.results ∨ ∃ r, t.results = s.results ++ [r])

/-- R27, R56, R160: a control register changes only by a REG_WRITE at its address or by a function select of its pin. -/
def Obligations.ControlRegistersChangeOnlyAtTheirPin : Prop :=
  ∀ (i : Instr) (s t : State), s.gpioCtrl.wf = true → exec i s = .next t →
    ∀ q, ctrlRead t.gpioCtrl q ≠ ctrlRead s.gpioCtrl q →
      (∃ a v, i = .regWrite a v ∧ a.toNat = 0x1f000d0004 + 8 * q ∧ ctrlRead t.gpioCtrl q = v) ∨
        (∃ pin, heldPin i = some pin ∧ q = pin.toNat)

/-- R56: `tx` gains a byte only by a sending operation or a REG_WRITE of UART_DR; `rx` loses one only by GET_CHAR or a REG_READ of
UART_DR. -/
def Obligations.FifosChangeOnlyByTheirOperations : Prop :=
  ∀ (i : Instr) (s t : State), exec i s = .next t →
    (t.tx ≠ s.tx → (sendBytes i).isSome = true ∨ ∃ v, i = .regWrite 0x107d001000#64 v) ∧
    (t.rx ≠ s.rx → i = .getChar ∨ i = .regRead 0x107d001000#64)

/-- R39, R137: in every step the committed serial output gains exactly the low bytes of the UART_DR writes the step performed. -/
def Obligations.CommittedOutputFollowsTheTrace : Prop :=
  ∀ s t : State, step s = .next t →
    ∃ ev, t.trace = s.trace ++ ev ∧ committed t = committed s ++ sentBytes ev

/-- R171, R174: from a state that meets the invariant, a step that raises a fault changes nothing but the mark (and the model's
schedule), at the start of the operation; and the fault is one the operation in progress can raise, for the reason R171 gives. -/
def Obligations.FaultsArePreciseAndNamed : Prop :=
  ∀ (s t : State) (r : Fault), BlockInv s → s.fault = none → step s = .next t → t.fault = some r →
    t = { s with fault := some r, env := t.env, turns := t.turns } ∧ s.phase = .start ∧
    ∃ i, current s = some i ∧
      ((∃ a, r = .unmapped a ∧ ¬ MappedAddress s.params.numGpioPins a ∧ (i = .regRead a ∨ ∃ v, i = .regWrite a v)) ∨
        (∃ a v, r = .readOnly a ∧ i = .regWrite a v ∧ ReadOnlyAddress s.params.numGpioPins a) ∨
        (∃ v, r = .txOverflow ∧ i = .regWrite 0x107d001000#64 v ∧ s.tx.length = s.params.txDepth) ∨
        (∃ pin, r = .pinRange pin ∧ checkedPin i = some pin ∧ s.params.numGpioPins ≤ pin.toNat))

/-! ### The environment agents -/

/-- R35, R36: the transmit drain, enabled when `tx` is not empty, moves its oldest byte to the line; the receive arrival, enabled when
`host_in` is not empty, moves the host's next byte to `rx`, or counts it lost when `rx` is full. -/
def Obligations.DrainAndArrivalMoveOneByte : Prop :=
  (∀ s : State, envEnabled .drain s = true ↔ s.tx ≠ []) ∧
  (∀ (s : State) (b : Byte) (rest : List Byte), s.tx = b :: rest →
    envStep .drain s = { s with lineOut := s.lineOut ++ [b], tx := rest }) ∧
  (∀ s : State, envEnabled .arrival s = true ↔ s.hostIn ≠ []) ∧
  (∀ (s : State) (b : Byte) (rest : List Byte), s.hostIn = b :: rest →
    envStep .arrival s =
      if s.rx.length < s.params.rxDepth then { s with rx := s.rx ++ [b], hostIn := rest }
      else { s with rxLost := s.rxLost + 1, hostIn := rest })

/-- R30, R34: a window of environment steps advances the counter by its timer steps, modulo 2^64, and no other agent changes it. -/
def Obligations.WindowAdvancesTheCounterByItsTimerSteps : Prop :=
  ∀ (w : List EnvAgent) (s : State), (envRun w s).ctr = s.ctr + BitVec.ofNat 64 (timerSteps w)

/-- R39: no environment agent changes the committed output, whatever the window. -/
def Obligations.EnvironmentKeepsTheCommittedOutput : Prop :=
  ∀ (w : List EnvAgent) (s : State), committed (envRun w s) = committed s

/-! ### Register access -/

/-- R51: the address map, for every pin count: which register each address is. -/
def Obligations.AddressMapIsExact : Prop :=
  ∀ (pins : Nat) (a : Addr),
    (∀ p, regAt pins a = some (.gpioStatus p) ↔ p < pins ∧ a.toNat = 0x1f000d0000 + 8 * p) ∧
    (∀ p, regAt pins a = some (.gpioCtrl p) ↔ p < pins ∧ a.toNat = 0x1f000d0004 + 8 * p) ∧
    (regAt pins a = some .timerLo ↔ a = 0x107c003004#64) ∧
    (regAt pins a = some .timerHi ↔ a = 0x107c003008#64) ∧
    (regAt pins a = some .uartDr ↔ a = 0x107d001000#64) ∧
    (regAt pins a = some .uartFr ↔ a = 0x107d001018#64)

/-- R55: every mapped address is a multiple of 4, and an access at any other address faults UNMAPPED and does nothing else. -/
def Obligations.MisalignedAccessFaultsUnmapped : Prop :=
  (∀ (pins : Nat) (a : Addr), MappedAddress pins a → a.toNat % 4 = 0) ∧
  (∀ (s : State) (a : Addr) (v : Word), Ready s → a.toNat % 4 ≠ 0 →
    exec (.regRead a) s = .next { s with fault := some (.unmapped a) } ∧
    exec (.regWrite a v) s = .next { s with fault := some (.unmapped a) })

/-- R102 (with R100): what REG_READ does at each address: the value, its side effect, its event and its result; and the fault, with no
event, at an unmapped address. -/
def Obligations.RegReadAtEachAddress : Prop :=
  ∀ (s : State) (a : Addr), Ready s →
    (∀ p < s.params.numGpioPins, a.toNat = 0x1f000d0000 + 8 * p →
      ∃ d, exec (.regRead a) s = .next (afterEnd { afterRead s a d with draws := s.draws + 1 } (.u32 d))) ∧
    (∀ p < s.params.numGpioPins, a.toNat = 0x1f000d0004 + 8 * p →
      exec (.regRead a) s = .next (afterEnd (afterRead s a (ctrlRead s.gpioCtrl p)) (.u32 (ctrlRead s.gpioCtrl p)))) ∧
    (a = 0x107c003004#64 →
      exec (.regRead a) s = .next (afterEnd (afterRead s a (s.ctr.extractLsb' 0 32)) (.u32 (s.ctr.extractLsb' 0 32)))) ∧
    (a = 0x107c003008#64 →
      exec (.regRead a) s = .next (afterEnd (afterRead s a (s.ctr.extractLsb' 32 32)) (.u32 (s.ctr.extractLsb' 32 32)))) ∧
    (a = 0x107d001000#64 → s.rx = [] →
      ∃ d, exec (.regRead a) s = .next (afterEnd { afterRead s a d with draws := s.draws + 1 } (.u32 d))) ∧
    (∀ b rest, a = 0x107d001000#64 → s.rx = b :: rest →
      ∃ d : Word, d.extractLsb' 0 8 = b ∧
        exec (.regRead a) s = .next (afterEnd { afterRead s a d with rx := rest, draws := s.draws + 1 } (.u32 d))) ∧
    (a = 0x107d001018#64 →
      ∃ f, IsFlagValue s f ∧ exec (.regRead a) s = .next (afterEnd { afterRead s a f with draws := s.draws + 1 } (.u32 f))) ∧
    (¬ MappedAddress s.params.numGpioPins a → exec (.regRead a) s = .next { s with fault := some (.unmapped a) })

/-- R103 (with R101; R27): what REG_WRITE does at each address: the register's change and the event, or the fault, with no event. A
control register then reads as the value written, every other as before. -/
def Obligations.RegWriteAtEachAddress : Prop :=
  ∀ (s : State) (a : Addr) (v : Word), Ready s →
    (∀ p < s.params.numGpioPins, a.toNat = 0x1f000d0004 + 8 * p →
      exec (.regWrite a v) s = .next (afterEnd { afterWrite s a v with gpioCtrl := ctrlWrite s.gpioCtrl p v } .unit)) ∧
    (∀ p < s.params.numGpioPins, a.toNat = 0x1f000d0004 + 8 * p → s.gpioCtrl.wf = true →
      ∃ t, exec (.regWrite a v) s = .next t ∧ ctrlRead t.gpioCtrl p = v ∧
        ∀ q, q ≠ p → ctrlRead t.gpioCtrl q = ctrlRead s.gpioCtrl q) ∧
    (a = 0x107d001000#64 →
      exec (.regWrite a v) s = .next
        (if s.tx.length = s.params.txDepth then { s with fault := some .txOverflow }
        else afterEnd { afterWrite s a v with tx := s.tx ++ [v.extractLsb' 0 8] } .unit)) ∧
    (ReadOnlyAddress s.params.numGpioPins a → exec (.regWrite a v) s = .next { s with fault := some (.readOnly a) }) ∧
    (¬ MappedAddress s.params.numGpioPins a → exec (.regWrite a v) s = .next { s with fault := some (.unmapped a) })

/-! ### Tick timer -/

/-- R110: TICKS reads TIMER_HI, TIMER_LO, TIMER_HI, ends with the composed value when the two high halves agree, else starts again. -/
def Obligations.TicksReadsHighLowHigh : Prop :=
  decode { sel := 0x10#8, slots := [] } = .ok .ticks ∧ StartsTicks .ticks .ticks ∧ TicksSteps .ticks .ticks fun d t => afterEnd t (.u64 d)

/-- R113: UPTIME_SECONDS performs a TICKS and ends with the truncated quotient by 1,000,000, reduced to 32 bits. -/
def Obligations.UptimeDividesTheTicks : Prop :=
  decode { sel := 0x13#8, slots := [] } = .ok .uptimeSeconds ∧ StartsTicks .uptimeSeconds .ticks ∧
    TicksSteps .uptimeSeconds .ticks fun d t => afterEnd t (.u32 (BitVec.ofNat 32 (d.toNat / 1000000)))

/-- R111: DELAY_US samples `start`, then `now` until `(now - start) mod 2^64 >= n`. -/
def Obligations.DelayUsSpinsUntilElapsed : Prop :=
  ∀ n : Word, decode { sel := 0x11#8, slots := [.u32 n] } = .ok (.delayUs n) ∧
    StartsTicks (.delayUs n) (fun q => .delay (.first q)) ∧
    DelaySteps (.delayUs n) n .delay fun t => afterEnd t .unit

/-- R112, R198: DELAY_MS is a DELAY_US of `n * 1000` modulo `2^32`, which is `n * 1000` up to 4,294,967 and 704 for the next. -/
def Obligations.DelayMsMultipliesModulo : Prop :=
  (∀ n : Word, decode { sel := 0x12#8, slots := [.u32 n] } = .ok (.delayMs n) ∧
    StartsTicks (.delayMs n) (fun q => .delay (.first q)) ∧
    DelaySteps (.delayMs n) (BitVec.ofNat 32 (n.toNat * 1000)) .delay fun t => afterEnd t .unit) ∧
  (∀ n : Word, n.toNat ≤ 4294967 → (usOf n).toNat = n.toNat * 1000) ∧ usOf 4294968#32 = 704#32

/-- R114: under any interleaving with fewer than 2^32 timer steps between the first and the third read, an iteration of TICKS that
returns, returns exactly the counter at its TIMER_LO read. -/
def Obligations.TicksReturnsTheCounterAtItsLowRead : Prop :=
  ∀ (s t : State) (w1 w2 w3 : List EnvAgent), Running s → (s.phase = .start ∨ s.phase = .ticks .hi1) →
    timerSteps w2 + timerSteps w3 < 2 ^ 32 → runOp .ticks [w1, w2, w3] s = .next t → t.opidx = s.opidx + 1 →
    t.results = s.results ++ [.u64 (s.ctr + BitVec.ofNat 64 (timerSteps (w1 ++ w2)))]

/-- R116: with fewer than 2^32 timer steps during six controller steps, TICKS ends within two iterations. -/
def Obligations.TicksEndsWithinTwoIterations : Prop :=
  ∀ (s : State) (ws : List (List EnvAgent)), Ready s → ws.length = 6 → (ws.tail.map timerSteps).sum < 2 ^ 32 →
    ∃ t d, runOp .ticks ws s = .next t ∧ t.opidx = s.opidx + 1 ∧ t.results = s.results ++ [.u64 d] ∧ Running t

/-- R117: a DELAY_US that ends, under any interleaving in which every TICKS of it is exact (R114), has let at least `n` timer steps pass
between the TIMER_LO read of its first TICKS and that of its last. Every access of the operation has its window before it, so the
windows between the accesses `3 * j + 1` and `3 * k + 1` are those with the numbers `3 * j + 2` to `3 * k + 1`; `j` is the first
iteration that returns (the first TICKS, after its retries) and `k` the last iteration of all. -/
def Obligations.DelayWaitsAtLeastItsTicks : Prop :=
  ∀ (s t : State) (n : Word) (ws : List (List EnvAgent)), Ready s →
    (∀ k, timerSteps (ws.getD k []) + timerSteps (ws.getD (k + 1) []) < 2 ^ 32) →
    runOp (.delayUs n) ws s = .next t → t.opidx = s.opidx + 1 →
    ∃ ev j k, t.trace = s.trace ++ ev ∧ ev.length = 3 * (k + 1) ∧ j < k ∧
      IterationReturns ev j ∧ (∀ i < j, ¬ IterationReturns ev i) ∧ IterationReturns ev k ∧
      n.toNat ≤ (((ws.take (3 * k + 2)).drop (3 * j + 2)).map timerSteps).sum

/-- R111's example, for every state: with no timer step but `m >= n` between the first two TICKS, DELAY_US ends after six reads. -/
def Obligations.DelayEndsAfterSixReads : Prop :=
  ∀ (s : State) (n : Word) (m : Nat), Ready s → n.toNat ≤ m → m < 2 ^ 64 →
    ∃ t, runOp (.delayUs n) [[], [], [], List.replicate m .timer, [], []] s = .next t ∧
      t.opidx = s.opidx + 1 ∧ t.results = s.results ++ [.unit] ∧ t.trace.length = s.trace.length + 6

/-- R110, R113, R111: undisturbed by the environment, TICKS and UPTIME_SECONDS end after three reads with the counter's value, and
DELAY_US of 0 after six. -/
def Obligations.UndisturbedTimerOperations : Prop :=
  ∀ s : State, Ready s →
    (∃ t, runOp .ticks [[], [], []] s = .next t ∧ t = afterEnd { s with trace := t.trace } (.u64 s.ctr) ∧
      t.trace = s.trace ++ [.rd 0x107c003008#64 (s.ctr.extractLsb' 32 32), .rd 0x107c003004#64 (s.ctr.extractLsb' 0 32),
        .rd 0x107c003008#64 (s.ctr.extractLsb' 32 32)]) ∧
    (∃ t, runOp .uptimeSeconds [[], [], []] s = .next t ∧
      t = afterEnd { s with trace := t.trace } (.u32 (BitVec.ofNat 32 (s.ctr.toNat / 1000000))) ∧
      t.trace.length = s.trace.length + 3) ∧
    (∃ t, runOp (.delayUs 0#32) [[], [], [], [], [], []] s = .next t ∧ t = afterEnd { s with trace := t.trace } .unit ∧
      t.trace.length = s.trace.length + 6)

/-- R37, R116, R117: in every infinite execution under CTRL_FAIR, TIMER_FAIR and TIMER_SLOW, a DELAY_US that is about to start ends. -/
def Obligations.DelayEndsUnderFairness : Prop :=
  ∀ (σ : Nat → State) (who : Nat → Agent) (k : Nat) (n : Word),
    IsExecution σ who → CtrlFair σ who → TimerFair who → TimerSlow who → Ready (σ k) → current (σ k) = some (.delayUs n) →
    ∃ m, k < m ∧ (σ m).opidx = (σ k).opidx + 1

/-! ### Serial channel -/

/-- R130: `init` performs no access; it appends Unit and advances. -/
def Obligations.UartInitPerformsNoAccess : Prop :=
  decode { sel := 0x20#8, slots := [] } = .ok .uartInit ∧ ∀ s : State, Ready s → exec .uartInit s = .next (afterEnd s .unit)

/-- R131, R132, R134: the steps of the sending operations: PUT_CHAR sends its character, a line feed after a carriage return;
PUT_STRING each of its bytes so; PUT_HEX "0x" and eight digits. Each byte is gated by TXFF. -/
def Obligations.SendingOperationsPollThenWrite : Prop :=
  (∀ c : Byte, SendSteps (.putChar c) (if c = 0x0A#8 then [0x0D#8, 0x0A#8] else [c])) ∧
  (∀ str : List Byte, SendSteps (.putString str) (str.flatMap fun c => if c = 0x0A#8 then [0x0D#8, 0x0A#8] else [c])) ∧
  (∀ n : Word, SendSteps (.putHex n)
    (0x30#8 :: 0x78#8 :: [28, 24, 20, 16, 12, 8, 4, 0].map fun k => hexDigit (BitVec.ofNat 4 (n.toNat >>> k))))

/-- R131, R136, R137: under any interleaving a sending operation never faults, hands over a prefix of its bytes while it runs, and exactly
its bytes when it has ended. -/
def Obligations.SendingOperationsHandOverExactlyTheirBytes : Prop :=
  ∀ (i : Instr) (s : State) (ws : List (List EnvAgent)), (sendBytes i).isSome = true → Ready s →
    s.tx.length ≤ s.params.txDepth →
    ∃ t, runOp i ws s = .next t ∧ Running t ∧
      ((t.opidx = s.opidx ∧ t.results = s.results ∧ ∃ sent, sent <+: opBytes i ∧ committed t = committed s ++ sent) ∨
        (t.opidx = s.opidx + 1 ∧ t.results = s.results ++ [.unit] ∧ committed t = committed s ++ opBytes i))

/-- R196 (and the source's W6): with room for both bytes and no environment step, a line feed is two separately gated writes, the carriage
return fully sent before the flag read for the line feed. -/
def Obligations.LineFeedIsTwoGatedWrites : Prop :=
  ∀ s : State, Ready s → s.tx.length + 2 ≤ s.params.txDepth →
    ∃ t f1 f2, runOp (.putChar 0x0A#8) [[], [], [], []] s = .next t ∧ f1.getLsbD 5 = false ∧ f2.getLsbD 5 = false ∧
      t.trace = s.trace ++ [.rd 0x107d001018#64 f1, .wr 0x107d001000#64 0x0D#32, .rd 0x107d001018#64 f2,
        .wr 0x107d001000#64 0x0A#32] ∧
      t.tx = s.tx ++ [0x0D#8, 0x0A#8] ∧ t.results = s.results ++ [.unit] ∧ t.opidx = s.opidx + 1

/-- R135: the hexadecimal digits. -/
def Obligations.HexDigitsAreUppercaseAscii : Prop :=
  (∀ d : BitVec 4, d.toNat ≤ 9 → (hexDigit d).toNat = 0x30 + d.toNat) ∧
  (∀ d : BitVec 4, 10 ≤ d.toNat → (hexDigit d).toNat = 0x41 + (d.toNat - 10))

/-- R134: the text of PUT_HEX is always ten bytes, none a line feed, and its eight digits, the most significant first, denote `n`. -/
def Obligations.HexTextDenotesItsNumber : Prop :=
  ∀ n : Word, (hexChars n).length = 10 ∧ 0x0A#8 ∉ hexChars n ∧ (hexChars n).take 2 = [0x30#8, 0x78#8] ∧
    ((hexChars n).drop 2).foldl (fun acc c => 16 * acc + if c.toNat ≤ 0x39 then c.toNat - 0x30 else c.toNat - 0x41 + 10) 0 =
      n.toNat

/-- R133: the steps of GET_CHAR: UART_FR until RXFE = 0, then UART_DR, whose low byte is the result. -/
def Obligations.GetCharPollsThenReads : Prop :=
  ∀ s : State, Running s →
    (s.phase = .start → ∃ f, IsFlagValue s f ∧ exec .getChar s = .next
      { afterRead s 0x107d001018#64 f with draws := s.draws + 1, phase := if s.rx.isEmpty then .start else .recv }) ∧
    (∀ b rest, s.phase = .recv → s.rx = b :: rest → ∃ v : Word, v.extractLsb' 0 8 = b ∧
      exec .getChar s = .next (afterEnd { afterRead s 0x107d001000#64 v with rx := rest, draws := s.draws + 1 } (.u8 b)))

/-- R133, R36: under any interleaving the byte GET_CHAR returns is the oldest byte of `rx`, or, where `rx` was empty, the first byte the
host sends; it never faults. -/
def Obligations.GetCharReturnsTheOldestByte : Prop :=
  ∀ (s : State) (ws : List (List EnvAgent)), Ready s → 1 ≤ s.params.rxDepth →
    ∃ t, runOp .getChar ws s = .next t ∧ Running t ∧
      ((t.opidx = s.opidx ∧ t.results = s.results) ∨
        (t.opidx = s.opidx + 1 ∧ ∃ b, (s.rx ++ s.hostIn).head? = some b ∧ t.results = s.results ++ [.u8 b]))

/-- R138, R175: the hangs stay infinite executions, whatever the number of controller steps, with no mark. With no timer step a DELAY_US of
`n > 0`, a DELAY_MS whose product is not 0 and a BLINK_ACTIVITY_LED whose pin is admitted never end; with no drain step a PUT_CHAR,
PUT_STRING or PUT_HEX with more bytes to send than the FIFO has room for never does; with nothing to arrive a GET_CHAR on an empty one never does;
and TICKS, whose timer is not slow (R116), can be made to retry for any number of controller steps. -/
def Obligations.HangsAreNeverEnded : Prop :=
  (∀ (s : State) (i : Instr) (ws : List (List EnvAgent)), Ready s →
    ((∃ n : Word, i = .delayUs n ∧ 0 < n.toNat) ∨ (∃ n : Word, i = .delayMs n ∧ 0 < n.toNat * 1000 % 2 ^ 32) ∨
      (i = .blinkActivityLed ∧ 29 < s.params.numGpioPins)) →
    (∀ w ∈ ws, .timer ∉ w) →
    ∃ t, runOp i ws s = .next t ∧ t.opidx = s.opidx ∧ t.results = s.results ∧ Running t) ∧
  (∀ (s : State) (i : Instr) (ws : List (List EnvAgent)), Ready s → (sendBytes i).isSome = true →
    s.tx.length ≤ s.params.txDepth → s.params.txDepth < s.tx.length + (opBytes i).length → (∀ w ∈ ws, .drain ∉ w) →
    ∃ t, runOp i ws s = .next t ∧ t.opidx = s.opidx ∧ t.results = s.results ∧ Running t ∧
      ∃ sent, sent <+: opBytes i ∧ t.tx = s.tx ++ sent ∧ t.tx.length ≤ s.params.txDepth) ∧
  (∀ (s : State) (ws : List (List EnvAgent)), Ready s → s.rx = [] → s.hostIn = [] →
    ∃ t, runOp .getChar ws s = .next t ∧ t.opidx = s.opidx ∧ t.results = s.results ∧ Running t) ∧
  (∀ (s : State) (len : Nat), Ready s →
    ∃ ws t, ws.length = len ∧ runOp .ticks ws s = .next t ∧ t.opidx = s.opidx ∧ t.results = s.results ∧ Running t)

/-- R37, R138: in every infinite execution under CTRL_FAIR and TX_DRAIN_FAIR, a sending operation about to start ends. -/
def Obligations.SendingEndsUnderFairness : Prop :=
  ∀ (σ : Nat → State) (who : Nat → Agent) (k : Nat) (i : Instr),
    IsExecution σ who → CtrlFair σ who → TxDrainFair σ who → BlockInv (σ k) → Ready (σ k) → 1 ≤ (σ k).params.txDepth →
    current (σ k) = some i → (sendBytes i).isSome = true →
    ∃ m, k < m ∧ (σ m).opidx = (σ k).opidx + 1

/-! ### GPIO -/

/-- R150, R151, R152, R155, R156: the function-select operations read the pin's control register and write it back with only FUNCSEL
replaced; set_output, set_input, led_on and led_off with the code 5; the LED operations end UNSUPPORTED. -/
def Obligations.FunctionSelectReadsThenWrites : Prop :=
  (∀ pin f : Word, SelectSteps (.gpioSetFunction pin f) pin f .start .rmw fun t => afterEnd t .unit) ∧
  (∀ pin : Word, SelectSteps (.gpioSetOutput pin) pin 5#32 .start .rmw fun t => afterEnd t .unit) ∧
  (∀ pin : Word, SelectSteps (.gpioSetInput pin) pin 5#32 .start .rmw fun t => afterEnd t .unit) ∧
  (∀ pin : Word, SelectSteps (.ledOn pin) pin 5#32 .start .rmw fun t => afterEnd t .unsupported) ∧
  (∀ pin : Word, SelectSteps (.ledOff pin) pin 5#32 .start .rmw fun t => afterEnd t .unsupported)

/-- R160: under any interleaving GPIO_SET_FUNCTION of an admitted pin ends after its two accesses with bits 31..5 of the control register as
they were and bits 4..0 those of `f`; no other control register changes. -/
def Obligations.FunctionSelectPreservesTheOtherBits : Prop :=
  ∀ (s : State) (pin f : Word) (w1 w2 : List EnvAgent), Ready s → s.gpioCtrl.wf = true → pin.toNat < s.params.numGpioPins →
    ∃ t, runOp (.gpioSetFunction pin f) [w1, w2] s = .next t ∧ t.opidx = s.opidx + 1 ∧ t.results = s.results ++ [.unit] ∧
      (ctrlRead t.gpioCtrl pin.toNat).extractLsb' 5 27 = (ctrlRead s.gpioCtrl pin.toNat).extractLsb' 5 27 ∧
      (ctrlRead t.gpioCtrl pin.toNat).extractLsb' 0 5 = f.extractLsb' 0 5 ∧
      ∀ q, q ≠ pin.toNat → ctrlRead t.gpioCtrl q = ctrlRead s.gpioCtrl q

/-- R161: set_output and set_input do the same in every state. -/
def Obligations.OutputAndInputAreTheSame : Prop :=
  ∀ (pin : Word) (s : State), exec (.gpioSetOutput pin) s = exec (.gpioSetInput pin) s

/-- R158: every GPIO operation whose pin is not below NUM_GPIO_PINS faults PIN_RANGE, for BLINK_ACTIVITY_LED pin 29, and does nothing else. -/
def Obligations.PinOutOfRangeFaults : Prop :=
  ∀ (s : State) (pin : Word) (i : Instr), Ready s → s.params.numGpioPins ≤ pin.toNat →
    ((∃ f, i = .gpioSetFunction pin f) ∨ i = .gpioSetOutput pin ∨ i = .gpioSetInput pin ∨ (∃ v, i = .gpioSet pin v) ∨
      i = .gpioGet pin ∨ i = .ledOn pin ∨ i = .ledOff pin ∨ (i = .blinkActivityLed ∧ pin = 29#32)) →
    exec i s = .next { s with fault := some (.pinRange pin) }

/-- R153, R154: GPIO_SET, whatever the level, and GPIO_GET of an admitted pin end UNSUPPORTED with no access; of another they fault. -/
def Obligations.PinLevelOperationsAreUnsupported : Prop :=
  (∀ (pin : Word) (v : Bool), decode { sel := 0x33#8, slots := [.u32 pin, .bool v] } = .ok (.gpioSet pin v)) ∧
  (∀ pin : Word, decode { sel := 0x34#8, slots := [.u32 pin] } = .ok (.gpioGet pin)) ∧
  ∀ (s : State) (pin : Word) (i : Instr), Ready s → (∃ v, i = .gpioSet pin v) ∨ i = .gpioGet pin →
    exec i s = .next
      (if pin.toNat < s.params.numGpioPins then afterEnd s .unsupported else { s with fault := some (.pinRange pin) })

/-- R157: BLINK_ACTIVITY_LED is LED_ON of pin 29, DELAY_MS of 100, LED_OFF of pin 29, DELAY_MS of 100, then UNSUPPORTED. -/
def Obligations.BlinkRunsItsFourCalls : Prop :=
  SelectSteps .blinkActivityLed 29#32 5#32 .start (fun v => .blink (.ledOn (some v)))
    (fun t => { t with phase := .blink (.delayOn (.first .hi1)) }) ∧
  DelaySteps .blinkActivityLed 100000#32 (fun d => .blink (.delayOn d)) (fun t => { t with phase := .blink (.ledOff none) }) ∧
  SelectSteps .blinkActivityLed 29#32 5#32 (.blink (.ledOff none)) (fun v => .blink (.ledOff (some v)))
    (fun t => { t with phase := .blink (.delayOff (.first .hi1)) }) ∧
  DelaySteps .blinkActivityLed 100000#32 (fun d => .blink (.delayOff d)) (fun t => afterEnd t .unsupported)
end

