-- ==== Sys2Proof/Laws/Decode.lean ====
section
/-! SUPPORT. The parts of the decoder: the selector map is one to one, and an operation is rebuilt from its own slots only. -/

namespace Sys2Proof

/-- The selector of an operation names it (R73). -/
theorem opOf_sel (op : Op) : opOf op.sel = some op := by cases op <;> rfl

/-- A selector that names an operation is its selector (R73). -/
theorem sel_of_opOf {b : BitVec 8} {op : Op} (h : opOf b = some op) : op.sel = b := by
  simpa using List.find?_some h

/-- An operation is rebuilt from its own slots. -/
theorem buildInstr_slots (i : Instr) : buildInstr i.op i.slots = some i := by cases i <;> rfl

/-- What is rebuilt from slots is of the operation asked for and has those slots. -/
theorem slots_of_buildInstr {op : Op} {sl : List Slot} {i : Instr} (h : buildInstr op sl = some i) :
    i.op = op ∧ i.slots = sl := by
  cases op
  all_goals
    simp only [buildInstr, takeF0, takeFA, takeFAV, takeU32, takeFC, takeFS, takeFPF, takeFPB] at h
    split at h
    · cases h; exact ⟨rfl, rfl⟩
    · cases h

end Sys2Proof
end

