-- ==== Sys2Proof/Laws/Memory.lean ====
section
/-! SUPPORT. The GPIO_CTRL bank: a read after a write, and the canonical form every write keeps. -/

namespace Sys2Proof.Machine

/-- Every pin of a bank is above `p`. -/
def PinsAbove (p : Nat) (m : Memory) : Prop := ∀ c ∈ m, p < c.1

/-- The canonical form of a bank with a first entry. -/
theorem wf_cons_iff {p : Nat} {v : Word} {m : Memory} :
    Memory.wf ((p, v) :: m) = true ↔ v ≠ unlistedCtrl ∧ PinsAbove p m ∧ Memory.wf m = true := by
  simp [Memory.wf, PinsAbove, and_assoc]

/-- A pin below every entry reads as an unlisted pin. -/
theorem ctrlRead_of_pinsAbove {m : Memory} {p : Nat} (h : PinsAbove p m) : ctrlRead m p = unlistedCtrl := by
  induction m with
  | nil => rfl
  | cons c m ih =>
    obtain ⟨q, w⟩ := c
    have hq : p < q := h (q, w) (by simp)
    have hm : PinsAbove p m := fun c hc => h c (by simp [hc])
    simp [ctrlRead, Nat.ne_of_lt hq, ih hm]

@[simp] theorem ctrlRead_ctrlCons (p q : Nat) (v : Word) (m : Memory) (h : q = p → ctrlRead m p = unlistedCtrl) :
    ctrlRead (ctrlCons p v m) q = if q = p then v else ctrlRead m q := by
  unfold ctrlCons
  split
  · rename_i hv
    split
    · rename_i hq; subst hq; rw [h rfl, hv]
    · rfl
  · rfl

/-- A read after a write: the written pin holds the value, every other pin what it held. -/
theorem ctrlRead_ctrlWrite {m : Memory} (hm : m.wf = true) (p q : Nat) (v : Word) :
    ctrlRead (ctrlWrite m p v) q = if q = p then v else ctrlRead m q := by
  induction m with
  | nil => exact ctrlRead_ctrlCons p q v [] fun _ => rfl
  | cons c m ih =>
    obtain ⟨r, w⟩ := c
    obtain ⟨-, habove, hwf⟩ := wf_cons_iff.1 hm
    unfold ctrlWrite
    by_cases h1 : p < r
    · rw [if_pos h1]
      refine ctrlRead_ctrlCons p q v _ fun _ => ctrlRead_of_pinsAbove ?_
      intro c hc
      rcases List.mem_cons.1 hc with rfl | hc
      · exact h1
      · exact lt_trans h1 (habove c hc)
    · rw [if_neg h1]
      by_cases h2 : p = r
      · subst h2
        rw [if_pos rfl, ctrlRead_ctrlCons p q v m fun _ => ctrlRead_of_pinsAbove habove]
        by_cases hq : q = p
        · simp [hq]
        · simp [hq, ctrlRead]
      · rw [if_neg h2]
        simp only [ctrlRead, ih hwf]
        by_cases hq : q = r
        · subst hq; simp [Ne.symm h2]
        · simp [hq]

/-- Every entry of a written bank is the written pin's or was there before. -/
theorem mem_ctrlWrite {m : Memory} {p : Nat} {v : Word} {c : Nat × Word} (h : c ∈ ctrlWrite m p v) :
    c.1 = p ∨ c ∈ m := by
  induction m with
  | nil =>
    simp only [ctrlWrite, ctrlCons] at h
    split at h <;> simp_all
  | cons d m ih =>
    obtain ⟨r, w⟩ := d
    simp only [ctrlWrite, ctrlCons] at h
    split at h
    · split at h
      · exact .inr h
      · rcases List.mem_cons.1 h with rfl | h
        · exact .inl rfl
        · exact .inr h
    · split at h
      · split at h
        · exact .inr (List.mem_cons_of_mem _ h)
        · rcases List.mem_cons.1 h with rfl | h
          · exact .inl rfl
          · exact .inr (List.mem_cons_of_mem _ h)
      · rcases List.mem_cons.1 h with rfl | h
        · exact .inr List.mem_cons_self
        · exact (ih h).imp_right (List.mem_cons_of_mem _)

theorem wf_ctrlCons {p : Nat} {v : Word} {m : Memory} (hm : m.wf = true) (h : PinsAbove p m) :
    (ctrlCons p v m).wf = true := by
  unfold ctrlCons
  split
  · exact hm
  · exact wf_cons_iff.2 ⟨‹_›, h, hm⟩

/-- A write keeps the canonical form. -/
theorem ctrlWrite_wf {m : Memory} (hm : m.wf = true) (p : Nat) (v : Word) : (ctrlWrite m p v).wf = true := by
  induction m with
  | nil => exact wf_ctrlCons rfl fun c hc => by simp at hc
  | cons d m ih =>
    obtain ⟨r, w⟩ := d
    obtain ⟨hw, habove, hwf⟩ := wf_cons_iff.1 hm
    unfold ctrlWrite
    split
    · rename_i h1
      refine wf_ctrlCons hm fun c hc => ?_
      rcases List.mem_cons.1 hc with rfl | hc
      · exact h1
      · exact lt_trans h1 (habove c hc)
    · split
      · rename_i h2; subst h2
        exact wf_ctrlCons hwf habove
      · rename_i h1 h2
        refine wf_cons_iff.2 ⟨hw, fun c hc => ?_, ih hwf⟩
        rcases mem_ctrlWrite hc with h | h
        · omega
        · exact habove c h

/-- A write of an admitted pin keeps every listed pin below the pin count. -/
theorem ctrlWrite_pins {m : Memory} {n p : Nat} (v : Word) (hm : m.all (fun c => c.1 < n) = true) (hp : p < n) :
    (ctrlWrite m p v).all (fun c => c.1 < n) = true := by
  simp only [List.all_eq_true, decide_eq_true_eq] at hm ⊢
  intro c hc
  rcases mem_ctrlWrite hc with h | h
  · omega
  · exact hm c h

/-- The bank at reset has the canonical form. -/
theorem reset_bank_wf : State.reset.gpioCtrl.wf = true := rfl

end Sys2Proof.Machine
end

