-- ==== Sys2Proof/Laws/Platform.lean ====
section
/-! SUPPORT. The address map at the addresses operations use, and the flag bits of a flag-register value. -/

namespace Sys2Proof.Machine

@[simp] theorem regAt_timerLoAddr (n : Nat) : regAt n timerLoAddr = some .timerLo := by simp [regAt]

@[simp] theorem regAt_timerHiAddr (n : Nat) : regAt n timerHiAddr = some .timerHi := by
  simp [regAt, timerHiAddr, timerLoAddr, timerBase, timerHiOff, timerLoOff]

@[simp] theorem regAt_uartDrAddr (n : Nat) : regAt n uartDrAddr = some .uartDr := by
  simp [regAt, timerHiAddr, timerLoAddr, timerBase, timerHiOff, timerLoOff, uartDrAddr, uartBase, uartDrOff]

@[simp] theorem regAt_uartFrAddr (n : Nat) : regAt n uartFrAddr = some .uartFr := by
  simp [regAt, timerHiAddr, timerLoAddr, timerBase, timerHiOff, timerLoOff, uartDrAddr, uartBase, uartDrOff, uartFrAddr,
    uartFrOff]

/-- Above the timer and the UART only the GPIO controller is mapped. -/
theorem regAt_gpio {n off : Nat} {a : Addr} (h : a.toNat = gpioBase + off) : regAt n a = gpioRegAt n off := by
  have hne : ∀ b : Addr, b.toNat < gpioBase → a ≠ b := by
    rintro b hb rfl
    omega
  unfold regAt
  rw [if_neg (hne _ (by decide)), if_neg (hne _ (by decide)), if_neg (hne _ (by decide)), if_neg (hne _ (by decide)),
    if_pos (by omega), h, Nat.add_sub_cancel_left]

theorem ctrlAddr_toNat (pin : Word) : (ctrlAddr pin).toNat = gpioBase + (8 * pin.toNat + 4) := by
  have h := pin.isLt
  simp only [ctrlAddr, BitVec.toNat_ofNat, gpioBase, gpioStride, gpioCtrlOff]
  omega

theorem statusAddr_toNat (pin : Word) : (statusAddr pin).toNat = gpioBase + 8 * pin.toNat := by
  have h := pin.isLt
  simp only [statusAddr, BitVec.toNat_ofNat, gpioBase, gpioStride, gpioStatusOff]
  omega

/-- The control register of an admitted pin is mapped (R51). -/
theorem regAt_ctrlAddr {n : Nat} {pin : Word} (h : pin.toNat < n) :
    regAt n (ctrlAddr pin) = some (.gpioCtrl pin.toNat) := by
  rw [regAt_gpio (ctrlAddr_toNat pin)]
  have h1 : (8 * pin.toNat + 4) / 8 = pin.toNat := by omega
  have h2 : (8 * pin.toNat + 4) % 8 = 4 := by omega
  simp [gpioRegAt, gpioStride, gpioStatusOff, gpioCtrlOff, h1, h2, h]

/-- The control register of a pin that is not admitted is not mapped (R51). -/
theorem regAt_ctrlAddr_none {n : Nat} {pin : Word} (h : ¬ pin.toNat < n) : regAt n (ctrlAddr pin) = none := by
  rw [regAt_gpio (ctrlAddr_toNat pin)]
  have h1 : (8 * pin.toNat + 4) / 8 = pin.toNat := by omega
  simp [gpioRegAt, gpioStride, h1, h]

/-- The status register of an admitted pin is mapped (R51). -/
theorem regAt_statusAddr {n : Nat} {pin : Word} (h : pin.toNat < n) :
    regAt n (statusAddr pin) = some (.gpioStatus pin.toNat) := by
  rw [regAt_gpio (statusAddr_toNat pin)]
  simp [gpioRegAt, gpioStride, gpioStatusOff, h]

/-- A control register of the map is an admitted pin's. -/
theorem regAt_gpioCtrl_lt {n p : Nat} {a : Addr} (h : regAt n a = some (.gpioCtrl p)) : p < n := by
  unfold regAt gpioRegAt at h
  split_ifs at h <;> simp_all

/-- TXFF as read from the flag register is the flag (R33), whatever is drawn for the other bits. -/
@[simp] theorem txffOf_frWord (d : Word) (rxfe txff : Bool) : txffOf (frWord d rxfe txff) = txff := by
  simp only [txffOf, frWord, frTxffBit, BitVec.getLsbD_append]
  cases txff <;> simp

/-- RXFE as read from the flag register is the flag (R33), whatever is drawn for the other bits. -/
@[simp] theorem rxfeOf_frWord (d : Word) (rxfe txff : Bool) : rxfeOf (frWord d rxfe txff) = rxfe := by
  simp only [rxfeOf, frWord, frRxfeBit, BitVec.getLsbD_append]
  cases rxfe <;> simp

/-- The byte a data-register read removes is its low byte (R32). -/
@[simp] theorem lowByte_drWord (d : Word) (b : Byte) : lowByte (drWord d b) = b := by
  ext i hi
  simp only [lowByte, drWord, BitVec.getElem_extractLsb', BitVec.getLsbD_append, Nat.zero_add, if_pos hi]
  exact BitVec.getLsbD_eq_getElem hi

/-- The byte sent for a zero-extended byte is that byte. -/
@[simp] theorem lowByte_byteWord (b : Byte) : lowByte (byteWord b) = b := by
  ext i hi
  have h32 : i < 32 := by omega
  simp [lowByte, byteWord, h32, BitVec.getLsbD_eq_getElem hi]

end Sys2Proof.Machine
end

