-- ==== Sys2Proof/Laws/State.lean ====
section
/-! SUPPORT. The small lemmas of the state updates: what each update does to each field. Also the frame of the environment
agents. -/

namespace Sys2Proof.Machine

/-! ### `setPhase` -/

@[simp] theorem State.setPhase_params (s : State) (p : Phase) : (s.setPhase p).params = s.params := rfl
@[simp] theorem State.setPhase_interruptsMasked (s : State) (p : Phase) : (s.setPhase p).interruptsMasked = s.interruptsMasked := rfl
@[simp] theorem State.setPhase_uartConfigured (s : State) (p : Phase) : (s.setPhase p).uartConfigured = s.uartConfigured := rfl
@[simp] theorem State.setPhase_prog (s : State) (p : Phase) : (s.setPhase p).prog = s.prog := rfl
@[simp] theorem State.setPhase_opidx (s : State) (p : Phase) : (s.setPhase p).opidx = s.opidx := rfl
@[simp] theorem State.setPhase_phase (s : State) (p : Phase) : (s.setPhase p).phase = p := rfl
@[simp] theorem State.setPhase_results (s : State) (p : Phase) : (s.setPhase p).results = s.results := rfl
@[simp] theorem State.setPhase_trace (s : State) (p : Phase) : (s.setPhase p).trace = s.trace := rfl
@[simp] theorem State.setPhase_fault (s : State) (p : Phase) : (s.setPhase p).fault = s.fault := rfl
@[simp] theorem State.setPhase_refused (s : State) (p : Phase) : (s.setPhase p).refused = s.refused := rfl
@[simp] theorem State.setPhase_ctr (s : State) (p : Phase) : (s.setPhase p).ctr = s.ctr := rfl
@[simp] theorem State.setPhase_gpioCtrl (s : State) (p : Phase) : (s.setPhase p).gpioCtrl = s.gpioCtrl := rfl
@[simp] theorem State.setPhase_tx (s : State) (p : Phase) : (s.setPhase p).tx = s.tx := rfl
@[simp] theorem State.setPhase_rx (s : State) (p : Phase) : (s.setPhase p).rx = s.rx := rfl
@[simp] theorem State.setPhase_lineOut (s : State) (p : Phase) : (s.setPhase p).lineOut = s.lineOut := rfl
@[simp] theorem State.setPhase_hostIn (s : State) (p : Phase) : (s.setPhase p).hostIn = s.hostIn := rfl
@[simp] theorem State.setPhase_rxLost (s : State) (p : Phase) : (s.setPhase p).rxLost = s.rxLost := rfl
@[simp] theorem State.setPhase_draws (s : State) (p : Phase) : (s.setPhase p).draws = s.draws := rfl
@[simp] theorem State.setPhase_turns (s : State) (p : Phase) : (s.setPhase p).turns = s.turns := rfl
@[simp] theorem State.setPhase_env (s : State) (p : Phase) : (s.setPhase p).env = s.env := rfl

/-! ### `logEvent` -/

@[simp] theorem State.logEvent_params (s : State) (e : Event) : (s.logEvent e).params = s.params := rfl
@[simp] theorem State.logEvent_interruptsMasked (s : State) (e : Event) : (s.logEvent e).interruptsMasked = s.interruptsMasked := rfl
@[simp] theorem State.logEvent_uartConfigured (s : State) (e : Event) : (s.logEvent e).uartConfigured = s.uartConfigured := rfl
@[simp] theorem State.logEvent_prog (s : State) (e : Event) : (s.logEvent e).prog = s.prog := rfl
@[simp] theorem State.logEvent_opidx (s : State) (e : Event) : (s.logEvent e).opidx = s.opidx := rfl
@[simp] theorem State.logEvent_phase (s : State) (e : Event) : (s.logEvent e).phase = s.phase := rfl
@[simp] theorem State.logEvent_results (s : State) (e : Event) : (s.logEvent e).results = s.results := rfl
@[simp] theorem State.logEvent_trace (s : State) (e : Event) : (s.logEvent e).trace = s.trace ++ [e] := rfl
@[simp] theorem State.logEvent_fault (s : State) (e : Event) : (s.logEvent e).fault = s.fault := rfl
@[simp] theorem State.logEvent_refused (s : State) (e : Event) : (s.logEvent e).refused = s.refused := rfl
@[simp] theorem State.logEvent_ctr (s : State) (e : Event) : (s.logEvent e).ctr = s.ctr := rfl
@[simp] theorem State.logEvent_gpioCtrl (s : State) (e : Event) : (s.logEvent e).gpioCtrl = s.gpioCtrl := rfl
@[simp] theorem State.logEvent_tx (s : State) (e : Event) : (s.logEvent e).tx = s.tx := rfl
@[simp] theorem State.logEvent_rx (s : State) (e : Event) : (s.logEvent e).rx = s.rx := rfl
@[simp] theorem State.logEvent_lineOut (s : State) (e : Event) : (s.logEvent e).lineOut = s.lineOut := rfl
@[simp] theorem State.logEvent_hostIn (s : State) (e : Event) : (s.logEvent e).hostIn = s.hostIn := rfl
@[simp] theorem State.logEvent_rxLost (s : State) (e : Event) : (s.logEvent e).rxLost = s.rxLost := rfl
@[simp] theorem State.logEvent_draws (s : State) (e : Event) : (s.logEvent e).draws = s.draws := rfl
@[simp] theorem State.logEvent_turns (s : State) (e : Event) : (s.logEvent e).turns = s.turns := rfl
@[simp] theorem State.logEvent_env (s : State) (e : Event) : (s.logEvent e).env = s.env := rfl

/-! ### `countDraw` -/

@[simp] theorem State.countDraw_params (s : State) : (s.countDraw).params = s.params := rfl
@[simp] theorem State.countDraw_interruptsMasked (s : State) : (s.countDraw).interruptsMasked = s.interruptsMasked := rfl
@[simp] theorem State.countDraw_uartConfigured (s : State) : (s.countDraw).uartConfigured = s.uartConfigured := rfl
@[simp] theorem State.countDraw_prog (s : State) : (s.countDraw).prog = s.prog := rfl
@[simp] theorem State.countDraw_opidx (s : State) : (s.countDraw).opidx = s.opidx := rfl
@[simp] theorem State.countDraw_phase (s : State) : (s.countDraw).phase = s.phase := rfl
@[simp] theorem State.countDraw_results (s : State) : (s.countDraw).results = s.results := rfl
@[simp] theorem State.countDraw_trace (s : State) : (s.countDraw).trace = s.trace := rfl
@[simp] theorem State.countDraw_fault (s : State) : (s.countDraw).fault = s.fault := rfl
@[simp] theorem State.countDraw_refused (s : State) : (s.countDraw).refused = s.refused := rfl
@[simp] theorem State.countDraw_ctr (s : State) : (s.countDraw).ctr = s.ctr := rfl
@[simp] theorem State.countDraw_gpioCtrl (s : State) : (s.countDraw).gpioCtrl = s.gpioCtrl := rfl
@[simp] theorem State.countDraw_tx (s : State) : (s.countDraw).tx = s.tx := rfl
@[simp] theorem State.countDraw_rx (s : State) : (s.countDraw).rx = s.rx := rfl
@[simp] theorem State.countDraw_lineOut (s : State) : (s.countDraw).lineOut = s.lineOut := rfl
@[simp] theorem State.countDraw_hostIn (s : State) : (s.countDraw).hostIn = s.hostIn := rfl
@[simp] theorem State.countDraw_rxLost (s : State) : (s.countDraw).rxLost = s.rxLost := rfl
@[simp] theorem State.countDraw_draws (s : State) : (s.countDraw).draws = s.draws + 1 := rfl
@[simp] theorem State.countDraw_turns (s : State) : (s.countDraw).turns = s.turns := rfl
@[simp] theorem State.countDraw_env (s : State) : (s.countDraw).env = s.env := rfl

/-! ### `endOp` -/

@[simp] theorem State.endOp_params (s : State) (r : Result) : (s.endOp r).params = s.params := rfl
@[simp] theorem State.endOp_interruptsMasked (s : State) (r : Result) : (s.endOp r).interruptsMasked = s.interruptsMasked := rfl
@[simp] theorem State.endOp_uartConfigured (s : State) (r : Result) : (s.endOp r).uartConfigured = s.uartConfigured := rfl
@[simp] theorem State.endOp_prog (s : State) (r : Result) : (s.endOp r).prog = s.prog := rfl
@[simp] theorem State.endOp_opidx (s : State) (r : Result) : (s.endOp r).opidx = s.opidx + 1 := rfl
@[simp] theorem State.endOp_phase (s : State) (r : Result) : (s.endOp r).phase = .start := rfl
@[simp] theorem State.endOp_results (s : State) (r : Result) : (s.endOp r).results = s.results ++ [r] := rfl
@[simp] theorem State.endOp_trace (s : State) (r : Result) : (s.endOp r).trace = s.trace := rfl
@[simp] theorem State.endOp_fault (s : State) (r : Result) : (s.endOp r).fault = s.fault := rfl
@[simp] theorem State.endOp_refused (s : State) (r : Result) : (s.endOp r).refused = s.refused := rfl
@[simp] theorem State.endOp_ctr (s : State) (r : Result) : (s.endOp r).ctr = s.ctr := rfl
@[simp] theorem State.endOp_gpioCtrl (s : State) (r : Result) : (s.endOp r).gpioCtrl = s.gpioCtrl := rfl
@[simp] theorem State.endOp_tx (s : State) (r : Result) : (s.endOp r).tx = s.tx := rfl
@[simp] theorem State.endOp_rx (s : State) (r : Result) : (s.endOp r).rx = s.rx := rfl
@[simp] theorem State.endOp_lineOut (s : State) (r : Result) : (s.endOp r).lineOut = s.lineOut := rfl
@[simp] theorem State.endOp_hostIn (s : State) (r : Result) : (s.endOp r).hostIn = s.hostIn := rfl
@[simp] theorem State.endOp_rxLost (s : State) (r : Result) : (s.endOp r).rxLost = s.rxLost := rfl
@[simp] theorem State.endOp_draws (s : State) (r : Result) : (s.endOp r).draws = s.draws := rfl
@[simp] theorem State.endOp_turns (s : State) (r : Result) : (s.endOp r).turns = s.turns := rfl
@[simp] theorem State.endOp_env (s : State) (r : Result) : (s.endOp r).env = s.env := rfl

/-! ### `markFault` -/

@[simp] theorem State.markFault_params (s : State) (r : Fault) : (s.markFault r).params = s.params := rfl
@[simp] theorem State.markFault_interruptsMasked (s : State) (r : Fault) : (s.markFault r).interruptsMasked = s.interruptsMasked := rfl
@[simp] theorem State.markFault_uartConfigured (s : State) (r : Fault) : (s.markFault r).uartConfigured = s.uartConfigured := rfl
@[simp] theorem State.markFault_prog (s : State) (r : Fault) : (s.markFault r).prog = s.prog := rfl
@[simp] theorem State.markFault_opidx (s : State) (r : Fault) : (s.markFault r).opidx = s.opidx := rfl
@[simp] theorem State.markFault_phase (s : State) (r : Fault) : (s.markFault r).phase = s.phase := rfl
@[simp] theorem State.markFault_results (s : State) (r : Fault) : (s.markFault r).results = s.results := rfl
@[simp] theorem State.markFault_trace (s : State) (r : Fault) : (s.markFault r).trace = s.trace := rfl
@[simp] theorem State.markFault_fault (s : State) (r : Fault) : (s.markFault r).fault = some r := rfl
@[simp] theorem State.markFault_refused (s : State) (r : Fault) : (s.markFault r).refused = s.refused := rfl
@[simp] theorem State.markFault_ctr (s : State) (r : Fault) : (s.markFault r).ctr = s.ctr := rfl
@[simp] theorem State.markFault_gpioCtrl (s : State) (r : Fault) : (s.markFault r).gpioCtrl = s.gpioCtrl := rfl
@[simp] theorem State.markFault_tx (s : State) (r : Fault) : (s.markFault r).tx = s.tx := rfl
@[simp] theorem State.markFault_rx (s : State) (r : Fault) : (s.markFault r).rx = s.rx := rfl
@[simp] theorem State.markFault_lineOut (s : State) (r : Fault) : (s.markFault r).lineOut = s.lineOut := rfl
@[simp] theorem State.markFault_hostIn (s : State) (r : Fault) : (s.markFault r).hostIn = s.hostIn := rfl
@[simp] theorem State.markFault_rxLost (s : State) (r : Fault) : (s.markFault r).rxLost = s.rxLost := rfl
@[simp] theorem State.markFault_draws (s : State) (r : Fault) : (s.markFault r).draws = s.draws := rfl
@[simp] theorem State.markFault_turns (s : State) (r : Fault) : (s.markFault r).turns = s.turns := rfl
@[simp] theorem State.markFault_env (s : State) (r : Fault) : (s.markFault r).env = s.env := rfl

/-! ### `markRefused` -/

@[simp] theorem State.markRefused_params (s : State) (r : Refusal) : (s.markRefused r).params = s.params := rfl
@[simp] theorem State.markRefused_interruptsMasked (s : State) (r : Refusal) : (s.markRefused r).interruptsMasked = s.interruptsMasked := rfl
@[simp] theorem State.markRefused_uartConfigured (s : State) (r : Refusal) : (s.markRefused r).uartConfigured = s.uartConfigured := rfl
@[simp] theorem State.markRefused_prog (s : State) (r : Refusal) : (s.markRefused r).prog = s.prog := rfl
@[simp] theorem State.markRefused_opidx (s : State) (r : Refusal) : (s.markRefused r).opidx = s.opidx := rfl
@[simp] theorem State.markRefused_phase (s : State) (r : Refusal) : (s.markRefused r).phase = s.phase := rfl
@[simp] theorem State.markRefused_results (s : State) (r : Refusal) : (s.markRefused r).results = s.results := rfl
@[simp] theorem State.markRefused_trace (s : State) (r : Refusal) : (s.markRefused r).trace = s.trace := rfl
@[simp] theorem State.markRefused_fault (s : State) (r : Refusal) : (s.markRefused r).fault = s.fault := rfl
@[simp] theorem State.markRefused_refused (s : State) (r : Refusal) : (s.markRefused r).refused = some r := rfl
@[simp] theorem State.markRefused_ctr (s : State) (r : Refusal) : (s.markRefused r).ctr = s.ctr := rfl
@[simp] theorem State.markRefused_gpioCtrl (s : State) (r : Refusal) : (s.markRefused r).gpioCtrl = s.gpioCtrl := rfl
@[simp] theorem State.markRefused_tx (s : State) (r : Refusal) : (s.markRefused r).tx = s.tx := rfl
@[simp] theorem State.markRefused_rx (s : State) (r : Refusal) : (s.markRefused r).rx = s.rx := rfl
@[simp] theorem State.markRefused_lineOut (s : State) (r : Refusal) : (s.markRefused r).lineOut = s.lineOut := rfl
@[simp] theorem State.markRefused_hostIn (s : State) (r : Refusal) : (s.markRefused r).hostIn = s.hostIn := rfl
@[simp] theorem State.markRefused_rxLost (s : State) (r : Refusal) : (s.markRefused r).rxLost = s.rxLost := rfl
@[simp] theorem State.markRefused_draws (s : State) (r : Refusal) : (s.markRefused r).draws = s.draws := rfl
@[simp] theorem State.markRefused_turns (s : State) (r : Refusal) : (s.markRefused r).turns = s.turns := rfl
@[simp] theorem State.markRefused_env (s : State) (r : Refusal) : (s.markRefused r).env = s.env := rfl

/-! ### `openWindow` -/

@[simp] theorem State.openWindow_params (s : State) : (s.openWindow).params = s.params := rfl
@[simp] theorem State.openWindow_interruptsMasked (s : State) : (s.openWindow).interruptsMasked = s.interruptsMasked := rfl
@[simp] theorem State.openWindow_uartConfigured (s : State) : (s.openWindow).uartConfigured = s.uartConfigured := rfl
@[simp] theorem State.openWindow_prog (s : State) : (s.openWindow).prog = s.prog := rfl
@[simp] theorem State.openWindow_opidx (s : State) : (s.openWindow).opidx = s.opidx := rfl
@[simp] theorem State.openWindow_phase (s : State) : (s.openWindow).phase = s.phase := rfl
@[simp] theorem State.openWindow_results (s : State) : (s.openWindow).results = s.results := rfl
@[simp] theorem State.openWindow_trace (s : State) : (s.openWindow).trace = s.trace := rfl
@[simp] theorem State.openWindow_fault (s : State) : (s.openWindow).fault = s.fault := rfl
@[simp] theorem State.openWindow_refused (s : State) : (s.openWindow).refused = s.refused := rfl
@[simp] theorem State.openWindow_ctr (s : State) : (s.openWindow).ctr = s.ctr := rfl
@[simp] theorem State.openWindow_gpioCtrl (s : State) : (s.openWindow).gpioCtrl = s.gpioCtrl := rfl
@[simp] theorem State.openWindow_tx (s : State) : (s.openWindow).tx = s.tx := rfl
@[simp] theorem State.openWindow_rx (s : State) : (s.openWindow).rx = s.rx := rfl
@[simp] theorem State.openWindow_lineOut (s : State) : (s.openWindow).lineOut = s.lineOut := rfl
@[simp] theorem State.openWindow_hostIn (s : State) : (s.openWindow).hostIn = s.hostIn := rfl
@[simp] theorem State.openWindow_rxLost (s : State) : (s.openWindow).rxLost = s.rxLost := rfl
@[simp] theorem State.openWindow_draws (s : State) : (s.openWindow).draws = s.draws := rfl
@[simp] theorem State.openWindow_turns (s : State) : (s.openWindow).turns = s.turns + 1 := rfl
@[simp] theorem State.openWindow_env (s : State) : (s.openWindow).env = Config.envMoves s.turns := rfl

/-! ### What the environment agents leave alone (R34 to R36) -/

@[simp] theorem envStep_params (a : EnvAgent) (s : State) : (envStep a s).params = s.params := by
  unfold envStep; split <;> (try split) <;> (try split) <;> rfl

@[simp] theorem envStep_interruptsMasked (a : EnvAgent) (s : State) : (envStep a s).interruptsMasked = s.interruptsMasked := by
  unfold envStep; split <;> (try split) <;> (try split) <;> rfl

@[simp] theorem envStep_uartConfigured (a : EnvAgent) (s : State) : (envStep a s).uartConfigured = s.uartConfigured := by
  unfold envStep; split <;> (try split) <;> (try split) <;> rfl

@[simp] theorem envStep_prog (a : EnvAgent) (s : State) : (envStep a s).prog = s.prog := by
  unfold envStep; split <;> (try split) <;> (try split) <;> rfl

@[simp] theorem envStep_opidx (a : EnvAgent) (s : State) : (envStep a s).opidx = s.opidx := by
  unfold envStep; split <;> (try split) <;> (try split) <;> rfl

@[simp] theorem envStep_phase (a : EnvAgent) (s : State) : (envStep a s).phase = s.phase := by
  unfold envStep; split <;> (try split) <;> (try split) <;> rfl

@[simp] theorem envStep_results (a : EnvAgent) (s : State) : (envStep a s).results = s.results := by
  unfold envStep; split <;> (try split) <;> (try split) <;> rfl

@[simp] theorem envStep_trace (a : EnvAgent) (s : State) : (envStep a s).trace = s.trace := by
  unfold envStep; split <;> (try split) <;> (try split) <;> rfl

@[simp] theorem envStep_fault (a : EnvAgent) (s : State) : (envStep a s).fault = s.fault := by
  unfold envStep; split <;> (try split) <;> (try split) <;> rfl

@[simp] theorem envStep_refused (a : EnvAgent) (s : State) : (envStep a s).refused = s.refused := by
  unfold envStep; split <;> (try split) <;> (try split) <;> rfl

@[simp] theorem envStep_gpioCtrl (a : EnvAgent) (s : State) : (envStep a s).gpioCtrl = s.gpioCtrl := by
  unfold envStep; split <;> (try split) <;> (try split) <;> rfl

@[simp] theorem envStep_draws (a : EnvAgent) (s : State) : (envStep a s).draws = s.draws := by
  unfold envStep; split <;> (try split) <;> (try split) <;> rfl

@[simp] theorem envStep_turns (a : EnvAgent) (s : State) : (envStep a s).turns = s.turns := by
  unfold envStep; split <;> (try split) <;> (try split) <;> rfl

@[simp] theorem envStep_env (a : EnvAgent) (s : State) : (envStep a s).env = s.env := by
  unfold envStep; split <;> (try split) <;> (try split) <;> rfl

/-- What a step of an environment agent can be (R34 to R36). -/
theorem envStep_cases (a : EnvAgent) (s : State) :
    (a = .timer ∧ envStep a s = { s with ctr := s.ctr + 1#64 }) ∨
    (a = .drain ∧ s.tx = [] ∧ envStep a s = s) ∨
    (a = .drain ∧ ∃ b rest, s.tx = b :: rest ∧ envStep a s = { s with lineOut := s.lineOut ++ [b], tx := rest }) ∨
    (a = .arrival ∧ s.hostIn = [] ∧ envStep a s = s) ∨
    (a = .arrival ∧ ∃ b rest, s.hostIn = b :: rest ∧ s.rx.length < s.params.rxDepth ∧
      envStep a s = { s with rx := s.rx ++ [b], hostIn := rest }) ∨
    (a = .arrival ∧ ∃ b rest, s.hostIn = b :: rest ∧ ¬ s.rx.length < s.params.rxDepth ∧
      envStep a s = { s with rxLost := s.rxLost + 1, hostIn := rest }) := by
  cases a with
  | timer => exact .inl ⟨rfl, rfl⟩
  | drain =>
    cases h : s.tx with
    | nil => simp [envStep, h]
    | cons b rest => simp [envStep, h]
  | arrival =>
    cases h : s.hostIn with
    | nil => simp [envStep, h]
    | cons b rest =>
      by_cases hl : s.rx.length < s.params.rxDepth
      · simp [envStep, h, hl]
      · simp [envStep, h, hl]

/-! ### Windows of environment steps -/

@[simp] theorem envRun_nil (s : State) : envRun [] s = s := rfl

@[simp] theorem envRun_cons (a : EnvAgent) (as : List EnvAgent) (s : State) :
    envRun (a :: as) s = envRun as (envStep a s) := rfl

theorem envRun_append (as bs : List EnvAgent) (s : State) : envRun (as ++ bs) s = envRun bs (envRun as s) := by
  simp [envRun]

@[simp] theorem envRun_params (as : List EnvAgent) (s : State) : (envRun as s).params = s.params := by
  induction as generalizing s with
  | nil => rfl
  | cons a as ih => simp [ih]

@[simp] theorem envRun_interruptsMasked (as : List EnvAgent) (s : State) : (envRun as s).interruptsMasked = s.interruptsMasked := by
  induction as generalizing s with
  | nil => rfl
  | cons a as ih => simp [ih]

@[simp] theorem envRun_uartConfigured (as : List EnvAgent) (s : State) : (envRun as s).uartConfigured = s.uartConfigured := by
  induction as generalizing s with
  | nil => rfl
  | cons a as ih => simp [ih]

@[simp] theorem envRun_prog (as : List EnvAgent) (s : State) : (envRun as s).prog = s.prog := by
  induction as generalizing s with
  | nil => rfl
  | cons a as ih => simp [ih]

@[simp] theorem envRun_opidx (as : List EnvAgent) (s : State) : (envRun as s).opidx = s.opidx := by
  induction as generalizing s with
  | nil => rfl
  | cons a as ih => simp [ih]

@[simp] theorem envRun_phase (as : List EnvAgent) (s : State) : (envRun as s).phase = s.phase := by
  induction as generalizing s with
  | nil => rfl
  | cons a as ih => simp [ih]

@[simp] theorem envRun_results (as : List EnvAgent) (s : State) : (envRun as s).results = s.results := by
  induction as generalizing s with
  | nil => rfl
  | cons a as ih => simp [ih]

@[simp] theorem envRun_trace (as : List EnvAgent) (s : State) : (envRun as s).trace = s.trace := by
  induction as generalizing s with
  | nil => rfl
  | cons a as ih => simp [ih]

@[simp] theorem envRun_fault (as : List EnvAgent) (s : State) : (envRun as s).fault = s.fault := by
  induction as generalizing s with
  | nil => rfl
  | cons a as ih => simp [ih]

@[simp] theorem envRun_refused (as : List EnvAgent) (s : State) : (envRun as s).refused = s.refused := by
  induction as generalizing s with
  | nil => rfl
  | cons a as ih => simp [ih]

@[simp] theorem envRun_gpioCtrl (as : List EnvAgent) (s : State) : (envRun as s).gpioCtrl = s.gpioCtrl := by
  induction as generalizing s with
  | nil => rfl
  | cons a as ih => simp [ih]

@[simp] theorem envRun_draws (as : List EnvAgent) (s : State) : (envRun as s).draws = s.draws := by
  induction as generalizing s with
  | nil => rfl
  | cons a as ih => simp [ih]

@[simp] theorem envRun_turns (as : List EnvAgent) (s : State) : (envRun as s).turns = s.turns := by
  induction as generalizing s with
  | nil => rfl
  | cons a as ih => simp [ih]

@[simp] theorem envRun_env (as : List EnvAgent) (s : State) : (envRun as s).env = s.env := by
  induction as generalizing s with
  | nil => rfl
  | cons a as ih => simp [ih]

end Sys2Proof.Machine
end

