-- ==== Sys2Proof/Laws/Ops.lean ====
section
/-! SUPPORT. One lemma per shared operation saying once what it can do; proofs cite these instead of unfolding. -/

namespace Sys2Proof.Machine

/-! ### Reads -/

@[simp] theorem devRead_timerLo (s : State) : devRead timerLoAddr s = .ok (lowHalf s.ctr, s) := by simp [devRead]

@[simp] theorem devRead_timerHi (s : State) : devRead timerHiAddr s = .ok (highHalf s.ctr, s) := by simp [devRead]

@[simp] theorem devRead_uartFr (s : State) :
    devRead uartFrAddr s = .ok (frWord (Config.draw s.draws) (rxEmpty s) (txFull s), s.countDraw) := by simp [devRead]

theorem devRead_uartDr_cons {s : State} {b : Byte} {rest : List Byte} (h : s.rx = b :: rest) :
    devRead uartDrAddr s = .ok (drWord (Config.draw s.draws) b, { s.countDraw with rx := rest }) := by
  simp [devRead, h]

theorem devRead_uartDr_nil {s : State} (h : s.rx = []) :
    devRead uartDrAddr s = .ok (Config.draw s.draws, s.countDraw) := by simp [devRead, h]

theorem devRead_ctrlAddr {s : State} {pin : Word} (h : pin.toNat < s.params.numGpioPins) :
    devRead (ctrlAddr pin) s = .ok (ctrlRead s.gpioCtrl pin.toNat, s) := by
  simp [devRead, regAt_ctrlAddr h]

/-- A read changes nothing but `rx`, which it may shorten by its head, and the draw counter. -/
theorem devRead_ok {a : Addr} {s t : State} {v : Word} (h : devRead a s = .ok (v, t)) :
    t = { s with rx := t.rx, draws := t.draws } ∧ (t.rx = s.rx ∨ t.rx = s.rx.tail) ∧ regAt s.params.numGpioPins a ≠ none := by
  unfold devRead at h
  split at h
  case h_5 hr =>
    split at h <;> rename_i hrx <;>
      simp only [Except.ok.injEq, Prod.mk.injEq] at h <;> obtain ⟨-, rfl⟩ := h
    · exact ⟨rfl, .inl rfl, by simp [hr]⟩
    · exact ⟨rfl, .inr (by simp [hrx]), by simp [hr]⟩
  all_goals
    rename_i hr
    first
      | (simp only [Except.ok.injEq, Prod.mk.injEq] at h; obtain ⟨-, rfl⟩ := h; exact ⟨rfl, .inl rfl, by simp [hr]⟩)
      | simp at h

/-- A read faults only at an unmapped address. -/
theorem devRead_error {a : Addr} {s : State} {r : Fault} (h : devRead a s = .error r) :
    r = .unmapped a ∧ regAt s.params.numGpioPins a = none := by
  unfold devRead at h
  split at h
  case h_5 => split at h <;> simp at h
  all_goals
    rename_i hr
    first
      | (simp only [Except.error.injEq] at h; exact ⟨h.symm, hr⟩)
      | simp at h

/-- What MemRead does: the value, its side effect and its event go to the continuation, or the fault is marked. -/
theorem readThen_cases {a : Addr} {s : State} {k : Word → State → Exec} {o : Exec} (h : readThen a s k = o) :
    (∃ v t, devRead a s = .ok (v, t) ∧ k v (t.logEvent (.rd a v)) = o) ∨
      (regAt s.params.numGpioPins a = none ∧ o = .next (s.markFault (.unmapped a))) := by
  unfold readThen at h
  split at h
  · exact .inl ⟨_, _, ‹_›, h⟩
  · obtain ⟨rfl, hr⟩ := devRead_error ‹_›
    exact .inr ⟨hr, h.symm⟩

@[simp] theorem readThen_timerLo (s : State) (k : Word → State → Exec) :
    readThen timerLoAddr s k = k (lowHalf s.ctr) (s.logEvent (.rd timerLoAddr (lowHalf s.ctr))) := by simp [readThen]

@[simp] theorem readThen_timerHi (s : State) (k : Word → State → Exec) :
    readThen timerHiAddr s k = k (highHalf s.ctr) (s.logEvent (.rd timerHiAddr (highHalf s.ctr))) := by simp [readThen]

@[simp] theorem readThen_uartFr (s : State) (k : Word → State → Exec) :
    readThen uartFrAddr s k =
      k (frWord (Config.draw s.draws) (rxEmpty s) (txFull s))
        (s.countDraw.logEvent (.rd uartFrAddr (frWord (Config.draw s.draws) (rxEmpty s) (txFull s)))) := by simp [readThen]

theorem readThen_uartDr_cons {s : State} {b : Byte} {rest : List Byte} (h : s.rx = b :: rest) (k : Word → State → Exec) :
    readThen uartDrAddr s k =
      k (drWord (Config.draw s.draws) b)
        (({ s.countDraw with rx := rest } : State).logEvent (.rd uartDrAddr (drWord (Config.draw s.draws) b))) := by
  simp [readThen, devRead_uartDr_cons h]

theorem readThen_ctrlAddr {s : State} {pin : Word} (h : pin.toNat < s.params.numGpioPins) (k : Word → State → Exec) :
    readThen (ctrlAddr pin) s k =
      k (ctrlRead s.gpioCtrl pin.toNat) (s.logEvent (.rd (ctrlAddr pin) (ctrlRead s.gpioCtrl pin.toNat))) := by
  simp [readThen, devRead_ctrlAddr h]

/-! ### Writes -/

/-- What a write that is performed does: it changes one control register, or appends a byte to `tx`. -/
theorem devWrite_ok {a : Addr} {v : Word} {s t : State} (h : devWrite a v s = .ok t) :
    (∃ p, regAt s.params.numGpioPins a = some (.gpioCtrl p) ∧ t = { s with gpioCtrl := ctrlWrite s.gpioCtrl p v }) ∨
      (regAt s.params.numGpioPins a = some .uartDr ∧ txFull s = false ∧ t = { s with tx := s.tx ++ [lowByte v] }) := by
  unfold devWrite at h
  split at h
  case h_1 hr =>
    simp only [Except.ok.injEq] at h
    exact .inl ⟨_, hr, h.symm⟩
  case h_2 hr =>
    by_cases hf : txFull s = true
    · simp [hf] at h
    · simp only [hf, Bool.false_eq_true, if_false, Except.ok.injEq] at h
      exact .inr ⟨hr, by simpa using hf, h.symm⟩
  all_goals simp at h

/-- What MemWrite does: the changed state with its event goes to the continuation, or a fault is marked. -/
theorem writeThen_cases {a : Addr} {v : Word} {s : State} {k : State → Exec} {o : Exec} (h : writeThen a v s k = o) :
    (∃ t, devWrite a v s = .ok t ∧ k (t.logEvent (.wr a v)) = o) ∨
      (∃ r, devWrite a v s = .error r ∧ o = .next (s.markFault r)) := by
  unfold writeThen at h
  split at h
  · exact .inl ⟨_, ‹_›, h⟩
  · exact .inr ⟨_, ‹_›, h.symm⟩

theorem writeThen_uartDr {s : State} (h : txFull s = false) (v : Word) (k : State → Exec) :
    writeThen uartDrAddr v s k = k (({ s with tx := s.tx ++ [lowByte v] } : State).logEvent (.wr uartDrAddr v)) := by
  simp [writeThen, devWrite, h]

theorem writeThen_ctrlAddr {s : State} {pin : Word} (h : pin.toNat < s.params.numGpioPins) (v : Word) (k : State → Exec) :
    writeThen (ctrlAddr pin) v s k =
      k (({ s with gpioCtrl := ctrlWrite s.gpioCtrl pin.toNat v } : State).logEvent (.wr (ctrlAddr pin) v)) := by
  simp [writeThen, devWrite, regAt_ctrlAddr h]

/-! ### Guards -/

theorem whileRunning_of {s : State} (hf : s.fault = none) (hr : s.refused = none) (k : Exec) : whileRunning s k = k := by
  simp [whileRunning, hf, hr]

@[simp] theorem inPhase_some {α : Type} (a : α) (k : α → Exec) : inPhase (some a) k = k a := rfl

@[simp] theorem inPhase_none {α : Type} (k : α → Exec) : inPhase none k = .fault .foreignPhase := rfl

/-- A guarded meaning that answers a next state ran from a state with no mark, in a phase of its own. -/
theorem guarded_next {α : Type} {s t : State} {p : Option α} {k : α → Exec} (h : whileRunning s (inPhase p k) = .next t) :
    s.fault = none ∧ s.refused = none ∧ ∃ a, p = some a ∧ k a = .next t := by
  unfold whileRunning at h
  split at h
  · simp at h
  · split at h
    · simp at h
    · cases p with
      | none => simp at h
      | some a => exact ⟨‹_›, ‹_›, a, rfl, h⟩

end Sys2Proof.Machine
end

