-- ==== Sys2Proof/Laws/Exec.lean ====
section
/-! SUPPORT. What one controller step of any operation can do, said once (`StepKind`, `exec_kind`), and one equation per loop of the
operations, which later proofs cite instead of unfolding the meanings. -/

namespace Sys2Proof.Machine

/-- How a step ends after its access: the operation goes on in a phase, or ends with a result. -/
inductive Closed (u t : State) : Prop where
  | goes (p : Phase) (h : t = u.setPhase p)
  | ends (r : Result) (h : t = u.endOp r)

/-- One controller step (R8): a fault, a step with no access, one read, or one write. -/
inductive StepKind (s t : State) : Prop where
  | fault (r : Fault) (h : t = s.markFault r)
  | quiet (h : Closed s t)
  | read (a : Addr) (v : Word) (u : State) (hr : devRead a s = .ok (v, u)) (h : Closed (u.logEvent (.rd a v)) t)
  | write (a : Addr) (v : Word) (u : State) (hw : devWrite a v s = .ok u) (h : Closed (u.logEvent (.wr a v)) t)

theorem goTo_closed {p : Phase} {u t : State} (h : goTo p u = .next t) : Closed u t := by
  cases h; exact .goes p rfl

theorem finish_closed {r : Result} {u t : State} (h : finish r u = .next t) : Closed u t := by
  cases h; exact .ends r rfl

theorem readThen_kind {a : Addr} {s t : State} {k : Word → State → Exec} (hk : ∀ v u, k v u = .next t → Closed u t)
    (h : readThen a s k = .next t) : StepKind s t := by
  rcases readThen_cases h with ⟨v, u, hr, hv⟩ | ⟨-, ht⟩
  · exact .read a v u hr (hk _ _ hv)
  · cases ht; exact .fault _ rfl

theorem writeThen_kind {a : Addr} {v : Word} {s t : State} {k : State → Exec}
    (hk : ∀ u, devWrite a v s = .ok u → k (u.logEvent (.wr a v)) = .next t → Closed (u.logEvent (.wr a v)) t)
    (h : writeThen a v s k = .next t) : StepKind s t := by
  rcases writeThen_cases h with ⟨u, hw, hu⟩ | ⟨r, -, ht⟩
  · exact .write a v u hw (hk u hw hu)
  · cases ht; exact .fault r rfl

theorem ticksStep_kind {wrap : TicksPhase → Phase} {k : DWord → State → Exec} {s t : State} {p : TicksPhase}
    (hk : ∀ d u, k d u = .next t → Closed u t) (h : ticksStep wrap k s p = .next t) : StepKind s t := by
  cases p <;> simp only [ticksStep] at h
  case hi1 => exact readThen_kind (fun _ _ => goTo_closed) h
  case lo h1 => exact readThen_kind (fun _ _ => goTo_closed) h
  case hi2 h1 lo =>
    refine readThen_kind (fun v u hu => ?_) h
    split at hu
    · exact hk _ _ hu
    · exact goTo_closed hu

theorem delayStep_kind {n : Word} {wrap : DelayPhase → Phase} {k : State → Exec} {s t : State} {d : DelayPhase}
    (hk : ∀ u, k u = .next t → Closed u t) (h : delayStep n wrap k s d = .next t) : StepKind s t := by
  cases d <;> simp only [delayStep] at h
  case first p => exact ticksStep_kind (fun _ _ => goTo_closed) h
  case spin start p =>
    refine ticksStep_kind (fun v u hu => ?_) h
    split at hu
    · exact hk _ hu
    · exact goTo_closed hu

theorem sendStep_kind {s t : State} {p : List Byte × Bool} (h : sendStep s p = .next t) : StepKind s t := by
  obtain ⟨todo, ready⟩ := p
  cases todo with
  | nil => exact .quiet (finish_closed h)
  | cons b rest =>
    cases ready with
    | false =>
      simp only [sendStep] at h
      exact readThen_kind (fun _ _ => goTo_closed) h
    | true =>
      simp only [sendStep] at h
      refine writeThen_kind (fun u _ hu => ?_) h
      cases rest with
      | nil => exact finish_closed hu
      | cons c cs => exact goTo_closed hu

theorem setFunctionStep_kind {pin f : Word} {hold : Word → Phase} {k : State → Exec} {s t : State} {held : Option Word}
    (hk : ∀ u, pin.toNat < u.params.numGpioPins → k u = .next t → Closed u t)
    (h : setFunctionStep pin f hold k s held = .next t) : StepKind s t := by
  cases held with
  | none =>
    simp only [setFunctionStep, pinChecked] at h
    split at h
    · exact readThen_kind (fun _ _ => goTo_closed) h
    · cases h; exact .fault _ rfl
  | some v =>
    refine writeThen_kind (fun u hw hu => hk _ ?_ hu) h
    have hp : pin.toNat < s.params.numGpioPins := by
      by_contra hn
      rcases devWrite_ok hw with ⟨p, hr, -⟩ | ⟨hr, -⟩ <;> simp [regAt_ctrlAddr_none hn] at hr
    rcases devWrite_ok hw with ⟨p, -, rfl⟩ | ⟨-, -, rfl⟩ <;> exact hp

theorem ledStep_kind {pin : Word} {level : Bool} {hold : Word → Phase} {k : Result → State → Exec} {s t : State}
    {held : Option Word} (hk : ∀ r u, k r u = .next t → Closed u t) (h : ledStep pin level hold k s held = .next t) :
    StepKind s t := by
  refine setFunctionStep_kind (fun u hp hu => ?_) h
  simp only [setLevel, pinChecked, if_pos hp] at hu
  exact hk _ _ hu

/-- What one controller step of any operation can do. -/
theorem exec_kind {i : Instr} {s t : State} (h : exec i s = .next t) : StepKind s t := by
  cases i <;> obtain ⟨-, -, p, -, hp⟩ := guarded_next h
  case regRead addr => exact readThen_kind (fun _ _ => finish_closed) hp
  case regWrite addr value => exact writeThen_kind (fun _ _ => finish_closed) hp
  case ticks => exact ticksStep_kind (fun _ _ => finish_closed) hp
  case delayUs n => exact delayStep_kind (fun _ => finish_closed) hp
  case delayMs n => exact delayStep_kind (fun _ => finish_closed) hp
  case uptimeSeconds => exact ticksStep_kind (fun _ _ => finish_closed) hp
  case uartInit => exact .quiet (finish_closed hp)
  case putChar c => exact sendStep_kind hp
  case putString str => exact sendStep_kind hp
  case getChar =>
    cases p with
    | false => exact readThen_kind (fun _ _ => goTo_closed) hp
    | true => exact readThen_kind (fun _ _ => finish_closed) hp
  case putHex n => exact sendStep_kind hp
  case gpioSetFunction pin f => exact setFunctionStep_kind (fun _ _ => finish_closed) hp
  case gpioSetOutput pin => exact setFunctionStep_kind (fun _ _ => finish_closed) hp
  case gpioSetInput pin => exact setFunctionStep_kind (fun _ _ => finish_closed) hp
  case gpioSet pin value =>
    simp only [setLevel, pinChecked] at hp
    split at hp
    · exact .quiet (finish_closed hp)
    · cases hp; exact .fault _ rfl
  case gpioGet pin =>
    simp only [pinChecked] at hp
    split at hp
    · exact .quiet (finish_closed hp)
    · cases hp; exact .fault _ rfl
  case ledOn pin => exact ledStep_kind (fun _ _ => finish_closed) hp
  case ledOff pin => exact ledStep_kind (fun _ _ => finish_closed) hp
  case blinkActivityLed =>
    cases p with
    | ledOn held => exact ledStep_kind (fun _ _ => goTo_closed) hp
    | delayOn d => exact delayStep_kind (fun _ => goTo_closed) hp
    | ledOff held => exact ledStep_kind (fun _ _ => goTo_closed) hp
    | delayOff d => exact delayStep_kind (fun _ => finish_closed) hp

/-! ### The loops, one equation per phase -/

@[simp] theorem ticksStep_hi1 (wrap : TicksPhase → Phase) (k : DWord → State → Exec) (s : State) :
    ticksStep wrap k s .hi1 =
      .next ((s.logEvent (.rd timerHiAddr (highHalf s.ctr))).setPhase (wrap (.lo (highHalf s.ctr)))) := by
  simp [ticksStep, goTo]

@[simp] theorem ticksStep_lo (wrap : TicksPhase → Phase) (k : DWord → State → Exec) (s : State) (h1 : Word) :
    ticksStep wrap k s (.lo h1) =
      .next ((s.logEvent (.rd timerLoAddr (lowHalf s.ctr))).setPhase (wrap (.hi2 h1 (lowHalf s.ctr)))) := by
  simp [ticksStep, goTo]

@[simp] theorem ticksStep_hi2 (wrap : TicksPhase → Phase) (k : DWord → State → Exec) (s : State) (h1 lo : Word) :
    ticksStep wrap k s (.hi2 h1 lo) =
      if h1 = highHalf s.ctr then k (composeTicks h1 lo) (s.logEvent (.rd timerHiAddr (highHalf s.ctr)))
      else .next ((s.logEvent (.rd timerHiAddr (highHalf s.ctr))).setPhase (wrap .hi1)) := by
  simp [ticksStep, goTo]

@[simp] theorem sendStep_nil (s : State) (ready : Bool) : sendStep s ([], ready) = .next (s.endOp .unit) := rfl

@[simp] theorem sendStep_poll (s : State) (b : Byte) (rest : List Byte) :
    sendStep s (b :: rest, false) =
      .next ((s.countDraw.logEvent (.rd uartFrAddr (frWord (Config.draw s.draws) (rxEmpty s) (txFull s)))).setPhase
        (.send (b :: rest) (!txFull s))) := by
  simp [sendStep, goTo]

theorem sendStep_write {s : State} (h : txFull s = false) (b : Byte) (rest : List Byte) :
    sendStep s (b :: rest, true) =
      .next (if rest = [] then
          (({ s with tx := s.tx ++ [b] } : State).logEvent (.wr uartDrAddr (byteWord b))).endOp .unit
        else (({ s with tx := s.tx ++ [b] } : State).logEvent (.wr uartDrAddr (byteWord b))).setPhase (.send rest false)) := by
  cases rest <;> simp [sendStep, writeThen_uartDr h, finish, goTo]

theorem setFunctionStep_none {s : State} {pin : Word} (h : pin.toNat < s.params.numGpioPins) (f : Word)
    (hold : Word → Phase) (k : State → Exec) :
    setFunctionStep pin f hold k s none =
      .next ((s.logEvent (.rd (ctrlAddr pin) (ctrlRead s.gpioCtrl pin.toNat))).setPhase
        (hold (ctrlRead s.gpioCtrl pin.toNat))) := by
  simp [setFunctionStep, pinChecked, h, readThen_ctrlAddr h, goTo]

theorem setFunctionStep_some {s : State} {pin : Word} (h : pin.toNat < s.params.numGpioPins) (f v : Word)
    (hold : Word → Phase) (k : State → Exec) :
    setFunctionStep pin f hold k s (some v) =
      k (({ s with gpioCtrl := ctrlWrite s.gpioCtrl pin.toNat (insertFunc v f) } : State).logEvent
        (.wr (ctrlAddr pin) (insertFunc v f))) := by
  simp [setFunctionStep, writeThen_ctrlAddr h]

theorem ledStep_some {s : State} {pin : Word} (h : pin.toNat < s.params.numGpioPins) (level : Bool) (v : Word)
    (hold : Word → Phase) (k : Result → State → Exec) :
    ledStep pin level hold k s (some v) =
      k .unsupported (({ s with gpioCtrl := ctrlWrite s.gpioCtrl pin.toNat (insertFunc v funcSio) } : State).logEvent
        (.wr (ctrlAddr pin) (insertFunc v funcSio))) := by
  simp [ledStep, setFunctionStep_some h, setLevel, pinChecked, h]

/-! ### The counter's halves -/

/-- The two halves of one counter value compose to it (R110). -/
@[simp] theorem composeTicks_halves (c : DWord) : composeTicks (highHalf c) (lowHalf c) = c := by
  ext i hi
  by_cases h : i < 32
  · simp [composeTicks, highHalf, lowHalf, h, BitVec.getLsbD_eq_getElem hi]
  · have h2 : i - 32 < 32 := by omega
    have h3 : 32 + (i - 32) = i := by omega
    simp [composeTicks, highHalf, lowHalf, h, h2, h3, BitVec.getLsbD_eq_getElem hi]

end Sys2Proof.Machine
end

