-- ==== Sys2Proof/Laws/PerInstr.lean ====
section
/-! SUPPORT. One statement per instruction: the word an operation is written as carries its own selector and exactly the slots its
selector's format names (30_encoding.md R71, R73, R77). -/

namespace Sys2Proof.Laws.EncodingShape

/-- The selector of the encoded word names the operation, and its slots are those of the format, in order. -/
def Statement (i : Instr) : Prop :=
  opOf (encode i).sel = some i.op ∧ (encode i).slots.map Slot.kind = i.op.format.slots

theorem regRead (addr : Addr) : Statement (.regRead addr) := ⟨rfl, rfl⟩

theorem regWrite (addr : Addr) (value : Word) : Statement (.regWrite addr value) := ⟨rfl, rfl⟩

theorem ticks : Statement .ticks := ⟨rfl, rfl⟩

theorem delayUs (n : Word) : Statement (.delayUs n) := ⟨rfl, rfl⟩

theorem delayMs (n : Word) : Statement (.delayMs n) := ⟨rfl, rfl⟩

theorem uptimeSeconds : Statement .uptimeSeconds := ⟨rfl, rfl⟩

theorem uartInit : Statement .uartInit := ⟨rfl, rfl⟩

theorem putChar (c : Byte) : Statement (.putChar c) := ⟨rfl, rfl⟩

theorem putString (str : List Byte) : Statement (.putString str) := ⟨rfl, rfl⟩

theorem getChar : Statement .getChar := ⟨rfl, rfl⟩

theorem putHex (n : Word) : Statement (.putHex n) := ⟨rfl, rfl⟩

theorem gpioSetFunction (pin : Word) (f : Word) : Statement (.gpioSetFunction pin f) := ⟨rfl, rfl⟩

theorem gpioSetOutput (pin : Word) : Statement (.gpioSetOutput pin) := ⟨rfl, rfl⟩

theorem gpioSetInput (pin : Word) : Statement (.gpioSetInput pin) := ⟨rfl, rfl⟩

theorem gpioSet (pin : Word) (value : Bool) : Statement (.gpioSet pin value) := ⟨rfl, rfl⟩

theorem gpioGet (pin : Word) : Statement (.gpioGet pin) := ⟨rfl, rfl⟩

theorem ledOn (pin : Word) : Statement (.ledOn pin) := ⟨rfl, rfl⟩

theorem ledOff (pin : Word) : Statement (.ledOff pin) := ⟨rfl, rfl⟩

theorem blinkActivityLed : Statement .blinkActivityLed := ⟨rfl, rfl⟩

end Sys2Proof.Laws.EncodingShape
end

