-- ==== Sys2Proof/Laws/Step.lean ====
section
/-! SUPPORT. What the step, one controller step and a run of an operation can do, in the form later proofs cite: the case split of
`step`, the frame of `Closed`, each operation's meaning as its loop from a phase of its own, and `runOp` one window at a time. -/

namespace Sys2Proof.Machine

/-! ### The address map, by address (20_memory.md R51) -/

theorem regAt_of_ctrl {n p : Nat} {a : Addr} (hp : p < n) (h : a.toNat = 0x1f000d0004 + 8 * p) :
    regAt n a = some (.gpioCtrl p) := by
  rw [regAt_gpio (off := 8 * p + 4) (by unfold gpioBase; omega)]
  have h1 : (8 * p + 4) / 8 = p := by omega
  have h2 : (8 * p + 4) % 8 = 4 := by omega
  simp [gpioRegAt, gpioStride, gpioStatusOff, gpioCtrlOff, h1, h2, hp]

theorem regAt_of_status {n p : Nat} {a : Addr} (hp : p < n) (h : a.toNat = 0x1f000d0000 + 8 * p) :
    regAt n a = some (.gpioStatus p) := by
  rw [regAt_gpio (off := 8 * p) (by unfold gpioBase; omega)]
  simp [gpioRegAt, gpioStride, gpioStatusOff, hp]

/-- An address with a register is one of the map's. -/
theorem mappedAddress_of_regAt {n : Nat} {a : Addr} (h : regAt n a ≠ none) : MappedAddress n a := by
  unfold regAt at h
  split_ifs at h with h1 h2 h3 h4 h5
  · right; rw [h1]; decide
  · right; rw [h2]; decide
  · right; rw [h3]; decide
  · right; rw [h4]; decide
  · left
    unfold gpioRegAt at h
    have h5' : 0x1f000d0000 ≤ a.toNat := h5
    rw [show gpioStride = 8 from rfl, show gpioStatusOff = 0 from rfl, show gpioCtrlOff = 4 from rfl,
      show a.toNat - gpioBase = a.toNat - 0x1f000d0000 from rfl] at h
    split_ifs at h with h6 h7 h8
    · exact ⟨_, h6, .inl (by omega)⟩
    · exact ⟨_, h6, .inr (by omega)⟩
    · exact absurd rfl h
    · exact absurd rfl h
  · exact absurd rfl h

/-- An unlisted address has no register. -/
theorem regAt_of_not_mapped {n : Nat} {a : Addr} (h : ¬ MappedAddress n a) : regAt n a = none := by
  by_contra hn; exact h (mappedAddress_of_regAt hn)

/-- The control register's address as the rules write it (R74). -/
theorem ctrlAddr_eq (pin : Word) : ctrlAddr pin = BitVec.ofNat 64 (0x1f000d0004 + 8 * pin.toNat) := by
  apply BitVec.eq_of_toNat_eq
  rw [ctrlAddr_toNat, BitVec.toNat_ofNat]
  have := pin.isLt
  unfold gpioBase
  omega

/-- `US(n)` as the rules write it (R74). -/
theorem usOf_eq (n : Word) : usOf n = BitVec.ofNat 32 (n.toNat * 1000) := by
  apply BitVec.eq_of_toNat_eq; simp [usOf]

/-- A flag-register read shows a value the flags allow (R33). -/
theorem isFlagValue_frWord (s : State) (d : Word) : IsFlagValue s (frWord d (rxEmpty s) (txFull s)) :=
  ⟨rxfeOf_frWord _ _ _, txffOf_frWord _ _ _⟩

/-! ### One step -/

/-- What a step is: a due environment step, or the controller's turn, which does nothing, refuses the word or runs the operation. -/
theorem step_cases {s t : State} (h : step s = .next t) :
    (∃ a rest, s.env = a :: rest ∧ t = envStep a { s with env := rest }) ∨
      (s.env = [] ∧
        (t = s.openWindow ∨
          (stopped s = false ∧ ∃ r w, fetch s = some w ∧ decode w = .error r ∧ t = (s.markRefused r).openWindow) ∨
          (stopped s = false ∧ ∃ i u, current s = some i ∧ exec i s = .next u ∧ t = u.openWindow))) := by
  unfold step at h
  split at h
  · rename_i a rest he
    cases h
    exact .inl ⟨a, rest, he, rfl⟩
  · rename_i he
    refine .inr ⟨he, ?_⟩
    split at h
    · rename_i u hu
      cases h
      unfold controllerTurn at hu
      split at hu
      · cases hu; exact .inl rfl
      · rename_i hst
        have hst' : stopped s = false := by simpa using hst
        split at hu
        · cases hu; exact .inl rfl
        · rename_i w hw
          split at hu
          · rename_i r hd; cases hu; exact .inr (.inl ⟨hst', r, w, hw, hd, rfl⟩)
          · rename_i i hd; exact .inr (.inr ⟨hst', i, u, by simp [current, hw, hd], hu, rfl⟩)
    · cases h
    · cases h

/-- How a step ends leaves alone everything but the phase, `opidx` and `results`. -/
theorem Closed.frame {u t : State} (h : Closed u t) :
    t = { u with phase := t.phase, opidx := t.opidx, results := t.results } ∧
      ((t.opidx = u.opidx ∧ t.results = u.results) ∨
        (t.opidx = u.opidx + 1 ∧ t.phase = .start ∧ ∃ r, t.results = u.results ++ [r])) := by
  cases h with
  | goes p h => subst h; exact ⟨rfl, .inl ⟨rfl, rfl⟩⟩
  | ends r h => subst h; exact ⟨rfl, .inr ⟨rfl, rfl, r, rfl⟩⟩

/-! ### Each operation as its loop -/

theorem exec_regRead_ready {s : State} (h : Ready s) (a : Addr) :
    exec (.regRead a) s = readThen a s fun v t => finish (.u32 v) t := by
  obtain ⟨⟨hf, hr⟩, hp⟩ := h
  simp [exec, execRegRead, whileRunning_of hf hr, hp, startOnly]

theorem exec_regWrite_ready {s : State} (h : Ready s) (a : Addr) (v : Word) :
    exec (.regWrite a v) s = writeThen a v s fun t => finish .unit t := by
  obtain ⟨⟨hf, hr⟩, hp⟩ := h
  simp [exec, execRegWrite, whileRunning_of hf hr, hp, startOnly]

theorem exec_ticks_running {s : State} (h : Running s) {p : TicksPhase} (hp : ticksPhase s.phase = some p) :
    exec .ticks s = ticksStep .ticks (fun v t => finish (.u64 v) t) s p := by
  simp [exec, execTicks, whileRunning_of h.1 h.2, hp]

theorem exec_uptimeSeconds_running {s : State} (h : Running s) {p : TicksPhase} (hp : ticksPhase s.phase = some p) :
    exec .uptimeSeconds s = ticksStep .ticks (fun v t => finish (.u32 (secondsOf v)) t) s p := by
  simp [exec, execUptimeSeconds, whileRunning_of h.1 h.2, hp]

theorem exec_delayUs_running {s : State} (h : Running s) {n : Word} {d : DelayPhase} (hp : delayPhase s.phase = some d) :
    exec (.delayUs n) s = delayStep n .delay (finish .unit) s d := by
  simp [exec, execDelayUs, whileRunning_of h.1 h.2, hp]

/-- A sending operation is the gated sending of its bytes. -/
theorem exec_sending_running {i : Instr} {bs : List Byte} {s : State} {p : List Byte × Bool} (hb : sendBytes i = some bs)
    (h : Running s) (hp : sendPhase bs s.phase = some p) : exec i s = sendStep s p := by
  cases i <;> simp [sendBytes] at hb <;> subst hb <;>
    simp only [exec, execPutChar, execPutString, execPutHex, whileRunning_of h.1 h.2, hp, inPhase_some]

theorem exec_getChar_poll {s : State} (h : Running s) (hp : s.phase = .start) :
    exec .getChar s = readThen uartFrAddr s fun f t => goTo (if rxfeOf f then .start else .recv) t := by
  simp only [exec, execGetChar, whileRunning_of h.1 h.2, hp, recvPhase, inPhase_some]

theorem exec_getChar_read {s : State} (h : Running s) (hp : s.phase = .recv) :
    exec .getChar s = readThen uartDrAddr s fun v t => finish (.u8 (lowByte v)) t := by
  simp only [exec, execGetChar, whileRunning_of h.1 h.2, hp, recvPhase, inPhase_some]

/-- No hexadecimal digit is a line feed, so PUT_HEX sends its ten characters as they are (R134). -/
theorem stringBytes_hexChars (n : Word) : stringBytes (hexChars n) = hexChars n := by
  have h : ∀ d : BitVec 4, hexDigit d ≠ 0x0A#8 := by decide
  simp [stringBytes, hexChars, lineBytes, h]

/-! ### An operation run under an interleaving -/

@[simp] theorem runOp_nil (i : Instr) (s : State) : runOp i [] s = .next s := rfl

/-- One window and one controller step of an operation under an interleaving. -/
theorem runOp_cons_of_next {i : Instr} {w : List EnvAgent} {s t : State} (h : exec i (envRun w s) = .next t)
    (ws : List (List EnvAgent)) :
    runOp i (w :: ws) s = if t.opidx = s.opidx ∧ stopped t = false then runOp i ws t else .next t := by
  simp [runOp, h]

/-- No environment step sets a mark. -/
theorem running_envRun {s : State} (h : Running s) (w : List EnvAgent) : Running (envRun w s) :=
  ⟨by simp [h.1], by simp [h.2]⟩

/-- An operation in progress under an interleaving: where every window and controller step from `P` answers a state of `P` with the
operation still in progress, or one of `Q`, every run answers one or the other. -/
theorem runOp_induction {i : Instr} {P Q : State → Prop} {s : State}
    (hstep : ∀ u w, P u → ∃ t, exec i (envRun w u) = .next t ∧
      ((t.opidx = u.opidx ∧ stopped t = false ∧ P t) ∨ ((t.opidx ≠ u.opidx ∨ stopped t = true) ∧ Q t)))
    (ws : List (List EnvAgent)) (hs : P s) : ∃ t, runOp i ws s = .next t ∧ (P t ∨ Q t) := by
  induction ws generalizing s with
  | nil => exact ⟨s, rfl, .inl hs⟩
  | cons w ws ih =>
    obtain ⟨t, ht, ⟨ho, hr, hP⟩ | ⟨hn, hQ⟩⟩ := hstep s w hs
    · rw [runOp_cons_of_next ht, if_pos ⟨ho, hr⟩]
      exact ih hP
    · rw [runOp_cons_of_next ht, if_neg (by rintro ⟨h1, h2⟩; rcases hn with hn | hn <;> simp_all)]
      exact ⟨t, rfl, .inr hQ⟩

/-- The counter after an environment step. -/
theorem envStep_ctr (a : EnvAgent) (s : State) : (envStep a s).ctr = if a = .timer then s.ctr + 1#64 else s.ctr := by
  rcases envStep_cases a s with ⟨rfl, h⟩ | ⟨rfl, -, h⟩ | ⟨rfl, b, r, -, h⟩ | ⟨rfl, -, h⟩ | ⟨rfl, b, r, -, -, h⟩ |
    ⟨rfl, b, r, -, -, h⟩ <;> simp [h]

end Sys2Proof.Machine
end

