-- ==== Sys2Proof/Tests/Slice0.lean ====
section
/-! SUPPORT. Tests: words written out from the spec's selector map, single steps against the vectors of 95_test_vectors.md, and a
witness for the hypotheses of every statement. Expected values are the spec's. -/

namespace Sys2Proof.Tests

open Sys2Proof Sys2Proof.Machine

/-- The state a step answers, if it answers one. -/
def after (o : Exec) : Option State :=
  match o with
  | .next t => some t
  | .fault _ => none
  | .refused _ => none

/-- The entry state about to run one operation. -/
def launch (i : Instr) : State := { State.reset with prog := [encode i] }

/-- The entry state in the middle of one operation. -/
def inside (i : Instr) (p : Phase) : State := { launch i with phase := p }

/-! ### WellFormed -/

/-- R72: the one check of WellFormed refuses a string that holds 0x00. -/
theorem test_wellFormed_refuses_nul : (Instr.putString [0x41#8, 0x00#8, 0x42#8]).wellFormed = false := by decide

theorem test_wellFormed_admits_nul_char : (Instr.putChar 0x00#8).wellFormed = true := by decide

/-! ### Decoding: every constructor from a word written out from R71 and R73 -/

theorem test_decode_regRead : decode ⟨0b00000001#8, [.u64 0x107d001018#64]⟩ = .ok (.regRead 0x107d001018#64) := by decide
theorem test_decode_regWrite :
    decode ⟨0b00000010#8, [.u64 0x107c003004#64, .u32 0x141#32]⟩ = .ok (.regWrite 0x107c003004#64 0x141#32) := by decide
theorem test_decode_ticks : decode ⟨0b00010000#8, []⟩ = .ok .ticks := by decide
theorem test_decode_delayUs : decode ⟨0b00010001#8, [.u32 5#32]⟩ = .ok (.delayUs 5#32) := by decide
theorem test_decode_delayMs : decode ⟨0b00010010#8, [.u32 100#32]⟩ = .ok (.delayMs 100#32) := by decide
theorem test_decode_uptimeSeconds : decode ⟨0b00010011#8, []⟩ = .ok .uptimeSeconds := by decide
theorem test_decode_uartInit : decode ⟨0b00100000#8, []⟩ = .ok .uartInit := by decide
theorem test_decode_putChar : decode ⟨0b00100001#8, [.u8 0x5A#8]⟩ = .ok (.putChar 0x5A#8) := by decide
theorem test_decode_putString :
    decode ⟨0b00100010#8, [.bytes [0x48#8, 0x69#8, 0x0A#8]]⟩ = .ok (.putString [0x48#8, 0x69#8, 0x0A#8]) := by decide
theorem test_decode_getChar : decode ⟨0b00100011#8, []⟩ = .ok .getChar := by decide
theorem test_decode_putHex : decode ⟨0b00100100#8, [.u32 0x2A#32]⟩ = .ok (.putHex 0x2A#32) := by decide
theorem test_decode_gpioSetFunction :
    decode ⟨0b00110000#8, [.u32 29#32, .u32 0x25#32]⟩ = .ok (.gpioSetFunction 29#32 0x25#32) := by decide
theorem test_decode_gpioSetOutput : decode ⟨0b00110001#8, [.u32 31#32]⟩ = .ok (.gpioSetOutput 31#32) := by decide
theorem test_decode_gpioSetInput : decode ⟨0b00110010#8, [.u32 31#32]⟩ = .ok (.gpioSetInput 31#32) := by decide
theorem test_decode_gpioSet :
    decode ⟨0b00110011#8, [.u32 29#32, .bool true]⟩ = .ok (.gpioSet 29#32 true) := by decide
theorem test_decode_gpioGet : decode ⟨0b00110100#8, [.u32 29#32]⟩ = .ok (.gpioGet 29#32) := by decide
theorem test_decode_ledOn : decode ⟨0b00110101#8, [.u32 31#32]⟩ = .ok (.ledOn 31#32) := by decide
theorem test_decode_ledOff : decode ⟨0b00110110#8, [.u32 31#32]⟩ = .ok (.ledOff 31#32) := by decide
theorem test_decode_blinkActivityLed : decode ⟨0b00110111#8, []⟩ = .ok .blinkActivityLed := by decide

/-- 95_test_vectors.md 2.1: the decoder's refusals. -/
theorem test_decode_refusals :
    [0x00#8, 0x03#8, 0x38#8, 0xFF#8].map (fun b => decode ⟨b, []⟩) =
      [0x00#8, 0x03#8, 0x38#8, 0xFF#8].map (fun b => .error (.noSuchOperation b)) := by decide

theorem test_decode_nul : decode ⟨0x22#8, [.bytes [0x41#8, 0x00#8, 0x42#8]]⟩ = .error .nulInString := by decide

theorem test_decode_empty_string : decode ⟨0x22#8, [.bytes []]⟩ = .ok (.putString []) := by decide

/-- R77: a word with the slots of another format is no operation word (log 8). -/
theorem test_decode_wrong_slots : decode ⟨0x01#8, [.u32 0#32]⟩ = .error (.slotMismatch 0x01#8) := by decide

/-- The opcode table's words, in its order. -/
theorem test_decodeTableWord :
    [0x01, 0x02, 0x10, 0x11, 0x12, 0x13, 0x20, 0x21, 0x22, 0x23, 0x24, 0x30, 0x31, 0x32, 0x33, 0x34, 0x35, 0x36, 0x37].map
        (fun w => (decodeTableWord 8 w).map Instr.op) = allOps.map some := by decide

/-- A word with operand bits above the selector (log 8). -/
theorem test_decodeTableWord_operand : decodeTableWord 40 0x0000002A24 = some (.putHex 0x2A#32) := by decide

/-- R78: `\x00` in a string literal assembles to a word the decoder refuses; a character literal is a byte operand. -/
theorem test_assemble : assemble ["put_char '\\n'", "", "set 29, 1 ; on", "put_string \"\\x41\\\\;\""] =
    .ok [encode (.putChar 0x0A#8), encode (.gpioSet 29#32 true), encode (.putString [0x41#8, 0x5C#8, 0x3B#8])] := by decide

theorem test_assemble_error : assemble ["jump 3"] = .error .unknownName := by decide

/-! ### One step of each operation (95_test_vectors.md section 2) -/

theorem test_regRead_timerHi :
    (after (exec (.regRead 0x107c003008#64) { State.reset with ctr := 0x123456789ABCDEF0#64 })).map
        (fun t => (t.results, t.trace, t.opidx)) =
      some ([.u32 0x12345678#32], [.rd 0x107c003008#64 0x12345678#32], 1) := by decide

theorem test_regRead_past_the_last_pin :
    (after (exec (.regRead 0x1f000d0104#64) State.reset)).map (fun t => (t.fault, t.results, t.trace)) =
      some (some (.unmapped 0x1f000d0104#64), [], []) := by decide

theorem test_regWrite_uartDr :
    (after (exec (.regWrite 0x107d001000#64 0x141#32) State.reset)).map (fun t => (t.tx, t.trace, t.results)) =
      some ([0x41#8], [.wr 0x107d001000#64 0x141#32], [.unit]) := by decide

theorem test_regWrite_faults :
    [(0x107d001000#64, 0x41#32), (0x107c003004#64, 0#32), (0x107d001004#64, 0#32)].map
        (fun p => (after (exec (.regWrite p.1 p.2) { State.reset with tx := [1#8, 2#8, 3#8, 4#8] })).map (·.fault)) =
      [some (some .txOverflow), some (some (.readOnly 0x107c003004#64)), some (some (.unmapped 0x107d001004#64))] := by decide

theorem test_ticks_composes :
    (after (exec .ticks { inside .ticks (.ticks (.hi2 2#32 0x80000000#32)) with ctr := 0x280000000#64 })).map
        (fun t => (t.results, t.phase)) = some ([.u64 0x280000000#64], .start) := by decide

/-- The torn read of R110: the high half moved, so the iteration starts again. -/
theorem test_ticks_retries :
    (after (exec .ticks { inside .ticks (.ticks (.hi2 0#32 0#32)) with ctr := 0x100000000#64 })).map
        (fun t => (t.results, t.phase, t.opidx)) = some ([], .ticks .hi1, 0) := by decide

/-- `start = 2^64 - 2`, `now = 3`: exactly five microseconds. -/
theorem test_delayUs_wraps :
    (after (exec (.delayUs 5#32) { inside (.delayUs 5#32) (.delay (.spin 0xFFFFFFFFFFFFFFFE#64 (.hi2 0#32 3#32))) with
      ctr := 3#64 })).map (·.results) = some [.unit] := by decide

theorem test_delayUs_spins :
    (after (exec (.delayUs 1#32) { inside (.delayUs 1#32) (.delay (.spin 7#64 (.hi2 0#32 7#32))) with ctr := 7#64 })).map
        (fun t => (t.results, t.phase)) = some ([], .delay (.spin 7#64 .hi1)) := by decide

/-- `delay_ms 4294968` waits as `delay_us 704`. -/
theorem test_delayMs_overflow :
    [703#32, 704#32].map (fun lo => (after (exec (.delayMs 4294968#32)
      (inside (.delayMs 4294968#32) (.delay (.spin 0#64 (.hi2 0#32 lo)))))).map (·.results)) =
      [some [], some [.unit]] := by decide

theorem test_uptimeSeconds :
    [(0#32, 999999#32), (0#32, 1000000#32), (0#32, 3661000000#32), (0xFFFFFFFF#32, 0xFFFFFFFF#32)].map
        (fun p => (after (exec .uptimeSeconds { inside .uptimeSeconds (.ticks (.hi2 p.1 p.2)) with
          ctr := composeTicks p.1 p.2 })).map (·.results)) =
      [some [.u32 0#32], some [.u32 1#32], some [.u32 3661#32], some [.u32 4154504685#32]] := by decide

theorem test_uartInit : (after (exec .uartInit State.reset)).map (fun t => (t.results, t.trace)) = some ([.unit], []) := by decide

/-- The carriage return goes first, after its own poll. -/
theorem test_putChar_polls_first :
    (after (exec (.putChar 0x0A#8) State.reset)).map (·.phase) = some (.send [0x0D#8, 0x0A#8] true) := by
  rw [exec_sending_running (bs := [0x0D#8, 0x0A#8]) (p := ([0x0D#8, 0x0A#8], false)) rfl ⟨rfl, rfl⟩ rfl, sendStep_poll]; rfl

/-- After the carriage return the line feed is polled for again. -/
theorem test_putChar_polls_again :
    (after (exec (.putChar 0x0A#8) (inside (.putChar 0x0A#8) (.send [0x0D#8, 0x0A#8] true)))).map
        (fun t => (t.tx, t.phase, t.trace)) =
      some ([0x0D#8], .send [0x0A#8] false, [.wr 0x107d001000#64 0x0D#32]) := by decide

theorem test_putString_empty :
    (after (exec (.putString []) State.reset)).map (fun t => (t.results, t.trace)) = some ([.unit], []) := by decide

/-- An `0x0D 0x0A` pair goes out as `0x0D 0x0D 0x0A`. -/
theorem test_putString_bytes : opBytes (.putString [0x0D#8, 0x0A#8]) = [0x0D#8, 0x0D#8, 0x0A#8] := by decide

theorem test_getChar_reads :
    (after (exec .getChar { inside .getChar .recv with rx := [0x41#8, 0x42#8] })).map (fun t => (t.results, t.rx)) =
      some ([.u8 0x41#8], [0x42#8]) := by
  rw [exec_getChar_read ⟨rfl, rfl⟩ rfl, readThen_uartDr_cons rfl, lowByte_drWord]; rfl

theorem test_getChar_waits : (after (exec .getChar State.reset)).map (·.phase) = some .start := by
  rw [exec_getChar_poll ⟨rfl, rfl⟩ rfl, readThen_uartFr, rxfeOf_frWord]; rfl

theorem test_putHex_bytes :
    opBytes (.putHex 0xDEADBEEF#32) =
      [0x30#8, 0x78#8, 0x44#8, 0x45#8, 0x41#8, 0x44#8, 0x42#8, 0x45#8, 0x45#8, 0x46#8] := by decide

theorem test_gpioSetFunction_masks :
    (after (exec (.gpioSetFunction 29#32 0x25#32) { inside (.gpioSetFunction 29#32 0x25#32) (.rmw 0xABCDEF82#32) with
      gpioCtrl := [(29, 0xABCDEF82#32)] })).map (fun t => (t.gpioCtrl, t.trace, t.results)) =
      some ([(29, 0xABCDEF85#32)], [.wr 0x1f000d00ec#64 0xABCDEF85#32], [.unit]) := by decide

/-- A control register that becomes what an unlisted one reads as leaves the list. -/
theorem test_gpioSetFunction_canonical :
    (after (exec (.gpioSetFunction 3#32 0#32) { inside (.gpioSetFunction 3#32 0#32) (.rmw 5#32) with
      gpioCtrl := [(3, 5#32)] })).map (·.gpioCtrl) = some [] := by decide

theorem test_gpioSetOutput_reads :
    (after (exec (.gpioSetOutput 31#32) State.reset)).map (fun t => (t.trace, t.phase)) =
      some ([.rd 0x1f000d00fc#64 0#32], .rmw 0#32) := by decide

theorem test_gpioSetInput_writes :
    (after (exec (.gpioSetInput 29#32) { inside (.gpioSetInput 29#32) (.rmw 0xFFFFFFFF#32) with
      gpioCtrl := [(29, 0xFFFFFFFF#32)] })).map (·.gpioCtrl) = some [(29, 0xFFFFFFE5#32)] := by decide

theorem test_gpioSet :
    [29#32, 40#32].map (fun p => (after (exec (.gpioSet p true) State.reset)).map (fun t => (t.results, t.fault))) =
      [some ([.unsupported], none), some ([], some (.pinRange 40#32))] := by decide

theorem test_gpioGet :
    (after (exec (.gpioGet 29#32) State.reset)).map (fun t => (t.results, t.trace)) = some ([.unsupported], []) := by decide

theorem test_ledOn :
    (after (exec (.ledOn 29#32) { inside (.ledOn 29#32) (.rmw 2#32) with gpioCtrl := [(29, 2#32)] })).map
        (fun t => (t.results, t.trace)) = some ([.unsupported], [.wr 0x1f000d00ec#64 5#32]) := by decide

theorem test_ledOff :
    (after (exec (.ledOff 31#32) { inside (.ledOff 31#32) (.rmw 5#32) with gpioCtrl := [(31, 5#32)] })).map
        (fun t => (t.results, t.gpioCtrl)) = some ([.unsupported], [(31, 5#32)]) := by decide

theorem test_blinkActivityLed_faults :
    (after (exec .blinkActivityLed { State.reset with params := { numGpioPins := 29, txDepth := 4, rxDepth := 4 } })).map
        (fun t => (t.fault, t.trace)) = some (some (.pinRange 29#32), []) := by decide

/-- After the first LED write the first delay begins. -/
theorem test_blinkActivityLed_delays :
    (after (exec .blinkActivityLed (inside .blinkActivityLed (.blink (.ledOn (some 0#32)))))).map
        (fun t => (t.phase, t.results, t.gpioCtrl)) = some (.blink (.delayOn (.first .hi1)), [], [(29, 5#32)]) := by decide

/-- R171, R172: the codes. -/
theorem test_codes :
    [faultCode (.unmapped 0#64), faultCode (.readOnly 0#64), faultCode .txOverflow, faultCode (.pinRange 0#32),
      refusalCode (.noSuchOperation 0#8), refusalCode .nulInString] =
      [some 1, some 2, some 3, some 4, some 0x80, some 0x81] := by decide

/-- The interface runs the word it is given as the first operation after reset: UART_INIT. -/
theorem test_withFetchWord :
    (after (step (State.reset.withFetchWord 8 0x20))).map (fun t => (t.results, t.opidx, t.turns)) =
      some ([.unit], 1, 1) := by decide

/-- A refused word (R75) sets the mark, and the step goes on answering next states. -/
theorem test_withFetchWord_refused :
    (after (step (State.reset.withFetchWord 8 0x38))).map (·.refused) = some (some (.noSuchOperation 0x38#8)) := by decide

/-- R36: a byte that arrives while `rx` is full is lost and counted. -/
theorem test_arrival_overflow :
    (envStep .arrival { State.reset with rx := [1#8, 2#8, 3#8, 4#8], hostIn := [5#8] }).rxLost = 1 := by decide

/-! ### Witnesses: concrete values that meet the hypotheses of each statement, together -/

/-- A state in the middle of a run, with every list occupied. -/
def busy (i : Instr) (p : Phase) : State :=
  { inside i p with
    ctr := 0xFFFFFFFF#64, gpioCtrl := [(0, 7#32), (31, 5#32)], tx := [1#8, 2#8], rx := [3#8], hostIn := [4#8, 5#8],
    lineOut := [6#8] }

/-- An accepted word, and its two sides. -/
theorem witness_DecodeAndEncodeAgree :
    decode ⟨0x22#8, [.bytes [0x01#8, 0xFF#8]]⟩ = .ok (.putString [0x01#8, 0xFF#8]) ∧
      encode (.putString [0x01#8, 0xFF#8]) = ⟨0x22#8, [.bytes [0x01#8, 0xFF#8]]⟩ ∧
      (Instr.putString [0x01#8, 0xFF#8]).wellFormed = true := by decide

/-- Every boundary of the reserved ranges, and a state that has reached such a word. -/
theorem witness_ReservedSelectorsAreRefused :
    (∀ b ∈ [0x00#8, 0x03#8, 0x0F#8, 0x14#8, 0x1F#8, 0x25#8, 0x2F#8, 0x38#8, 0xFF#8],
      b = 0x00#8 ∨ (0x03#8 ≤ b ∧ b ≤ 0x0F#8) ∨ (0x14#8 ≤ b ∧ b ≤ 0x1F#8) ∨ (0x25#8 ≤ b ∧ b ≤ 0x2F#8) ∨ 0x38#8 ≤ b) ∧
    Running { State.reset with prog := [⟨0x38#8, []⟩] } ∧
    fetch { State.reset with prog := [⟨0x38#8, []⟩] } = some ⟨0x38#8, []⟩ := by decide

/-- A controller that has reached a string with 0x00 at its end. -/
theorem witness_NulIsRefusedInStringsOnly :
    0x00#8 ∈ [0x41#8, 0x00#8] ∧ Running { State.reset with prog := [⟨0x22#8, [.bytes [0x41#8, 0x00#8]]⟩] } ∧
    fetch { State.reset with prog := [⟨0x22#8, [.bytes [0x41#8, 0x00#8]]⟩] } = some ⟨0x22#8, [.bytes [0x41#8, 0x00#8]]⟩ := by decide

/-- A word of each of the two answers. -/
theorem witness_DecoderAnswersEveryOperationWord :
    (⟨0x30#8, [.u32 0#32, .u32 0xFFFFFFFF#32]⟩ : OpWord).sel = Op.gpioSetFunction.sel ∧
    [Slot.u32 0#32, .u32 0xFFFFFFFF#32].map Slot.kind = Op.gpioSetFunction.format.slots ∧
    (⟨0x22#8, [.bytes [0x00#8]]⟩ : OpWord).sel = Op.putString.sel ∧
    [Slot.bytes [0x00#8]].map Slot.kind = Op.putString.format.slots := by decide

theorem witness_StepRunsTheFetchedOperation :
    (launch .ticks).env = [] ∧ Running (launch .ticks) ∧ (launch .ticks).prog[(launch .ticks).opidx]? = some ⟨0x10#8, []⟩ ∧
      decode ⟨0x10#8, []⟩ = .ok .ticks := by decide

theorem witness_MarksStopOnlyTheController :
    ({ launch .ticks with fault := some .txOverflow } : State).fault = some .txOverflow ∧
    ({ launch .ticks with refused := some .nulInString } : State).fault = none ∧
    ({ launch .ticks with refused := some .nulInString } : State).refused = some .nulInString ∧
    ({ launch .ticks with env := [.timer, .drain] } : State).env = .timer :: [.drain] := by decide

theorem witness_DoneControllerTakesNoStep :
    ({ launch .ticks with opidx := 1 } : State).opidx = (launch .ticks).prog.length := by decide

/-- The invariant at reset, in the middle of operations that hold a value or a gate, and at a mark. -/
theorem busy_inv_send : BlockInv (busy (.putString [0x41#8, 0x42#8]) (.send [0x42#8] true)) := by constructor <;> decide

theorem busy_inv_recv : BlockInv (busy .getChar .recv) := by constructor <;> decide

theorem busy_inv_rmw : BlockInv (busy (.gpioSetFunction 31#32 2#32) (.rmw 5#32)) := by constructor <;> decide

theorem busy_inv_blink : BlockInv (busy .blinkActivityLed (.blink (.delayOff (.spin 3#64 (.lo 0#32))))) := by
  constructor <;> decide

theorem witness_EveryStepKeepsTheInvariant :
    BlockInv (busy (.gpioSetFunction 31#32 2#32) (.rmw 5#32)) ∧ BlockInv (busy .getChar .recv) := ⟨busy_inv_rmw, busy_inv_recv⟩

/-- A step of each agent from a state of the invariant. -/
theorem witness_EveryAgentStepKeepsTheInvariant :
    AgentStep .controller (launch .uartInit) ((launch .uartInit).endOp .unit) ∧ BlockInv (launch .uartInit) ∧
    AgentStep (.env .timer) (busy .getChar .recv) (envStep .timer (busy .getChar .recv)) ∧
    AgentStep (.env .drain) (busy .getChar .recv) (envStep .drain (busy .getChar .recv)) ∧
    AgentStep (.env .arrival) (busy .getChar .recv) (envStep .arrival (busy .getChar .recv)) :=
  ⟨by rfl, by constructor <;> decide, ⟨rfl, rfl⟩, ⟨rfl, rfl⟩, ⟨rfl, rfl⟩⟩

/-- A controller step and an environment step of the machine; the hypothesis of StepIsAnInterleavedAgentStep, HistoryOnlyGrows,
OpidxAdvancesExactlyWithAResult, ProgramAndParametersNeverChange and CommittedOutputFollowsTheTrace. -/
theorem witness_step_next :
    step (launch .uartInit) = .next (((launch .uartInit).endOp .unit).openWindow) ∧
    step { busy .getChar .recv with env := [.drain] } =
      .next { busy .getChar .recv with lineOut := [6#8, 1#8], tx := [2#8] } := ⟨by rfl, by rfl⟩

/-- A step that writes UART_DR, for CommittedOutputFollowsTheTrace. -/
theorem witness_CommittedOutputFollowsTheTrace :
    (after (step (launch (.regWrite 0x107d001000#64 0x141#32)))).map committed = some [0x41#8] := by decide

/-- An answered step of an operation that appends to `tx`. -/
theorem witness_ControllerStepFrame :
    (after (exec (.regWrite 0x107d001000#64 1#32) (busy (.regWrite 0x107d001000#64 1#32) .start))).map (·.tx) =
      some [1#8, 2#8, 1#8] := by decide

/-- Both causes: a REG_WRITE of pin 0's control register, and a function select of the last pin. -/
theorem witness_ControlRegistersChangeOnlyAtTheirPin :
    (busy .ticks .start).gpioCtrl.wf = true ∧
    (after (exec (.regWrite 0x1f000d0004#64 1#32) (busy (.regWrite 0x1f000d0004#64 1#32) .start))).map
      (fun t => ctrlRead t.gpioCtrl 0) = some 1#32 ∧ ctrlRead (busy .ticks .start).gpioCtrl 0 = 7#32 ∧
    (after (exec (.gpioSetFunction 31#32 2#32) (busy (.gpioSetFunction 31#32 2#32) (.rmw 5#32)))).map
      (fun t => ctrlRead t.gpioCtrl 31) = some 2#32 ∧ ctrlRead (busy .ticks .start).gpioCtrl 31 = 5#32 := by decide

/-- Each of the four causes: both kinds of sender, both kinds of reader. -/
theorem witness_FifosChangeOnlyByTheirOperations :
    (after (exec (.putChar 9#8) (busy (.putChar 9#8) (.send [9#8] true)))).map (·.tx) = some [1#8, 2#8, 9#8] ∧
    (after (exec (.regWrite 0x107d001000#64 9#32) (busy (.regWrite 0x107d001000#64 9#32) .start))).map (·.tx) =
      some [1#8, 2#8, 9#8] ∧
    (after (exec .getChar (busy .getChar .recv))).map (·.rx) = some [] ∧
    (after (exec (.regRead 0x107d001000#64) (busy (.regRead 0x107d001000#64) .start))).map (·.rx) = some [] :=
  ⟨by decide, by decide, by rfl, by rfl⟩

/-- A step that raises each of the four faults, at a boundary of its condition. -/
theorem witness_FaultsArePreciseAndNamed :
    BlockInv (launch (.regRead 0x1f000d0100#64)) ∧
    (after (step (launch (.regRead 0x1f000d0100#64)))).map (·.fault) = some (some (.unmapped 0x1f000d0100#64)) ∧
    BlockInv (launch (.regWrite 0x1f000d00f8#64 0#32)) ∧
    (after (step (launch (.regWrite 0x1f000d00f8#64 0#32)))).map (·.fault) = some (some (.readOnly 0x1f000d00f8#64)) ∧
    BlockInv { launch (.regWrite 0x107d001000#64 0#32) with tx := [1#8, 2#8, 3#8, 4#8] } ∧
    (after (step { launch (.regWrite 0x107d001000#64 0#32) with tx := [1#8, 2#8, 3#8, 4#8] })).map (·.fault) =
      some (some .txOverflow) ∧
    BlockInv (launch (.ledOff 32#32)) ∧
    (after (step (launch (.ledOff 32#32)))).map (·.fault) = some (some (.pinRange 32#32)) :=
  ⟨by constructor <;> decide, by decide, by constructor <;> decide, by decide, by constructor <;> decide, by decide,
    by constructor <;> decide, by decide⟩

theorem witness_DrainAndArrivalMoveOneByte :
    (busy .ticks .start).tx = 1#8 :: [2#8] ∧ (busy .ticks .start).hostIn = 4#8 :: [5#8] := by decide

theorem witness_MisalignedAccessFaultsUnmapped :
    MappedAddress 32 0x1f000d00fc#64 ∧ MappedAddress 32 0x107d001018#64 ∧ Ready State.reset ∧
      (0x107d001002#64 : Addr).toNat % 4 ≠ 0 := by
  refine ⟨.inl ⟨31, by decide, .inr (by decide)⟩, .inr (by decide), by decide, by decide⟩

/-- The last pin's two registers, the four others, and the first address past the last pin. -/
theorem witness_RegReadAtEachAddress :
    Ready (busy .ticks .start) ∧ 31 < (busy .ticks .start).params.numGpioPins ∧
    (0x1f000d00f8#64 : Addr).toNat = 0x1f000d0000 + 8 * 31 ∧ (0x1f000d00fc#64 : Addr).toNat = 0x1f000d0004 + 8 * 31 ∧
    State.reset.rx = [] ∧ (busy .ticks .start).rx = 3#8 :: [] ∧
    ¬ MappedAddress (busy .ticks .start).params.numGpioPins 0x1f000d0100#64 := by
  refine ⟨by decide, by decide, by decide, by decide, by decide, by decide, ?_⟩
  rintro (⟨p, hp, h⟩ | h)
  · have hp' : p < 32 := hp
    have h' : 0x1f000d0100 = 0x1f000d0000 + 8 * p ∨ 0x1f000d0100 = 0x1f000d0004 + 8 * p := h
    omega
  · exact absurd h (by decide)

/-- The last pin's control register in a canonical bank, a full and a not full transmit FIFO, the last pin's status register and each
of the three other read-only registers. -/
theorem witness_RegWriteAtEachAddress :
    Ready (busy .ticks .start) ∧ (busy .ticks .start).gpioCtrl.wf = true ∧ 31 < (busy .ticks .start).params.numGpioPins ∧
    (0x1f000d00fc#64 : Addr).toNat = 0x1f000d0004 + 8 * 31 ∧
    (busy .ticks .start).tx.length ≠ (busy .ticks .start).params.txDepth ∧
    Ready { busy .ticks .start with tx := [1#8, 2#8, 3#8, 4#8] } ∧
    ({ busy .ticks .start with tx := [1#8, 2#8, 3#8, 4#8] } : State).tx.length = (busy .ticks .start).params.txDepth ∧
    ∀ a ∈ [0x1f000d00f8#64, 0x107c003004#64, 0x107c003008#64, 0x107d001018#64],
      ReadOnlyAddress (busy .ticks .start).params.numGpioPins a := by
  refine ⟨by decide, by decide, by decide, by decide, by decide, by decide, by decide, fun a h => ?_⟩
  rcases List.mem_cons.1 h with rfl | h
  · exact .inl ⟨31, by decide, by decide⟩
  · exact .inr h

/-- Each phase of a TICKS, with equal and with different high halves (`TicksSteps`, `StartsTicks`). -/
theorem witness_TicksReadsHighLowHigh :
    Ready (busy .ticks .start) ∧ Running (busy .ticks (.ticks .hi1)) ∧ Running (busy .ticks (.ticks (.lo 0#32))) ∧
    Running (busy .ticks (.ticks (.hi2 0#32 0xFFFFFFFF#32))) ∧
    (0#32 : Word) = (busy .ticks .start).ctr.extractLsb' 32 32 ∧ (1#32 : Word) ≠ (busy .ticks .start).ctr.extractLsb' 32 32 := by
  decide

theorem witness_UptimeDividesTheTicks :
    Ready (busy .uptimeSeconds .start) ∧ Running (busy .uptimeSeconds (.ticks (.hi2 0#32 0xFFFFFFFF#32))) := by decide

/-- A DELAY_US in its first TICKS, and in a later one whose value ends it (5) or does not (4). -/
theorem witness_DelayUsSpinsUntilElapsed :
    Ready (busy (.delayUs 5#32) .start) ∧ Running (busy (.delayUs 5#32) (.delay (.first (.hi2 0#32 1#32)))) ∧
    Running (busy (.delayUs 5#32) (.delay (.spin 1#64 (.hi2 0#32 6#32)))) ∧
    (5#32 : Word).toNat ≤ (6#64 - 1#64 : DWord).toNat ∧ ¬ (5#32 : Word).toNat ≤ (5#64 - 1#64 : DWord).toNat := by decide

theorem witness_DelayMsMultipliesModulo :
    Ready (busy (.delayMs 5#32) .start) ∧ (4294967#32 : Word).toNat ≤ 4294967 ∧ ¬ (4294968#32 : Word).toNat ≤ 4294967 := by
  decide

/-- The wrap of the low half after the first read, then an iteration that returns: 0x1_00000000. -/
theorem witness_TicksReturnsTheCounterAtItsLowRead :
    Running (busy .ticks (.ticks .hi1)) ∧ timerSteps [.timer] + timerSteps [] < 2 ^ 32 ∧
    (after (runOp .ticks [[.timer], [.timer, .drain], []] (busy .ticks (.ticks .hi1)))).map (fun t => (t.opidx, t.results)) =
      some (1, [.u64 0x100000001#64]) := by decide

theorem witness_TicksEndsWithinTwoIterations :
    Ready (busy .ticks .start) ∧ [[], [EnvAgent.timer], [], [.drain], [], [.timer]].length = 6 ∧
      (([[], [EnvAgent.timer], [], [.drain], [], [.timer]] : List (List EnvAgent)).tail.map timerSteps).sum < 2 ^ 32 := by decide

/-- A DELAY_US 2 that ends, with a timer step in every window and nine reads: the low half wraps in the first iteration, which does
not return; the second and the third return. -/
theorem witness_DelayWaitsAtLeastItsTicks :
    Ready { busy (.delayUs 2#32) .start with ctr := 0xFFFFFFFE#64 } ∧
    (∀ k, timerSteps ((List.replicate 9 [EnvAgent.timer]).getD k []) +
      timerSteps ((List.replicate 9 [EnvAgent.timer]).getD (k + 1) []) < 2 ^ 32) ∧
    (after (runOp (.delayUs 2#32) (List.replicate 9 [.timer]) { busy (.delayUs 2#32) .start with ctr := 0xFFFFFFFE#64 })).map
      (fun t => (t.opidx, t.results, t.trace.length)) = some (1, [.unit], 9) := by
  refine ⟨by decide, fun k => ?_, by decide⟩
  have h : ∀ j, timerSteps ((List.replicate 9 [EnvAgent.timer]).getD j []) ≤ 1 := by
    intro j
    by_cases hj : j < 9
    · interval_cases j <;> decide
    · simp [List.getD, hj, timerSteps]
  have h1 := h k
  have h2 := h (k + 1)
  omega

theorem witness_DelayEndsAfterSixReads :
    Ready (busy (.delayUs 5#32) .start) ∧ (5#32 : Word).toNat ≤ 5 ∧ 5 < 2 ^ 64 := by decide

theorem witness_UndisturbedTimerOperations : Ready (busy .ticks .start) := by decide

theorem witness_UartInitPerformsNoAccess : Ready (busy .uartInit .start) := by decide

/-- Each clause of `SendSteps`: nothing to send, a poll from the start and one in between, a last and an earlier write. -/
theorem witness_SendingOperationsPollThenWrite :
    Ready (busy (.putString []) .start) ∧ Ready (busy (.putChar 0x0A#8) .start) ∧ lineBytes 0x0A#8 ≠ [] ∧
    Running (busy (.putChar 0x0A#8) (.send [0x0A#8] false)) ∧ Running (busy (.putChar 0x0A#8) (.send [0x0A#8] true)) ∧
    (busy (.putChar 0x0A#8) (.send [0x0D#8, 0x0A#8] true)).tx.length ≠ (busy .ticks .start).params.txDepth := by decide

theorem witness_SendingOperationsHandOverExactlyTheirBytes :
    (sendBytes (.putHex 0x2A#32)).isSome = true ∧ Ready (busy (.putHex 0x2A#32) .start) ∧
      (busy (.putHex 0x2A#32) .start).tx.length ≤ (busy (.putHex 0x2A#32) .start).params.txDepth := by decide

theorem witness_LineFeedIsTwoGatedWrites :
    Ready (busy (.putChar 0x0A#8) .start) ∧
      (busy (.putChar 0x0A#8) .start).tx.length + 2 ≤ (busy (.putChar 0x0A#8) .start).params.txDepth := by decide

theorem witness_HexDigitsAreUppercaseAscii : (9#4 : BitVec 4).toNat ≤ 9 ∧ 10 ≤ (10#4 : BitVec 4).toNat := by decide

theorem witness_GetCharPollsThenReads :
    Ready (busy .getChar .start) ∧ Running (busy .getChar .recv) ∧ (busy .getChar .recv).rx = 3#8 :: [] := by decide

theorem witness_GetCharReturnsTheOldestByte :
    Ready (busy .getChar .start) ∧ 1 ≤ (busy .getChar .start).params.rxDepth := by decide

/-- Windows that hold the other agents' steps; a full transmit FIFO with one byte to send, and one with room for all but the last
byte; a host with nothing to send. -/
theorem witness_HangsAreNeverEnded :
    Ready (busy (.delayUs 1#32) .start) ∧ 0 < (1#32 : Word).toNat ∧
    Ready (busy (.delayMs 4294968#32) .start) ∧ 0 < (4294968#32 : Word).toNat * 1000 % 2 ^ 32 ∧
    Ready (busy .blinkActivityLed .start) ∧ 29 < (busy .blinkActivityLed .start).params.numGpioPins ∧
    (∀ w ∈ [[EnvAgent.drain, .arrival]], EnvAgent.timer ∉ w) ∧
    Ready { busy (.putChar 0x41#8) .start with tx := [1#8, 2#8, 3#8, 4#8] } ∧ (sendBytes (.putChar 0x41#8)).isSome = true ∧
    (busy (.putChar 0x41#8) .start).params.txDepth < [1#8, 2#8, 3#8, 4#8].length + (opBytes (.putChar 0x41#8)).length ∧
    Ready (busy (.putString [0x41#8, 0x0A#8]) .start) ∧ (sendBytes (.putString [0x41#8, 0x0A#8])).isSome = true ∧
    (busy (.putString [0x41#8, 0x0A#8]) .start).tx.length ≤ (busy (.putString [0x41#8, 0x0A#8]) .start).params.txDepth ∧
    (busy (.putString [0x41#8, 0x0A#8]) .start).params.txDepth <
      (busy (.putString [0x41#8, 0x0A#8]) .start).tx.length + (opBytes (.putString [0x41#8, 0x0A#8])).length ∧
    (∀ w ∈ [[EnvAgent.timer, .arrival]], EnvAgent.drain ∉ w) ∧
    Ready (launch .getChar) ∧ (launch .getChar).rx = [] ∧ (launch .getChar).hostIn = [] ∧ Ready (busy .ticks .start) := by decide

/-- The two phases of a function select of the last pin; the pin past it is not admitted. -/
theorem witness_FunctionSelectReadsThenWrites :
    Running (busy (.gpioSetOutput 31#32) .start) ∧ Running (busy (.gpioSetOutput 31#32) (.rmw 5#32)) ∧
    (31#32 : Word).toNat < (busy .ticks .start).params.numGpioPins ∧
    ¬ (32#32 : Word).toNat < (busy .ticks .start).params.numGpioPins := by decide

theorem witness_FunctionSelectPreservesTheOtherBits :
    Ready (busy (.gpioSetFunction 31#32 2#32) .start) ∧ (busy (.gpioSetFunction 31#32 2#32) .start).gpioCtrl.wf = true ∧
      (31#32 : Word).toNat < (busy (.gpioSetFunction 31#32 2#32) .start).params.numGpioPins := by decide

/-- The first pin that is not admitted, and a controller with no activity LED. -/
theorem witness_PinOutOfRangeFaults :
    Ready (busy (.gpioGet 32#32) .start) ∧ (busy (.gpioGet 32#32) .start).params.numGpioPins ≤ (32#32 : Word).toNat ∧
    Ready { launch .blinkActivityLed with params := { numGpioPins := 29, txDepth := 4, rxDepth := 4 } } ∧
    ({ launch .blinkActivityLed with params := { numGpioPins := 29, txDepth := 4, rxDepth := 4 } } : State).params.numGpioPins ≤
      (29#32 : Word).toNat := by decide

theorem witness_PinLevelOperationsAreUnsupported :
    Ready (busy (.gpioSet 31#32 false) .start) ∧ (31#32 : Word).toNat < (busy .ticks .start).params.numGpioPins ∧
      ¬ (32#32 : Word).toNat < (busy .ticks .start).params.numGpioPins := by decide

/-- The phases BLINK_ACTIVITY_LED goes through, with its pin admitted. -/
theorem witness_BlinkRunsItsFourCalls :
    Ready (busy .blinkActivityLed .start) ∧ Running (busy .blinkActivityLed (.blink (.ledOn (some 0#32)))) ∧
    Running (busy .blinkActivityLed (.blink (.delayOn (.spin 0#64 (.hi2 0#32 100000#32))))) ∧
    Running (busy .blinkActivityLed (.blink (.ledOff none))) ∧
    (29#32 : Word).toNat < (busy .blinkActivityLed .start).params.numGpioPins := by decide

/-! ### Witnesses: infinite executions under the fairness assumptions -/

/-- A DELAY_US of 0 run to its end by six controller steps, then the timer alone. -/
def delayRun : Nat → State
  | 0 => launch (.delayUs 0#32)
  | n + 1 => if n < 6 then (after (controllerTurn (delayRun n))).getD (delayRun n) else envStep .timer (delayRun n)

def delayWho (n : Nat) : Agent := if n < 6 then .controller else .env .timer

theorem delayRun_execution : IsExecution delayRun delayWho := by
  intro n
  by_cases h : n < 6
  · have hsome : (after (controllerTurn (delayRun n))).isSome = true := by interval_cases n <;> rfl
    have hnext : delayRun (n + 1) = (after (controllerTurn (delayRun n))).getD (delayRun n) := if_pos h
    rw [show delayWho n = .controller from if_pos h, hnext]
    unfold AgentStep
    cases hc : controllerTurn (delayRun n) with
    | next t => exact hc
    | fault r => simp [hc, after] at hsome
    | refused r => simp [hc, after] at hsome
  · rw [show delayWho n = .env .timer from if_neg h]
    exact ⟨rfl, if_neg h⟩

theorem delayRun_done (j : Nat) : fetch (delayRun (6 + j)) = none := by
  induction j with
  | zero => rfl
  | succ j ih =>
    rw [show delayRun (6 + (j + 1)) = envStep .timer (delayRun (6 + j)) from if_neg (show ¬ 6 + j < 6 by omega)]
    simpa [fetch] using ih

theorem delayWho_count (n len : Nat) (h : n + len ≤ 6) : countMoves delayWho (.env .timer) n len = 0 := by
  induction len with
  | zero => rfl
  | succ len ih =>
    have hw : delayWho (n + len) = .controller := if_pos (by omega)
    simp [countMoves, hw, ih (by omega)]

theorem witness_DelayEndsUnderFairness :
    IsExecution delayRun delayWho ∧ CtrlFair delayRun delayWho ∧ TimerFair delayWho ∧ TimerSlow delayWho ∧
      Ready (delayRun 0) ∧ current (delayRun 0) = some (.delayUs 0#32) := by
  refine ⟨delayRun_execution, fun n => ⟨6 + n, by omega, .inr (.inr (delayRun_done n))⟩,
    fun n => ⟨6 + n, by omega, if_neg (by omega)⟩, fun n len hn _ hlast => ?_, by decide, by decide⟩
  have h6 : ∀ k, delayWho k = .controller → k < 6 := fun k hk => by
    by_contra hn
    simp [delayWho, hn] at hk
  cases len with
  | zero => simp [countMoves]
  | succ len =>
    have := h6 _ (hlast (by omega))
    rw [delayWho_count n (len + 1) (by omega)]
    omega

/-- A PUT_CHAR of 'A' after its poll. -/
def sendPolled : State :=
  ((launch (.putChar 0x41#8)).countDraw.logEvent (.rd uartFrAddr (frWord (Config.draw 0) true false))).setPhase
    (.send [0x41#8] true)

/-- The same after its write. -/
def sendDone : State :=
  (({ sendPolled with tx := [0x41#8] } : State).logEvent (.wr uartDrAddr (byteWord 0x41#8))).endOp .unit

/-- A PUT_CHAR of 'A' run to its end by two controller steps, then a drain step, then the timer alone. -/
def sendRun : Nat → State
  | 0 => launch (.putChar 0x41#8)
  | 1 => sendPolled
  | 2 => sendDone
  | 3 => envStep .drain sendDone
  | n + 4 => envStep .timer (sendRun (n + 3))

def sendWho : Nat → Agent
  | 0 => .controller
  | 1 => .controller
  | 2 => .env .drain
  | _ + 3 => .env .timer

theorem sendRun_execution : IsExecution sendRun sendWho
  | 0 => by
    show controllerTurn (launch (.putChar 0x41#8)) = .next sendPolled
    rw [show controllerTurn (launch (.putChar 0x41#8)) = exec (.putChar 0x41#8) (launch (.putChar 0x41#8)) from rfl,
      exec_sending_running (bs := [0x41#8]) (p := ([0x41#8], false)) rfl ⟨rfl, rfl⟩ rfl, sendStep_poll]
    rfl
  | 1 => by
    show controllerTurn sendPolled = .next sendDone
    rw [show controllerTurn sendPolled = exec (.putChar 0x41#8) sendPolled from rfl,
      exec_sending_running (bs := [0x41#8]) (p := ([0x41#8], true)) rfl ⟨rfl, rfl⟩ rfl, sendStep_write rfl]
    rfl
  | 2 => ⟨rfl, rfl⟩
  | _ + 3 => ⟨rfl, rfl⟩

theorem sendRun_done (j : Nat) : fetch (sendRun (3 + j)) = none ∧ (sendRun (3 + j)).tx = [] := by
  induction j with
  | zero => exact ⟨rfl, rfl⟩
  | succ j ih =>
    rw [show 3 + (j + 1) = j + 4 by omega, show sendRun (j + 4) = envStep .timer (sendRun (j + 3)) from rfl,
      show j + 3 = 3 + j by omega]
    exact ⟨by simpa [fetch] using ih.1, ih.2⟩

theorem witness_SendingEndsUnderFairness :
    IsExecution sendRun sendWho ∧ CtrlFair sendRun sendWho ∧ TxDrainFair sendRun sendWho ∧ BlockInv (sendRun 0) ∧
      Ready (sendRun 0) ∧ 1 ≤ (sendRun 0).params.txDepth ∧ current (sendRun 0) = some (.putChar 0x41#8) ∧
      (sendBytes (.putChar 0x41#8)).isSome = true := by
  refine ⟨sendRun_execution, fun n => ⟨3 + n, by omega, .inr (.inr (sendRun_done n).1)⟩, fun n h => ?_,
    by constructor <;> decide, by decide, by decide, by decide, by decide⟩
  exact absurd (sendRun_done n).2 (h (3 + n) (by omega))

end Sys2Proof.Tests
end

/-! SUPPORT. The statements about the block as a whole (00_scope.md): the frame of one controller step, a step as one agent's
step, and the invariant kept by every agent. -/

namespace Sys2Proof.Machine

/-! ### The controller's turn and the step -/

/-- A running controller at a word that decodes takes one step of its operation (R8, R22). -/
theorem controllerTurn_of_decode {s : State} {w : OpWord} {i : Instr} (hrun : Running s) (hw : fetch s = some w)
    (hi : decode w = .ok i) : controllerTurn s = exec i s := by
  obtain ⟨hf, hr⟩ := hrun
  simp [controllerTurn, stopped, hf, hr, hw, hi]

/-- With no environment step due the controller has its turn, and a window opens after it (R8, log 1). -/
theorem step_of_env_nil {s : State} (h : s.env = []) :
    step s = match controllerTurn s with
      | .next t => .next t.openWindow
      | .fault r => .fault r
      | .refused r => .refused r := by
  cases s; cases h; rfl

/-- A step is a due environment step, or a turn of the controller with the opening of a window. -/
theorem step_turn_cases {s t : State} (h : step s = .next t) :
    (∃ a rest, s.env = a :: rest ∧ t = envStep a { s with env := rest }) ∨
      ∃ u, controllerTurn s = .next u ∧ t = u.openWindow := by
  cases he : s.env with
  | cons a rest =>
    simp only [step, he, Host.Outcome.next.injEq] at h
    exact .inl ⟨a, rest, rfl, h.symm⟩
  | nil =>
    rw [step_of_env_nil he] at h
    cases hu : controllerTurn s with
    | next u => rw [hu] at h; cases h; exact .inr ⟨u, rfl, rfl⟩
    | fault r => rw [hu] at h; cases h
    | refused r => rw [hu] at h; cases h

/-- What a turn of the controller is: nothing, the refusal of the word it has reached, or one step of the operation. -/
theorem controllerTurn_cases {s t : State} (h : controllerTurn s = .next t) :
    t = s ∨ (current s = none ∧ ∃ r, t = s.markRefused r) ∨ ∃ i, current s = some i ∧ exec i s = .next t := by
  unfold controllerTurn at h
  split at h
  · cases h; exact .inl rfl
  · split at h
    · cases h; exact .inl rfl
    · rename_i w hw
      split at h
      · rename_i r hd; cases h; exact .inr (.inl ⟨by simp [current, hw, hd], r, rfl⟩)
      · rename_i i hd; exact .inr (.inr ⟨i, by simp [current, hw, hd], h⟩)

/-- Settles O7, by the two equations above. -/
theorem stepRunsTheFetchedOperation : Obligations.StepRunsTheFetchedOperation := by
  intro s w i henv hrun hw hi
  rw [step_of_env_nil henv, controllerTurn_of_decode hrun hw hi]
  cases exec i s <;> rfl

/-- An environment agent acts alike whatever stands in the model's own schedule (log 1). -/
theorem envStep_with_env (a : EnvAgent) (s : State) (rest : List EnvAgent) :
    envStep a { s with env := rest } = { envStep a s with env := rest } := by
  rcases envStep_cases a s with ⟨rfl, h⟩ | ⟨rfl, htx, h⟩ | ⟨rfl, b, bs, htx, h⟩ | ⟨rfl, hin, h⟩ |
    ⟨rfl, b, bs, hin, hroom, h⟩ | ⟨rfl, b, bs, hin, hfull, h⟩
  · rfl
  all_goals simp [envStep, *]

/-- An environment agent that is not enabled changes nothing (log 15). -/
theorem envStep_of_not_enabled {a : EnvAgent} {s : State} (h : envEnabled a s = false) : envStep a s = s := by
  cases a with
  | timer => simp [envEnabled] at h
  | drain =>
    have htx : s.tx = [] := by simpa [envEnabled] using h
    simp [envStep, htx]
  | arrival =>
    have hin : s.hostIn = [] := by simpa [envEnabled] using h
    simp [envStep, hin]

/-- Settles O10: the environment step that is due is a step of its agent where it is enabled and nothing where it is not; the
controller's turn is the controller's step. -/
theorem stepIsAnInterleavedAgentStep : Obligations.StepIsAnInterleavedAgentStep := by
  intro s t h
  rcases step_turn_cases h with ⟨a, rest, -, rfl⟩ | ⟨u, hu, rfl⟩
  · rw [envStep_with_env]
    cases he : envEnabled a s with
    | true => exact ⟨envStep a s, .inr ⟨.env a, he, rfl⟩, rfl⟩
    | false => exact ⟨s, .inl rfl, by rw [envStep_of_not_enabled he]⟩
  · exact ⟨u, .inr ⟨.controller, hu⟩, rfl⟩

/-! ### The frame of one controller step -/

/-- What an access may change: the environment's fields (R30, R31, R58), the decoder's mark (R24), the constants of a run (R5,
R22, R61, R177; log 13) and the schedule (log 1) stay; `tx` may gain a byte where it has room, `rx` lose its oldest, the trace
gain an event, an admitted pin's control register take a value. -/
structure AccessFrame (s t : State) : Prop where
  ctr : t.ctr = s.ctr
  lineOut : t.lineOut = s.lineOut
  hostIn : t.hostIn = s.hostIn
  rxLost : t.rxLost = s.rxLost
  refused : t.refused = s.refused
  params : t.params = s.params
  prog : t.prog = s.prog
  interruptsMasked : t.interruptsMasked = s.interruptsMasked
  uartConfigured : t.uartConfigured = s.uartConfigured
  turns : t.turns = s.turns
  env : t.env = s.env
  tx : t.tx = s.tx ∨ txFull s = false ∧ ∃ b, t.tx = s.tx ++ [b]
  rx : t.rx = s.rx ∨ t.rx = s.rx.tail
  trace : t.trace = s.trace ∨ ∃ e, t.trace = s.trace ++ [e]
  bank : t.gpioCtrl = s.gpioCtrl ∨ ∃ p v, p < s.params.numGpioPins ∧ t.gpioCtrl = ctrlWrite s.gpioCtrl p v

/-- No result and the same place in the program, or one result, the next place and the start of an operation (R21, R22). -/
def EndsAtMostOne (s t : State) : Prop :=
  (t.opidx = s.opidx ∧ t.results = s.results) ∨
    (t.opidx = s.opidx + 1 ∧ t.phase = .start ∧ ∃ r, t.results = s.results ++ [r])

theorem AccessFrame.refl (s : State) : AccessFrame s s :=
  ⟨rfl, rfl, rfl, rfl, rfl, rfl, rfl, rfl, rfl, rfl, rfl, .inl rfl, .inl rfl, .inl rfl, .inl rfl⟩

theorem devRead_frame {a : Addr} {s u : State} {v : Word} (h : devRead a s = .ok (v, u)) :
    AccessFrame s (u.logEvent (.rd a v)) ∧ u.opidx = s.opidx ∧ u.results = s.results := by
  obtain ⟨hu, hrx, -⟩ := devRead_ok h
  rw [hu]
  exact ⟨{ AccessFrame.refl s with rx := hrx, trace := .inr ⟨_, rfl⟩ }, rfl, rfl⟩

theorem devWrite_frame {a : Addr} {s u : State} {v : Word} (h : devWrite a v s = .ok u) :
    AccessFrame s (u.logEvent (.wr a v)) ∧ u.opidx = s.opidx ∧ u.results = s.results := by
  rcases devWrite_ok h with ⟨p, hp, rfl⟩ | ⟨-, hroom, rfl⟩
  · exact ⟨{ AccessFrame.refl s with
      trace := .inr ⟨_, rfl⟩, bank := .inr ⟨p, v, regAt_gpioCtrl_lt hp, rfl⟩ }, rfl, rfl⟩
  · exact ⟨{ AccessFrame.refl s with trace := .inr ⟨_, rfl⟩, tx := .inr ⟨hroom, _, rfl⟩ }, rfl, rfl⟩

/-- How a step ends adds nothing to what its access changed. -/
theorem Closed.accessFrame {s u t : State} (h : Closed u t) (hu : AccessFrame s u) : AccessFrame s t := by
  cases h with
  | goes p h => subst h; exact { hu with }
  | ends r h => subst h; exact { hu with }

/-- The frame of one controller step of any operation. -/
theorem exec_frame {i : Instr} {s t : State} (h : exec i s = .next t) : AccessFrame s t ∧ EndsAtMostOne s t := by
  cases exec_kind h with
  | fault r ht => subst ht; exact ⟨{ AccessFrame.refl s with }, .inl ⟨rfl, rfl⟩⟩
  | quiet hc => exact ⟨hc.accessFrame (.refl s), hc.frame.2⟩
  | read a v u hr hc =>
    obtain ⟨hu, hidx, hres⟩ := devRead_frame hr
    exact ⟨hc.accessFrame hu, by simpa [EndsAtMostOne, hidx, hres] using hc.frame.2⟩
  | write a v u hw hc =>
    obtain ⟨hu, hidx, hres⟩ := devWrite_frame hw
    exact ⟨hc.accessFrame hu, by simpa [EndsAtMostOne, hidx, hres] using hc.frame.2⟩

/-- Settles O17, from `exec_frame`. -/
theorem controllerStepFrame : Obligations.ControllerStepFrame := by
  intro i s t h
  obtain ⟨hf, hends⟩ := exec_frame h
  refine ⟨⟨hf.ctr, hf.lineOut, hf.hostIn, hf.rxLost, hf.refused⟩,
    ⟨hf.params, hf.prog, hf.interruptsMasked, hf.uartConfigured, hf.turns, hf.env⟩,
    hf.tx.imp_right And.right, hf.rx, hf.trace, ?_⟩
  exact hends.imp And.right fun hend => hend.2.2

/-- Settles O16: an environment step, a refusal and the opening of a window do not touch these fields, and `exec_frame` says so
of every operation. -/
theorem programAndParametersNeverChange : Obligations.ProgramAndParametersNeverChange := by
  intro s t h
  rcases step_turn_cases h with ⟨a, rest, -, rfl⟩ | ⟨u, hu, rfl⟩
  · simp
  · rcases controllerTurn_cases hu with rfl | ⟨-, r, rfl⟩ | ⟨i, -, hi⟩
    · simp
    · simp
    · obtain ⟨hf, -⟩ := exec_frame hi
      exact ⟨hf.params, hf.prog, hf.interruptsMasked, hf.uartConfigured⟩

/-! ### The invariant in two parts: what is stored, and where the controller stands -/

/-- The part of `BlockInv` about results, the FIFOs and the bank. -/
structure StoreInv (s : State) : Prop where
  one_result_per_op : s.results.length = s.opidx
  opidx_le : s.opidx ≤ s.prog.length
  tx_le : s.tx.length ≤ s.params.txDepth
  rx_le : s.rx.length ≤ s.params.rxDepth
  bank_wf : s.gpioCtrl.wf = true
  bank_pins : s.gpioCtrl.all (fun c => c.1 < s.params.numGpioPins) = true

/-- The operation `i` is at a place of its own past its start: no mark, its gate holds, its pin is admitted and the control value
it holds is the register's (R22, R60, R136, R174). -/
structure InProgress (i : Instr) (s : State) : Prop where
  running : Running s
  fits : phaseFits i s.phase = true
  gate : gateOk s = true
  pin : ∀ pin, heldPin i = some pin → pin.toNat < s.params.numGpioPins ∧ heldMatches s pin = true

/-- The operation `i` is at its start or in progress. -/
def AtStartOrInProgress (i : Instr) (s : State) : Prop := s.phase = .start ∨ InProgress i s

theorem atStart_iff {p : Phase} : atStart p = true ↔ p = .start := by cases p <;> simp [atStart]

/-- `BlockInv` says where the controller stands by four conditions; together they say: at a start, or in progress of the operation
it has reached. -/
theorem blockInv_iff {s : State} :
    BlockInv s ↔ StoreInv s ∧ (s.phase = .start ∨ ∃ i, current s = some i ∧ InProgress i s) := by
  constructor
  · rintro ⟨hres, hidx, htx, hrx, hwf, hpins, hphase, hgate, hhold, hmark⟩
    refine ⟨⟨hres, hidx, htx, hrx, hwf, hpins⟩, ?_⟩
    by_cases hstart : s.phase = .start
    · exact .inl hstart
    have hns : atStart s.phase = false := by simpa [← atStart_iff] using hstart
    cases hc : current s with
    | none => simp [phaseOk, hc, hns] at hphase
    | some i =>
      refine .inr ⟨i, rfl, ?_, by simpa [phaseOk, hc] using hphase, hgate, fun pin hpin => ?_⟩
      · have := mt hmark hstart
        simpa [stopped] using this
      · simpa [holdOk, hc, hpin, hns] using hhold
  · rintro ⟨⟨hres, hidx, htx, hrx, hwf, hpins⟩, hstart | ⟨i, hc, hrun, hfits, hgate, hpin⟩⟩
    · refine ⟨hres, hidx, htx, hrx, hwf, hpins, ?_, by simp [gateOk, hstart], ?_, fun _ => hstart⟩
      · unfold phaseOk
        split <;> simp [hstart, phaseFits, atStart]
      · unfold holdOk
        split <;> simp [hstart, atStart]
    · refine ⟨hres, hidx, htx, hrx, hwf, hpins, by simpa [phaseOk, hc] using hfits, hgate, ?_, ?_⟩
      · cases hi : heldPin i with
        | none => simp [holdOk, hc, hi]
        | some pin => simp [holdOk, hc, hi, hpin pin hi]
      · simp [stopped, hrun.1, hrun.2]

/-! ### A controller step keeps an operation at its start or in progress -/

/-- An operation that has ended stands at a start. -/
theorem finish_keeps {i : Instr} {r : Result} {u t : State} (h : finish r u = .next t) : AtStartOrInProgress i t := by
  cases h; exact .inl rfl

/-- One step of a TICKS either stays in the TICKS, its read done, or goes on with the value. -/
theorem ticksStep_keeps {P : State → Prop} {wrap : TicksPhase → Phase} {k : DWord → State → Exec} {s t : State}
    {p : TicksPhase} (hstay : ∀ e q, P ((s.logEvent e).setPhase (wrap q)))
    (hk : ∀ d e, k d (s.logEvent e) = .next t → P t) (h : ticksStep wrap k s p = .next t) : P t := by
  cases p with
  | hi1 => rw [ticksStep_hi1] at h; cases h; exact hstay _ _
  | lo h1 => rw [ticksStep_lo] at h; cases h; exact hstay _ _
  | hi2 h1 lo =>
    rw [ticksStep_hi2] at h
    split at h
    · exact hk _ _ h
    · cases h; exact hstay _ _

/-- One step of a DELAY_US either stays in the DELAY_US, its read done, or goes on. -/
theorem delayStep_keeps {P : State → Prop} {n : Word} {wrap : DelayPhase → Phase} {k : State → Exec} {s t : State}
    {d : DelayPhase} (hstay : ∀ e q, P ((s.logEvent e).setPhase (wrap q)))
    (hk : ∀ e, k (s.logEvent e) = .next t → P t) (h : delayStep n wrap k s d = .next t) : P t := by
  cases d with
  | first p =>
    simp only [delayStep] at h
    exact ticksStep_keeps (fun e q => hstay e _) (fun _ e hu => by cases hu; exact hstay e _) h
  | spin start p =>
    simp only [delayStep] at h
    refine ticksStep_keeps (fun e q => hstay e _) (fun now e hu => ?_) h
    split at hu
    · exact hk e hu
    · cases hu; exact hstay e _

/-- The gate of a sending operation (R136). -/
theorem gateOk_send {u : State} {todo : List Byte} {ready : Bool} (h : u.phase = .send todo ready) :
    gateOk u = true ↔ (ready = true → u.tx.length < u.params.txDepth) := by
  cases ready <;> simp [gateOk, h]

/-- An operation on no pin is in progress where its phase is its own and its gate holds. -/
theorem InProgress.of_no_pin {i : Instr} {u : State} (hi : heldPin i = none) (hrun : Running u)
    (hfits : phaseFits i u.phase = true) (hgate : gateOk u = true) : InProgress i u :=
  ⟨hrun, hfits, hgate, by simp [hi]⟩

/-- One step of the gated sending of a byte list that is left of the operation's own: `todo` keeps being left of it, and a write
comes only where its poll found room (R131, R136). -/
theorem sendStep_keeps {i : Instr} {bs todo : List Byte} {ready : Bool} {s t : State} (hi : sendBytes i = some bs)
    (hrun : Running s) (htx : s.tx.length ≤ s.params.txDepth) (hsuf : todo <:+ bs)
    (hroom : ready = true → s.tx.length < s.params.txDepth) (h : sendStep s (todo, ready) = .next t) :
    AtStartOrInProgress i t := by
  have hfree : heldPin i = none := by cases i <;> simp_all [sendBytes, heldPin]
  have hfits : ∀ left r, left ≠ [] → left <:+ bs → phaseFits i (.send left r) = true := fun left r hne hs => by
    simpa [phaseFits, leftToSend, hi] using ⟨hne, hs⟩
  match todo, ready with
  | [], ready => exact finish_keeps h
  | b :: rest, false =>
    rw [sendStep_poll] at h; cases h
    have hgate : (!txFull s) = true → s.tx.length < s.params.txDepth := fun hf =>
      lt_of_le_of_ne htx (by simpa [txFull] using hf)
    exact .inr (.of_no_pin hfree hrun (hfits _ _ (by simp) hsuf) ((gateOk_send rfl).2 hgate))
  | b :: rest, true =>
    have hnot : txFull s = false := by simpa [txFull] using (hroom rfl).ne
    rw [sendStep_write hnot] at h; cases h
    split
    · exact .inl rfl
    · exact .inr (.of_no_pin hfree hrun (hfits _ _ ‹_› ((List.suffix_cons b rest).trans hsuf)) rfl)

/-- The phases in which the operation `i` holds the control value it has read, before the write of it (R60, R150). -/
structure HoldingPhase (i : Instr) (hold : Word → Phase) : Prop where
  fits : ∀ v, phaseFits i (hold v) = true
  value : ∀ v, heldValue (hold v) = some v
  gate : ∀ (u : State) v, gateOk (u.setPhase (hold v)) = true

/-- One step of a function select: at its start the pin check passes and the register's value is held, or the fault leaves the
operation at its start; past it the held value is written and the operation goes on (R150, R158). -/
theorem setFunctionStep_keeps {i : Instr} {pin f : Word} {hold : Word → Phase} {k : State → Exec} {held : Option Word}
    {s t : State} (hi : heldPin i = some pin) (hrun : Running s)
    (hpin : (held = none ∧ s.phase = .start) ∨ pin.toNat < s.params.numGpioPins)
    (hhold : HoldingPhase i hold)
    (hk : ∀ u, Running u → pin.toNat < u.params.numGpioPins → k u = .next t → AtStartOrInProgress i t)
    (h : setFunctionStep pin f hold k s held = .next t) : AtStartOrInProgress i t := by
  by_cases hp : pin.toNat < s.params.numGpioPins
  · cases held with
    | none =>
      rw [setFunctionStep_none hp] at h; cases h
      refine .inr ⟨hrun, hhold.fits _, hhold.gate _ _, fun q hq => ?_⟩
      obtain rfl : pin = q := by simpa [hi] using hq
      exact ⟨hp, by simp [heldMatches, hhold.value]⟩
    | some v => rw [setFunctionStep_some hp] at h; refine hk _ ?_ ?_ h <;> assumption
  · obtain ⟨rfl, hstart⟩ := hpin.resolve_right hp
    simp only [setFunctionStep, pinChecked, if_neg hp] at h
    cases h; exact .inl hstart

/-- One step of an LED call: its function select, after which GPIO_SET passes the same pin check and only hands on its
UNSUPPORTED (R153, R155, R156). -/
theorem ledStep_keeps {i : Instr} {pin : Word} {level : Bool} {hold : Word → Phase} {k : Result → State → Exec}
    {held : Option Word} {s t : State} (hi : heldPin i = some pin) (hrun : Running s)
    (hpin : (held = none ∧ s.phase = .start) ∨ pin.toNat < s.params.numGpioPins)
    (hhold : HoldingPhase i hold)
    (hk : ∀ u, Running u → pin.toNat < u.params.numGpioPins → k .unsupported u = .next t → AtStartOrInProgress i t)
    (h : ledStep pin level hold k s held = .next t) : AtStartOrInProgress i t := by
  refine setFunctionStep_keeps hi hrun hpin hhold (fun u hu hp hu' => hk u hu hp ?_) h
  simpa only [setLevel, pinChecked, if_pos hp] using hu'

/-- An operation on a pin is at its start, or its pin has passed the check. -/
theorem AtStartOrInProgress.start_or_pin {i : Instr} {s : State} {pin : Word} (h : AtStartOrInProgress i s)
    (hi : heldPin i = some pin) : s.phase = .start ∨ pin.toNat < s.params.numGpioPins :=
  h.imp_right fun hp => (hp.pin pin hi).1

/-- The same for the operations that are one function select, in the form `setFunctionStep_keeps` asks. -/
theorem AtStartOrInProgress.rmw_pin {i : Instr} {s : State} {pin : Word} {held : Option Word} (h : AtStartOrInProgress i s)
    (hi : heldPin i = some pin) (hp : rmwPhase s.phase = some held) :
    (held = none ∧ s.phase = .start) ∨ pin.toNat < s.params.numGpioPins :=
  (h.start_or_pin hi).imp_left fun hs => ⟨by simpa [hs, rmwPhase, eq_comm] using hp, hs⟩

/-- What a sending operation has left to send, and the room its gate promises. -/
theorem AtStartOrInProgress.left_to_send {i : Instr} {s : State} {bs todo : List Byte} {ready : Bool}
    (h : AtStartOrInProgress i s) (hi : sendBytes i = some bs) (hp : sendPhase bs s.phase = some (todo, ready)) :
    todo <:+ bs ∧ (ready = true → s.tx.length < s.params.txDepth) := by
  cases hph : s.phase <;> simp [hph, sendPhase] at hp
  case start => obtain ⟨rfl, rfl⟩ := hp; exact ⟨List.suffix_rfl, by simp⟩
  case send left r =>
    obtain ⟨rfl, rfl⟩ := hp
    have hin : InProgress i s := h.resolve_left (by simp [hph])
    have hleft : left ≠ [] ∧ left <:+ bs := by simpa [hph, phaseFits, leftToSend, hi] using hin.fits
    exact ⟨hleft.2, (gateOk_send hph).1 hin.gate⟩

/-- One step of PUT_CHAR, PUT_STRING or PUT_HEX. -/
theorem exec_sending_keeps {i : Instr} {bs : List Byte} {s t : State} {p : List Byte × Bool} (hi : sendBytes i = some bs)
    (hrun : Running s) (htx : s.tx.length ≤ s.params.txDepth) (h : AtStartOrInProgress i s)
    (hp : sendPhase bs s.phase = some p) (ht : sendStep s p = .next t) : AtStartOrInProgress i t := by
  obtain ⟨todo, ready⟩ := p
  obtain ⟨hsuf, hroom⟩ := h.left_to_send hi hp
  exact sendStep_keeps hi hrun htx hsuf hroom ht

/-- One step of GET_CHAR: a poll that found a byte goes on to its read, another poll stands at the start again; the read finds a
register, so it ends the operation (R133). -/
theorem exec_getChar_keeps {s t : State} (hrun : Running s) (ht : exec .getChar s = .next t) :
    AtStartOrInProgress .getChar t := by
  have hphase : s.phase = .start ∨ s.phase = .recv := by
    obtain ⟨-, -, p, hp, -⟩ := guarded_next ht
    cases hs : s.phase <;> simp [hs, recvPhase] at hp ⊢
  rcases hphase with hp | hp
  · rw [exec_getChar_poll hrun hp, readThen_uartFr, rxfeOf_frWord] at ht
    cases ht
    cases hrx : rxEmpty s with
    | true => exact .inl rfl
    | false => exact .inr (.of_no_pin rfl hrun rfl (by simpa [gateOk, rxEmpty] using hrx))
  · rw [exec_getChar_read hrun hp] at ht
    rcases readThen_cases ht with ⟨v, u, -, hu⟩ | ⟨hnone, -⟩
    · exact finish_keeps hu
    · simp at hnone

/-- BLINK_ACTIVITY_LED is in progress where it holds no control value and its pin has passed the check. -/
theorem inProgress_blink {u : State} {b : BlinkPhase} (hrun : Running u)
    (hpin : pinActLed.toNat < u.params.numGpioPins) (hb : heldValue (.blink b) = none) :
    InProgress .blinkActivityLed (u.setPhase (.blink b)) := by
  refine ⟨hrun, rfl, rfl, fun pin hp => ?_⟩
  obtain rfl : pinActLed = pin := by simpa [heldPin] using hp
  exact ⟨hpin, by simp [heldMatches, hb]⟩

/-- One step of BLINK_ACTIVITY_LED, by the call in progress (R157). -/
theorem exec_blink_keeps {s t : State} (h : AtStartOrInProgress .blinkActivityLed s)
    (ht : exec .blinkActivityLed s = .next t) : AtStartOrInProgress .blinkActivityLed t := by
  obtain ⟨hf, hr, b, hb, hstep⟩ := guarded_next ht
  have hrun : Running s := ⟨hf, hr⟩
  have hpin : (b = .ledOn none ∧ s.phase = .start) ∨ pinActLed.toNat < s.params.numGpioPins :=
    (h.start_or_pin rfl).imp_left fun hs => ⟨by simpa [hs, blinkPhase, eq_comm] using hb, hs⟩
  cases b with
  | ledOn held =>
    refine ledStep_keeps rfl hrun (by simpa using hpin) ⟨fun _ => rfl, fun _ => rfl, fun _ _ => rfl⟩
      (fun u hu hp hgo => ?_) hstep
    cases hgo; exact .inr (inProgress_blink hu hp rfl)
  | delayOn d =>
    have hp := hpin.resolve_left (by simp)
    refine delayStep_keeps (fun e q => .inr (inProgress_blink hrun hp rfl)) (fun e hgo => ?_) hstep
    cases hgo; exact .inr (inProgress_blink hrun hp rfl)
  | ledOff held =>
    have hp := hpin.resolve_left (by simp)
    refine ledStep_keeps rfl hrun (.inr hp) ⟨fun _ => rfl, fun _ => rfl, fun _ _ => rfl⟩
      (fun u hu hp hgo => ?_) hstep
    cases hgo; exact .inr (inProgress_blink hu hp rfl)
  | delayOff d =>
    have hp := hpin.resolve_left (by simp)
    exact delayStep_keeps (fun e q => .inr (inProgress_blink hrun hp rfl)) (fun e => finish_keeps) hstep

/-- An operation of one step runs from its start only. -/
theorem start_of_startOnly {p : Phase} {x : Unit} (h : startOnly p = some x) : p = .start := by
  cases p <;> simp [startOnly] at h ⊢

/-- REG_READ: the fault of a read leaves the operation at its start (R174). -/
theorem readThen_keeps {i : Instr} {a : Addr} {s t : State} {k : Word → State → Exec} (hs : s.phase = .start)
    (hk : ∀ v u, k v u = .next t → AtStartOrInProgress i t) (h : readThen a s k = .next t) : AtStartOrInProgress i t := by
  rcases readThen_cases h with ⟨v, u, -, hu⟩ | ⟨-, hfault⟩
  · exact hk _ _ hu
  · cases hfault; exact .inl hs

/-- REG_WRITE: the fault of a write leaves the operation at its start (R174). -/
theorem writeThen_keeps {i : Instr} {a : Addr} {v : Word} {s t : State} {k : State → Exec} (hs : s.phase = .start)
    (hk : ∀ u, k u = .next t → AtStartOrInProgress i t) (h : writeThen a v s k = .next t) : AtStartOrInProgress i t := by
  rcases writeThen_cases h with ⟨u, -, hu⟩ | ⟨r, -, hfault⟩
  · exact hk _ hu
  · cases hfault; exact .inl hs

/-- GPIO_SET and GPIO_GET: the fault of the pin check leaves the operation at its start (R158, R174). -/
theorem pinChecked_keeps {i : Instr} {pin : Word} {s t : State} {k : Exec} (hs : s.phase = .start)
    (hk : k = .next t → AtStartOrInProgress i t) (h : pinChecked pin s k = .next t) : AtStartOrInProgress i t := by
  unfold pinChecked at h
  split at h
  · exact hk h
  · cases h; exact .inl hs

/-- One controller step of an operation that is at its start or in progress leaves it so. -/
theorem exec_keeps_progress {i : Instr} {s t : State} (htx : s.tx.length ≤ s.params.txDepth) (h : AtStartOrInProgress i s)
    (ht : exec i s = .next t) : AtStartOrInProgress i t := by
  cases i
  case getChar =>
    obtain ⟨hf, hr, -⟩ := guarded_next ht
    exact exec_getChar_keeps ⟨hf, hr⟩ ht
  case blinkActivityLed => exact exec_blink_keeps h ht
  all_goals
    obtain ⟨hf, hr, p, hp, hstep⟩ := guarded_next ht
    have hrun : Running s := ⟨hf, hr⟩
  case regRead addr => exact readThen_keeps (start_of_startOnly hp) (fun _ _ => finish_keeps) hstep
  case regWrite addr value => exact writeThen_keeps (start_of_startOnly hp) (fun _ => finish_keeps) hstep
  case ticks | uptimeSeconds =>
    exact ticksStep_keeps (fun e q => .inr (.of_no_pin rfl hrun rfl rfl)) (fun d e => finish_keeps) hstep
  case delayUs n | delayMs n =>
    exact delayStep_keeps (fun e q => .inr (.of_no_pin rfl hrun rfl rfl)) (fun e => finish_keeps) hstep
  case uartInit => exact finish_keeps hstep
  case putChar c | putString str | putHex n => exact exec_sending_keeps rfl hrun htx h hp hstep
  case gpioSetFunction pin f | gpioSetOutput pin | gpioSetInput pin =>
    exact setFunctionStep_keeps rfl hrun (h.rmw_pin rfl hp) ⟨fun _ => rfl, fun _ => rfl, fun _ _ => rfl⟩
      (fun u _ _ => finish_keeps) hstep
  case ledOn pin | ledOff pin =>
    exact ledStep_keeps rfl hrun (h.rmw_pin rfl hp) ⟨fun _ => rfl, fun _ => rfl, fun _ _ => rfl⟩
      (fun u _ _ => finish_keeps) hstep
  case gpioSet pin value | gpioGet pin => exact pinChecked_keeps (start_of_startOnly hp) finish_keeps hstep

/-! ### Every agent keeps the invariant -/

/-- The operation in progress stands inside the program (R22). -/
theorem opidx_lt_of_current {s : State} {i : Instr} (h : current s = some i) : s.opidx < s.prog.length := by
  unfold current at h
  split at h
  · cases h
  · rename_i w hw
    exact (List.getElem?_eq_some_iff.1 hw).1

/-- The operation in progress is read off the program and the place in it. -/
theorem current_congr {s t : State} (hprog : t.prog = s.prog) (hidx : t.opidx = s.opidx) : current t = current s := by
  simp only [current, fetch, hprog, hidx]

/-- A controller step keeps the FIFOs within their depths and the bank in its canonical form. -/
theorem StoreInv.of_frame {s t : State} (h : StoreInv s) (hlt : s.opidx < s.prog.length) (hf : AccessFrame s t)
    (hends : EndsAtMostOne s t) : StoreInv t where
  one_result_per_op := by
    rcases hends with ⟨hidx, hres⟩ | ⟨hidx, -, r, hres⟩ <;> simp [hidx, hres, h.one_result_per_op]
  opidx_le := by
    rw [hf.prog]
    rcases hends with ⟨hidx, -⟩ | ⟨hidx, -⟩ <;> omega
  tx_le := by
    rw [hf.params]
    rcases hf.tx with htx | ⟨hroom, b, htx⟩
    · rw [htx]; exact h.tx_le
    · have hne : s.tx.length ≠ s.params.txDepth := by simpa [txFull] using hroom
      have hle := h.tx_le
      rw [htx, List.length_append, List.length_singleton]
      omega
  rx_le := by
    have hle := h.rx_le
    rw [hf.params]
    rcases hf.rx with hrx | hrx <;> rw [hrx]
    · exact hle
    · rw [List.length_tail]; omega
  bank_wf := by
    rcases hf.bank with hb | ⟨p, v, -, hb⟩ <;> rw [hb]
    · exact h.bank_wf
    · exact ctrlWrite_wf h.bank_wf p v
  bank_pins := by
    rw [hf.params]
    rcases hf.bank with hb | ⟨p, v, hp, hb⟩ <;> rw [hb]
    · exact h.bank_pins
    · exact ctrlWrite_pins v h.bank_pins hp

/-- One controller step of the operation in progress keeps the invariant. -/
theorem exec_keeps_blockInv {i : Instr} {s t : State} (h : BlockInv s) (hi : current s = some i) (ht : exec i s = .next t) :
    BlockInv t := by
  obtain ⟨hstore, hwhere⟩ := blockInv_iff.1 h
  obtain ⟨hframe, hends⟩ := exec_frame ht
  have hs : AtStartOrInProgress i s := hwhere.imp_right fun ⟨j, hj, hin⟩ => by
    obtain rfl : i = j := by simpa [hi] using hj
    exact hin
  refine blockInv_iff.2 ⟨hstore.of_frame (opidx_lt_of_current hi) hframe hends, ?_⟩
  rcases hends with ⟨hidx, -⟩ | ⟨-, hstart, -⟩
  · exact (exec_keeps_progress hstore.tx_le hs ht).imp_right fun hin =>
      ⟨i, (current_congr hframe.prog hidx).trans hi, hin⟩
  · exact .inl hstart

/-- A refusal keeps the invariant: the word it refuses is no operation, so the controller stands at a start (R172, R176). -/
theorem markRefused_keeps_blockInv {s : State} (h : BlockInv s) (hnone : current s = none) (r : Refusal) :
    BlockInv (s.markRefused r) := by
  obtain ⟨⟨hres, hidx, htx, hrx, hwf, hpins⟩, hwhere⟩ := blockInv_iff.1 h
  have hstart : s.phase = .start := hwhere.resolve_right (by simp [hnone])
  exact blockInv_iff.2 ⟨⟨hres, hidx, htx, hrx, hwf, hpins⟩, .inl hstart⟩

/-- A turn of the controller keeps the invariant. -/
theorem controllerTurn_keeps_blockInv {s t : State} (h : BlockInv s) (ht : controllerTurn s = .next t) : BlockInv t := by
  rcases controllerTurn_cases ht with rfl | ⟨hnone, r, rfl⟩ | ⟨i, hi, hexec⟩
  · exact h
  · exact markRefused_keeps_blockInv h hnone r
  · exact exec_keeps_blockInv h hi hexec

/-- What the environment can do to the FIFOs: `tx` gets no longer, `rx` grows only within its depth, and a byte in `rx` stays
until the controller reads it (R35, R36, R58). -/
theorem envStep_fifos (a : EnvAgent) (s : State) :
    (envStep a s).tx.length ≤ s.tx.length ∧
      (s.rx.length ≤ s.params.rxDepth → (envStep a s).rx.length ≤ s.params.rxDepth) ∧
      (s.rx ≠ [] → (envStep a s).rx ≠ []) := by
  rcases envStep_cases a s with ⟨-, h⟩ | ⟨-, -, h⟩ | ⟨-, b, bs, htx, h⟩ | ⟨-, -, h⟩ | ⟨-, b, bs, -, hroom, h⟩ |
    ⟨-, b, bs, -, -, h⟩ <;> rw [h]
  case inr.inr.inl => simp [htx]
  case inr.inr.inr.inr.inl => exact ⟨le_rfl, fun _ => by simpa using hroom, by simp⟩
  all_goals exact ⟨le_rfl, id, id⟩

/-- The gates are safe from the environment: a drain only makes room, and only the controller reads `rx` (R58, R136). -/
theorem envStep_keeps_gateOk {a : EnvAgent} {s : State} (h : gateOk s = true) : gateOk (envStep a s) = true := by
  obtain ⟨htx, -, hrx⟩ := envStep_fifos a s
  cases hp : s.phase with
  | send todo ready =>
    rw [gateOk_send (by rw [envStep_phase, hp])]
    rw [gateOk_send hp] at h
    exact fun hready => by simpa using htx.trans_lt (h hready)
  | recv =>
    simp only [gateOk, envStep_phase, hp] at h ⊢
    simpa using hrx (by simpa using h)
  | _ => simp [gateOk, hp]

/-- An environment step leaves an operation in progress. -/
theorem InProgress.envStep {i : Instr} {s : State} (h : InProgress i s) (a : EnvAgent) :
    InProgress i (envStep a s) where
  running := by simpa [Running] using h.running
  fits := by simpa using h.fits
  gate := envStep_keeps_gateOk h.gate
  pin := by simpa [heldMatches] using h.pin

/-- A step of an environment agent keeps the invariant, whichever operation it falls into. -/
theorem envStep_keeps_blockInv {s : State} (h : BlockInv s) (a : EnvAgent) : BlockInv (envStep a s) := by
  obtain ⟨⟨hres, hidx, htx, hrx, hwf, hpins⟩, hwhere⟩ := blockInv_iff.1 h
  obtain ⟨htx', hrx', -⟩ := envStep_fifos a s
  have hcur : current (envStep a s) = current s := current_congr (envStep_prog a s) (envStep_opidx a s)
  refine blockInv_iff.2 ⟨⟨?_, ?_, ?_, ?_, ?_, ?_⟩, ?_⟩
  · simpa using hres
  · simpa using hidx
  · simpa using htx'.trans htx
  · simpa using hrx' hrx
  · simpa using hwf
  · simpa using hpins
  · rw [envStep_phase, hcur]
    exact hwhere.imp_right fun ⟨i, hi, hin⟩ => ⟨i, hi, hin.envStep a⟩

/-- Settles O13: by `blockInv_iff`, what is stored stays within its bounds and the operation stays at its start or in progress,
under the controller's own step and under any environment step that falls into it. -/
theorem everyAgentStepKeepsTheInvariant : Obligations.EveryAgentStepKeepsTheInvariant := by
  intro agent s t h ht
  cases agent with
  | controller => exact controllerTurn_keeps_blockInv h ht
  | env a => obtain ⟨-, rfl⟩ := ht; exact envStep_keeps_blockInv h a

end Sys2Proof.Machine

/-! SUPPORT. The statements about the state (10_state.md): what a mark stops, what the environment agents do, the history a step
appends to, where the control registers change, and a next state from every state of the invariant. -/

namespace Sys2Proof.Machine

/-! ### Marks and ends of the program -/

/-- Every meaning asks for the marks before anything else (R24). -/
theorem exec_guarded (i : Instr) (s : State) : ∃ k, exec i s = whileRunning s k := by cases i <;> exact ⟨_, rfl⟩

theorem exec_of_fault {i : Instr} {s : State} {r : Fault} (h : s.fault = some r) : exec i s = .fault r := by
  obtain ⟨k, hk⟩ := exec_guarded i s
  rw [hk, whileRunning, h]

theorem exec_of_refused {i : Instr} {s : State} {r : Refusal} (hf : s.fault = none) (h : s.refused = some r) :
    exec i s = .refused r := by
  obtain ⟨k, hk⟩ := exec_guarded i s
  rw [hk, whileRunning, hf, h]

theorem controllerTurn_of_stopped {s : State} (h : stopped s = true) : controllerTurn s = .next s := by
  simp [controllerTurn, h]

theorem controllerTurn_of_done {s : State} (h : fetch s = none) : controllerTurn s = .next s := by
  unfold controllerTurn
  split
  · rfl
  · rw [h]

/-- A due environment step is taken whatever stands in the marks (R174). -/
theorem step_of_env_cons {s : State} {a : EnvAgent} {rest : List EnvAgent} (h : s.env = a :: rest) :
    step s = .next (envStep a { s with env := rest }) := by simp [step, h]

/-- Settles O8: the turn and the operations ask for the marks first, the step asks for a due environment step before either. -/
theorem marksStopOnlyTheController : Obligations.MarksStopOnlyTheController := by
  refine ⟨fun s h => controllerTurn_of_stopped ?_, fun s i r => exec_of_fault, fun s i r => exec_of_refused,
    fun s a rest => step_of_env_cons⟩
  simpa [stopped, Option.isSome_iff_ne_none] using h

/-- Settles O9: past the last word there is nothing to fetch. -/
theorem doneControllerTakesNoStep : Obligations.DoneControllerTakesNoStep := fun s h =>
  controllerTurn_of_done (by simp [fetch, h])

/-- Settles O11: the entry state is empty and stands at a start, so `blockInv_iff` asks only for the bounds of what is stored. -/
theorem resetMeetsTheInvariant : Obligations.ResetMeetsTheInvariant := by
  have hstore : StoreInv State.reset := ⟨rfl, le_rfl, Nat.zero_le _, Nat.zero_le _, reset_bank_wf, rfl⟩
  exact ⟨blockInv_iff.2 ⟨hstore, .inl rfl⟩, ⟨rfl, rfl⟩, ⟨⟨rfl, rfl⟩, rfl⟩, rfl, rfl, rfl, rfl, rfl⟩

/-! ### The environment agents -/

/-- Settles O22, by the equations of the two agents (R35, R36). -/
theorem drainAndArrivalMoveOneByte : Obligations.DrainAndArrivalMoveOneByte := by
  refine ⟨fun s => ?_, fun s b rest h => ?_, fun s => ?_, fun s b rest h => ?_⟩
  · simp [envEnabled]
  · simp [envStep, h]
  · simp [envEnabled]
  · simp [envStep, h]

/-- The drain moves a byte from `tx` to the line, and no other agent touches either (R39). -/
theorem envStep_committed (a : EnvAgent) (s : State) : committed (envStep a s) = committed s := by
  rcases envStep_cases a s with ⟨-, h⟩ | ⟨-, -, h⟩ | ⟨-, b, rest, htx, h⟩ | ⟨-, -, h⟩ | ⟨-, b, rest, -, -, h⟩ |
    ⟨-, b, rest, -, -, h⟩ <;> rw [h]
  case inr.inr.inl => simp [committed, htx]
  all_goals rfl

/-- Settles O23, by induction on the window. -/
theorem windowAdvancesTheCounterByItsTimerSteps : Obligations.WindowAdvancesTheCounterByItsTimerSteps := by
  intro w
  induction w with
  | nil => intro s; simp [timerSteps]
  | cons a w ih =>
    intro s
    rw [envRun_cons, ih, envStep_ctr]
    by_cases ha : a = .timer
    · have hcount : timerSteps (a :: w) = 1 + timerSteps w := by simp [timerSteps, ha, Nat.add_comm]
      rw [if_pos ha, hcount, BitVec.ofNat_add, BitVec.add_assoc]
    · rw [if_neg ha, show timerSteps (a :: w) = timerSteps w from List.count_cons_of_ne ha]

/-- Settles O24, by induction on the window. -/
theorem environmentKeepsTheCommittedOutput : Obligations.EnvironmentKeepsTheCommittedOutput := by
  intro w
  induction w with
  | nil => intro s; rfl
  | cons a w ih => intro s; rw [envRun_cons, ih, envStep_committed]

/-! ### The history -/

/-- A step ends at most one operation, and appends its result when it does. -/
theorem step_endsAtMostOne {s t : State} (h : step s = .next t) : EndsAtMostOne s t := by
  rcases step_turn_cases h with ⟨a, rest, -, rfl⟩ | ⟨u, hu, rfl⟩
  · exact .inl (by simp)
  · rcases controllerTurn_cases hu with rfl | ⟨-, r, rfl⟩ | ⟨i, -, hi⟩
    · exact .inl (by simp)
    · exact .inl (by simp)
    · exact (exec_frame hi).2

/-- Settles O15: it is `EndsAtMostOne` of a step. -/
theorem opidxAdvancesExactlyWithAResult : Obligations.OpidxAdvancesExactlyWithAResult := fun _ _ => step_endsAtMostOne

/-- A turn of the controller leaves a mark that stands: with one it does nothing (R24). -/
theorem controllerTurn_keeps_marks {s t : State} (h : controllerTurn s = .next t) :
    (∀ r, s.fault = some r → t.fault = some r) ∧ (∀ r, s.refused = some r → t.refused = some r) := by
  cases hs : stopped s with
  | true =>
    rw [controllerTurn_of_stopped hs] at h
    cases h
    exact ⟨fun _ => id, fun _ => id⟩
  | false =>
    have hrun : Running s := by simpa [stopped] using hs
    simp [hrun.1, hrun.2]

/-- A turn of the controller appends at most one event. -/
theorem controllerTurn_trace {s t : State} (h : controllerTurn s = .next t) :
    t.trace = s.trace ∨ ∃ e, t.trace = s.trace ++ [e] := by
  rcases controllerTurn_cases h with rfl | ⟨-, r, rfl⟩ | ⟨i, -, hi⟩
  · exact .inl rfl
  · exact .inl rfl
  · exact (exec_frame hi).1.trace

/-- Settles O14: an environment step leaves the history alone, and the controller's turn appends to it. -/
theorem historyOnlyGrows : Obligations.HistoryOnlyGrows := by
  intro s t h
  refine ⟨(step_endsAtMostOne h).imp And.right fun hend => hend.2.2, ?_⟩
  rcases step_turn_cases h with ⟨a, rest, -, rfl⟩ | ⟨u, hu, rfl⟩
  · simp
  · have htrace := controllerTurn_trace hu
    have hmarks := controllerTurn_keeps_marks hu
    exact ⟨htrace, hmarks⟩

/-! ### The committed output and the trace -/

/-- UART_DR is at one address only (R51). -/
theorem eq_uartDrAddr_of_regAt {n : Nat} {a : Addr} (h : regAt n a = some .uartDr) : a = uartDrAddr := by
  unfold regAt gpioRegAt at h
  split_ifs at h with hlo hhi hdr <;> cases h
  exact hdr

/-- `t` is after `s` with some events whose UART_DR writes are what was committed meanwhile (R39). -/
def CommitsItsEvents (s t : State) : Prop := ∃ ev, t.trace = s.trace ++ ev ∧ committed t = committed s ++ sentBytes ev

theorem CommitsItsEvents.of_same {s t : State} (htrace : t.trace = s.trace) (hout : committed t = committed s) :
    CommitsItsEvents s t := ⟨[], by simp [htrace], by simp [hout, sentBytes]⟩

/-- How a step ends sends nothing. -/
theorem Closed.commits {s u t : State} (h : Closed u t) (hu : CommitsItsEvents s u) : CommitsItsEvents s t := by
  cases h with
  | goes p h => subst h; exact hu
  | ends r h => subst h; exact hu

/-- A read sends nothing. -/
theorem devRead_commits {a : Addr} {s u : State} {v : Word} (h : devRead a s = .ok (v, u)) :
    CommitsItsEvents s (u.logEvent (.rd a v)) := by
  obtain ⟨hu, -, -⟩ := devRead_ok h
  rw [hu]
  exact ⟨[.rd a v], rfl, by simp [committed, sentBytes, eventBytes]⟩

/-- A write sends a byte exactly where it is a write of UART_DR. -/
theorem devWrite_commits {a : Addr} {s u : State} {v : Word} (h : devWrite a v s = .ok u) :
    CommitsItsEvents s (u.logEvent (.wr a v)) := by
  rcases devWrite_ok h with ⟨p, hp, rfl⟩ | ⟨hdr, -, rfl⟩
  · have hne : a ≠ uartDrAddr := by rintro rfl; simp at hp
    exact ⟨[.wr a v], rfl, by simp [committed, sentBytes, eventBytes, hne]⟩
  · obtain rfl := eq_uartDrAddr_of_regAt hdr
    exact ⟨[.wr uartDrAddr v], rfl, by simp [committed, sentBytes, eventBytes]⟩

/-- One controller step of any operation commits what its write event sends (R137). -/
theorem exec_commits {i : Instr} {s t : State} (h : exec i s = .next t) : CommitsItsEvents s t := by
  cases exec_kind h with
  | fault r ht => subst ht; exact .of_same rfl rfl
  | quiet hc => exact hc.commits (.of_same rfl rfl)
  | read a v u hr hc => exact hc.commits (devRead_commits hr)
  | write a v u hw hc => exact hc.commits (devWrite_commits hw)

/-- A turn of the controller commits what the step of its operation commits. -/
theorem controllerTurn_commits {s t : State} (h : controllerTurn s = .next t) : CommitsItsEvents s t := by
  rcases controllerTurn_cases h with rfl | ⟨-, r, rfl⟩ | ⟨i, -, hi⟩
  · exact .of_same rfl rfl
  · exact .of_same rfl rfl
  · exact exec_commits hi

/-- Settles O20: no environment step changes the committed output, and an operation's step commits what it writes. -/
theorem committedOutputFollowsTheTrace : Obligations.CommittedOutputFollowsTheTrace := by
  intro s t h
  rcases step_turn_cases h with ⟨a, rest, -, rfl⟩ | ⟨u, hu, rfl⟩
  · exact CommitsItsEvents.of_same (by simp) (envStep_committed a _)
  · have hcommits := controllerTurn_commits hu
    exact hcommits

/-! ### Where the control registers change -/

/-- A control register is at one address only (R51). -/
theorem toNat_of_regAt_ctrl {n p : Nat} {a : Addr} (h : regAt n a = some (.gpioCtrl p)) : a.toNat = 0x1f000d0004 + 8 * p := by
  unfold regAt gpioRegAt at h
  split_ifs at h with hlo hhi hdr hfr hbase hpin hstatus hctrl <;> cases h
  unfold gpioBase at hbase
  unfold gpioBase gpioStride gpioCtrlOff at hctrl
  unfold gpioBase gpioStride
  omega

theorem Closed.gpioCtrl {u t : State} (h : Closed u t) : t.gpioCtrl = u.gpioCtrl := by
  cases h with
  | goes p h => rw [h]; rfl
  | ends r h => rw [h]; rfl

/-- A read leaves the bank. -/
theorem readThen_gpioCtrl {a : Addr} {s t : State} {k : Word → State → Exec} (hk : ∀ v u, k v u = .next t → Closed u t)
    (h : readThen a s k = .next t) : t.gpioCtrl = s.gpioCtrl := by
  rcases readThen_cases h with ⟨v, u, hr, hu⟩ | ⟨-, hfault⟩
  · rw [(hk _ _ hu).gpioCtrl, State.logEvent_gpioCtrl, (devRead_ok hr).1]
  · cases hfault; rfl

/-- A write leaves the bank, or writes the control register at its address. -/
theorem writeThen_gpioCtrl {a : Addr} {v : Word} {s t : State} {k : State → Exec}
    (hk : ∀ u, k u = .next t → t.gpioCtrl = u.gpioCtrl) (h : writeThen a v s k = .next t) :
    t.gpioCtrl = s.gpioCtrl ∨
      ∃ p, regAt s.params.numGpioPins a = some (.gpioCtrl p) ∧ t.gpioCtrl = ctrlWrite s.gpioCtrl p v := by
  rcases writeThen_cases h with ⟨u, hw, hu⟩ | ⟨r, -, hfault⟩
  · have hbank := hk _ hu
    rcases devWrite_ok hw with ⟨p, hp, rfl⟩ | ⟨-, -, rfl⟩
    · exact .inr ⟨p, hp, hbank⟩
    · exact .inl hbank
  · cases hfault; exact .inl rfl

theorem ticksStep_gpioCtrl {wrap : TicksPhase → Phase} {k : DWord → State → Exec} {s t : State} {p : TicksPhase}
    (hk : ∀ d u, k d u = .next t → Closed u t) (h : ticksStep wrap k s p = .next t) : t.gpioCtrl = s.gpioCtrl :=
  ticksStep_keeps (P := fun t => t.gpioCtrl = s.gpioCtrl) (fun _ _ => rfl) (fun _ _ hu => (hk _ _ hu).gpioCtrl) h

theorem delayStep_gpioCtrl {n : Word} {wrap : DelayPhase → Phase} {k : State → Exec} {s t : State} {d : DelayPhase}
    (hk : ∀ u, k u = .next t → Closed u t) (h : delayStep n wrap k s d = .next t) : t.gpioCtrl = s.gpioCtrl :=
  delayStep_keeps (P := fun t => t.gpioCtrl = s.gpioCtrl) (fun _ _ => rfl) (fun _ hu => (hk _ hu).gpioCtrl) h

theorem sendStep_gpioCtrl {s t : State} {p : List Byte × Bool} (h : sendStep s p = .next t) : t.gpioCtrl = s.gpioCtrl := by
  match p with
  | ([], ready) => cases h; rfl
  | (b :: rest, false) => rw [sendStep_poll] at h; cases h; rfl
  | (b :: rest, true) =>
    simp only [sendStep] at h
    refine (writeThen_gpioCtrl (fun u hu => ?_) h).resolve_right (by simp)
    cases rest with
    | nil => exact (finish_closed hu).gpioCtrl
    | cons c cs => exact (goTo_closed hu).gpioCtrl

/-- The bank is left alone but for the control register of the pin. -/
def BankChangesAt (pin : Word) (s t : State) : Prop :=
  t.gpioCtrl = s.gpioCtrl ∨ ∃ v, t.gpioCtrl = ctrlWrite s.gpioCtrl pin.toNat v

/-- A function select writes its pin's control register only (R150). -/
theorem setFunctionStep_bank {pin f : Word} {hold : Word → Phase} {k : State → Exec} {s t : State} {held : Option Word}
    (hk : ∀ u, k u = .next t → t.gpioCtrl = u.gpioCtrl) (h : setFunctionStep pin f hold k s held = .next t) :
    BankChangesAt pin s t := by
  cases held with
  | none =>
    simp only [setFunctionStep, pinChecked] at h
    split at h
    · exact .inl (readThen_gpioCtrl (fun _ _ => goTo_closed) h)
    · cases h; exact .inl rfl
  | some v =>
    refine (writeThen_gpioCtrl hk h).imp_right fun ⟨p, hp, ht⟩ => ⟨insertFunc v f, ?_⟩
    have hpin : (ctrlAddr pin).toNat = 0x1f000d0004 + 8 * p := toNat_of_regAt_ctrl hp
    rw [ctrlAddr_toNat, gpioBase] at hpin
    rwa [show pin.toNat = p by omega]

/-- An LED call writes its pin's control register only; the level has no effect (R153, R155, R156). -/
theorem ledStep_bank {pin : Word} {level : Bool} {hold : Word → Phase} {k : Result → State → Exec} {s t : State}
    {held : Option Word} (hk : ∀ r u, k r u = .next t → Closed u t) (h : ledStep pin level hold k s held = .next t) :
    BankChangesAt pin s t := by
  refine setFunctionStep_bank (fun u hu => ?_) h
  simp only [setLevel, pinChecked] at hu
  split at hu
  · exact (hk _ _ hu).gpioCtrl
  · cases hu; rfl

/-- What one controller step of an operation can do to the bank (R56). -/
theorem exec_bank {i : Instr} {s t : State} (h : exec i s = .next t) :
    t.gpioCtrl = s.gpioCtrl ∨
      (∃ a v p, i = .regWrite a v ∧ regAt s.params.numGpioPins a = some (.gpioCtrl p) ∧
        t.gpioCtrl = ctrlWrite s.gpioCtrl p v) ∨
      ∃ pin, heldPin i = some pin ∧ BankChangesAt pin s t := by
  cases i <;> obtain ⟨-, -, p, -, hp⟩ := guarded_next h
  case regRead addr => exact .inl (readThen_gpioCtrl (fun _ _ => finish_closed) hp)
  case regWrite addr value =>
    exact (writeThen_gpioCtrl (fun _ hu => (finish_closed hu).gpioCtrl) hp).imp_right fun ⟨q, hq, ht⟩ =>
      .inl ⟨addr, value, q, rfl, hq, ht⟩
  case ticks | uptimeSeconds => exact .inl (ticksStep_gpioCtrl (fun _ _ => finish_closed) hp)
  case delayUs n | delayMs n => exact .inl (delayStep_gpioCtrl (fun _ => finish_closed) hp)
  case uartInit => exact .inl (finish_closed hp).gpioCtrl
  case putChar c | putString str | putHex n => exact .inl (sendStep_gpioCtrl hp)
  case getChar =>
    cases p with
    | false => exact .inl (readThen_gpioCtrl (fun _ _ => goTo_closed) hp)
    | true => exact .inl (readThen_gpioCtrl (fun _ _ => finish_closed) hp)
  case gpioSetFunction pin f | gpioSetOutput pin | gpioSetInput pin =>
    exact .inr (.inr ⟨pin, rfl, setFunctionStep_bank (fun _ hu => (finish_closed hu).gpioCtrl) hp⟩)
  case gpioSet pin value | gpioGet pin =>
    simp only [setLevel, pinChecked] at hp
    split at hp
    · exact .inl (finish_closed hp).gpioCtrl
    · cases hp; exact .inl rfl
  case ledOn pin | ledOff pin => exact .inr (.inr ⟨pin, rfl, ledStep_bank (fun _ _ => finish_closed) hp⟩)
  case blinkActivityLed =>
    refine .inr (.inr ⟨pinActLed, rfl, ?_⟩)
    cases p with
    | ledOn held => exact ledStep_bank (fun _ _ => goTo_closed) hp
    | delayOn d => exact .inl (delayStep_gpioCtrl (fun _ => goTo_closed) hp)
    | ledOff held => exact ledStep_bank (fun _ _ => goTo_closed) hp
    | delayOff d => exact .inl (delayStep_gpioCtrl (fun _ => finish_closed) hp)

/-- Settles O18: by `exec_bank` the bank changes by one write at one pin, and `ctrlRead_ctrlWrite` says which register reads
differently after it. -/
theorem controlRegistersChangeOnlyAtTheirPin : Obligations.ControlRegistersChangeOnlyAtTheirPin := by
  intro i s t hwf h q hq
  rcases exec_bank h with hsame | ⟨a, v, p, rfl, hp, ht⟩ | ⟨pin, hpin, hsame | ⟨v, ht⟩⟩
  · exact absurd (by rw [hsame]) hq
  · rw [ht, ctrlRead_ctrlWrite hwf] at hq ⊢
    obtain rfl : q = p := by_contra fun hne => hq (if_neg hne)
    exact .inl ⟨a, v, rfl, toNat_of_regAt_ctrl hp, if_pos rfl⟩
  · exact absurd (by rw [hsame]) hq
  · rw [ht, ctrlRead_ctrlWrite hwf] at hq
    exact .inr ⟨pin, hpin, by_contra fun hne => hq (if_neg hne)⟩

/-! ### A next state from every state of the invariant -/

/-- The answer is a next state: no fault and no refusal as the outcome (log 9). -/
def Answers (o : Exec) : Prop := ∃ t, o = .next t

theorem goTo_answers (p : Phase) (s : State) : Answers (goTo p s) := ⟨_, rfl⟩

theorem finish_answers (r : Result) (s : State) : Answers (finish r s) := ⟨_, rfl⟩

/-- A fault that is raised is a mark in a next state (R174). -/
theorem raiseFault_answers (r : Fault) (s : State) : Answers (raiseFault r s) := ⟨_, rfl⟩

theorem readThen_answers {a : Addr} {s : State} {k : Word → State → Exec} (hk : ∀ v u, Answers (k v u)) :
    Answers (readThen a s k) := by
  unfold readThen
  split
  · exact hk _ _
  · exact raiseFault_answers _ _

theorem writeThen_answers {a : Addr} {v : Word} {s : State} {k : State → Exec} (hk : ∀ u, Answers (k u)) :
    Answers (writeThen a v s k) := by
  unfold writeThen
  split
  · exact hk _
  · exact raiseFault_answers _ _

theorem pinChecked_answers {pin : Word} {s : State} {k : Exec} (hk : Answers k) : Answers (pinChecked pin s k) := by
  unfold pinChecked
  split
  · exact hk
  · exact raiseFault_answers _ _

theorem ticksStep_answers {wrap : TicksPhase → Phase} {k : DWord → State → Exec} (hk : ∀ d u, Answers (k d u)) (s : State)
    (p : TicksPhase) : Answers (ticksStep wrap k s p) := by
  cases p with
  | hi1 => rw [ticksStep_hi1]; exact ⟨_, rfl⟩
  | lo h1 => rw [ticksStep_lo]; exact ⟨_, rfl⟩
  | hi2 h1 lo =>
    rw [ticksStep_hi2]
    split
    · exact hk _ _
    · exact ⟨_, rfl⟩

theorem delayStep_answers {n : Word} {wrap : DelayPhase → Phase} {k : State → Exec} (hk : ∀ u, Answers (k u)) (s : State)
    (d : DelayPhase) : Answers (delayStep n wrap k s d) := by
  cases d with
  | first p => rw [delayStep]; exact ticksStep_answers (fun _ _ => goTo_answers _ _) s p
  | spin start p =>
    rw [delayStep]
    refine ticksStep_answers (fun now u => ?_) s p
    split
    · exact hk u
    · exact goTo_answers _ _

theorem sendStep_answers (s : State) (p : List Byte × Bool) : Answers (sendStep s p) := by
  match p with
  | ([], ready) => exact finish_answers _ _
  | (b :: rest, false) => rw [sendStep_poll]; exact ⟨_, rfl⟩
  | (b :: rest, true) =>
    rw [sendStep]
    refine writeThen_answers fun u => ?_
    cases rest with
    | nil => exact finish_answers _ _
    | cons c cs => exact goTo_answers _ _

theorem setFunctionStep_answers {pin f : Word} {hold : Word → Phase} {k : State → Exec} (hk : ∀ u, Answers (k u)) (s : State)
    (held : Option Word) : Answers (setFunctionStep pin f hold k s held) := by
  cases held with
  | none => exact pinChecked_answers (readThen_answers fun _ _ => goTo_answers _ _)
  | some v => exact writeThen_answers hk

theorem ledStep_answers {pin : Word} {level : Bool} {hold : Word → Phase} {k : Result → State → Exec}
    (hk : ∀ r u, Answers (k r u)) (s : State) (held : Option Word) : Answers (ledStep pin level hold k s held) :=
  setFunctionStep_answers (fun _ => pinChecked_answers (hk _ _)) s held

/-- A meaning asked with no mark, in a phase of its own, answers what its step answers. -/
theorem guarded_answers {α : Type} {s : State} {p : Option α} {k : α → Exec} (hrun : Running s) (hp : p.isSome = true)
    (hk : ∀ a, Answers (k a)) : Answers (whileRunning s (inPhase p k)) := by
  obtain ⟨a, rfl⟩ := Option.isSome_iff_exists.1 hp
  rw [whileRunning_of hrun.1 hrun.2, inPhase_some]
  exact hk a

/-- With no mark an operation answers a next state from each of its phases: `phaseFits` admits, beside the start, only the phases
that the operation's meaning steps from (R22, R38), and past that guard every access ends in a next state. -/
theorem exec_answers {i : Instr} {s : State} (hrun : Running s) (hfits : phaseFits i s.phase = true) :
    Answers (exec i s) := by
  cases i
  all_goals
    refine guarded_answers hrun (by
      revert hfits
      cases s.phase <;> simp [phaseFits, leftToSend, sendBytes, isTicks, isDelay, isReceive, isSelect, isBlink, startOnly,
        ticksPhase, delayPhase, sendPhase, recvPhase, rmwPhase, blinkPhase]) fun p => ?_
  case regRead addr => exact readThen_answers fun _ _ => finish_answers _ _
  case regWrite addr value => exact writeThen_answers fun _ => finish_answers _ _
  case ticks | uptimeSeconds => exact ticksStep_answers (fun _ _ => finish_answers _ _) s p
  case delayUs n | delayMs n => exact delayStep_answers (fun _ => finish_answers _ _) s p
  case uartInit => exact finish_answers _ _
  case putChar c | putString str | putHex n => exact sendStep_answers s p
  case getChar =>
    cases p with
    | false => exact readThen_answers fun _ _ => goTo_answers _ _
    | true => exact readThen_answers fun _ _ => finish_answers _ _
  case gpioSetFunction pin f | gpioSetOutput pin | gpioSetInput pin =>
    exact setFunctionStep_answers (fun _ => finish_answers _ _) s p
  case gpioSet pin value | gpioGet pin => exact pinChecked_answers (finish_answers _ _)
  case ledOn pin | ledOff pin => exact ledStep_answers (fun _ _ => finish_answers _ _) s p
  case blinkActivityLed =>
    cases p with
    | ledOn held | ledOff held => exact ledStep_answers (fun _ _ => goTo_answers _ _) s held
    | delayOn d => exact delayStep_answers (fun _ => goTo_answers _ _) s d
    | delayOff d => exact delayStep_answers (fun _ => finish_answers _ _) s d

/-- The controller's turn answers a next state: the phase is one of the operation it has reached, so `foreignPhase` is shut out
(log 10). -/
theorem controllerTurn_answers {s : State} (h : BlockInv s) : Answers (controllerTurn s) := by
  cases hs : stopped s with
  | true => exact ⟨s, controllerTurn_of_stopped hs⟩
  | false =>
    have hrun : Running s := by simpa [stopped] using hs
    cases hw : fetch s with
    | none => exact ⟨s, controllerTurn_of_done hw⟩
    | some w =>
      cases hd : decode w with
      | error r => exact ⟨s.markRefused r, by simp [controllerTurn, hs, hw, hd]⟩
      | ok i =>
        rw [controllerTurn_of_decode hrun hw hd]
        exact exec_answers hrun (by simpa [phaseOk, current, hw, hd] using h.phase_ok)

theorem step_answers {s : State} (h : BlockInv s) : Answers (step s) := by
  cases he : s.env with
  | cons a rest => exact ⟨_, step_of_env_cons he⟩
  | nil =>
    obtain ⟨t, ht⟩ := controllerTurn_answers h
    exact ⟨t.openWindow, by rw [step_of_env_nil he, ht]⟩

/-- The invariant does not speak of the model's own schedule (log 1). -/
theorem BlockInv.with_schedule {s : State} (h : BlockInv s) (env : List EnvAgent) (turns : Nat) :
    BlockInv { s with env := env, turns := turns } := { h with }

/-- Settles O12: a step is a due environment step or the controller's turn; from a state of the invariant either answers a next
state, and by O13's lemmas it keeps the invariant. -/
theorem everyStepKeepsTheInvariant : Obligations.EveryStepKeepsTheInvariant := by
  intro s h
  obtain ⟨t, ht⟩ := step_answers h
  refine ⟨t, ht, ?_⟩
  rcases step_turn_cases ht with ⟨a, rest, -, rfl⟩ | ⟨u, hu, rfl⟩
  · exact envStep_keeps_blockInv (h.with_schedule rest s.turns) a
  · exact (controllerTurn_keeps_blockInv h hu).with_schedule _ _

end Sys2Proof.Machine

/-! SUPPORT. The statements about the memory (20_memory.md): the address map as a whole, accesses at unmapped addresses, and which
operations change the FIFOs. -/

namespace Sys2Proof.Machine

/-! ### The address map as a whole (R51) -/

/-- The address R51 gives a device register. -/
def DevReg.addr : DevReg → Nat
  | .gpioStatus p => 0x1f000d0000 + 8 * p
  | .gpioCtrl p => 0x1f000d0004 + 8 * p
  | .timerLo => 0x107c003004
  | .timerHi => 0x107c003008
  | .uartDr => 0x107d001000
  | .uartFr => 0x107d001018

/-- A controller of `pins` pins has the register: the pin of a pin register is one of them (R51). -/
def DevReg.presentIn (pins : Nat) : DevReg → Prop
  | .gpioStatus p | .gpioCtrl p => p < pins
  | .timerLo | .timerHi | .uartDr | .uartFr => True

/-- A mapped register is at its own address, and the controller has it. -/
theorem present_and_addr_of_regAt {n : Nat} {a : Addr} {r : DevReg} (h : regAt n a = some r) :
    r.presentIn n ∧ a.toNat = r.addr := by
  unfold regAt gpioRegAt at h
  split_ifs at h with hlo hhi hdr hfr hbase hpin hstatus hctrl <;> cases h
  · exact ⟨trivial, by rw [hlo]; rfl⟩
  · exact ⟨trivial, by rw [hhi]; rfl⟩
  · exact ⟨trivial, by rw [hdr]; rfl⟩
  · exact ⟨trivial, by rw [hfr]; rfl⟩
  all_goals
    refine ⟨hpin, ?_⟩
    simp only [gpioBase, gpioStride, gpioStatusOff, gpioCtrlOff, DevReg.addr] at *
    omega

/-- Each register the controller has is at its address (R51). -/
theorem regAt_of_addr {n : Nat} {a : Addr} {r : DevReg} (hr : r.presentIn n) (h : a.toNat = r.addr) :
    regAt n a = some r := by
  have heq : ∀ b : Addr, b.toNat = r.addr → a = b := fun b hb => BitVec.eq_of_toNat_eq (h.trans hb.symm)
  cases r with
  | gpioStatus p => exact regAt_of_status hr h
  | gpioCtrl p => exact regAt_of_ctrl hr h
  | timerLo => rw [heq timerLoAddr rfl, regAt_timerLoAddr]
  | timerHi => rw [heq timerHiAddr rfl, regAt_timerHiAddr]
  | uartDr => rw [heq uartDrAddr rfl, regAt_uartDrAddr]
  | uartFr => rw [heq uartFrAddr rfl, regAt_uartFrAddr]

/-- The address map, for every register at once. -/
theorem regAt_eq_some_iff {n : Nat} {a : Addr} {r : DevReg} :
    regAt n a = some r ↔ r.presentIn n ∧ a.toNat = r.addr :=
  ⟨present_and_addr_of_regAt, fun ⟨hr, h⟩ => regAt_of_addr hr h⟩

/-- A register that is no pin's, by the word of its address. -/
theorem regAt_eq_some_iff_eq {n : Nat} {a b : Addr} {r : DevReg} (hr : r.presentIn n) (hb : b.toNat = r.addr) :
    regAt n a = some r ↔ a = b := by
  rw [regAt_eq_some_iff, ← hb, BitVec.toNat_inj, and_iff_right hr]

/-- Settles O25, register by register from the address map as a whole. -/
theorem addressMapIsExact : Obligations.AddressMapIsExact := fun _ _ =>
  ⟨fun _ => regAt_eq_some_iff, fun _ => regAt_eq_some_iff, regAt_eq_some_iff_eq trivial rfl,
    regAt_eq_some_iff_eq trivial rfl, regAt_eq_some_iff_eq trivial rfl, regAt_eq_some_iff_eq trivial rfl⟩

/-! ### Accesses at unmapped addresses (R55) -/

/-- Both kinds of pin register and the four others are word aligned. -/
theorem MappedAddress.aligned {n : Nat} {a : Addr} (h : MappedAddress n a) : a.toNat % 4 = 0 := by
  rcases h with ⟨p, -, h | h⟩ | h
  · omega
  · omega
  · simp only [List.mem_cons, List.not_mem_nil, or_false] at h
    rcases h with rfl | rfl | rfl | rfl <;> rfl

/-- A read of an unmapped address raises UNMAPPED before anything else is done (R102, R174). -/
theorem readThen_of_unmapped {a : Addr} {s : State} (h : regAt s.params.numGpioPins a = none) (k : Word → State → Exec) :
    readThen a s k = raiseFault (.unmapped a) s := by simp [readThen, devRead, h]

/-- A write of an unmapped address raises UNMAPPED before anything else is done (R103, R174). -/
theorem writeThen_of_unmapped {a : Addr} {s : State} (h : regAt s.params.numGpioPins a = none) (v : Word)
    (k : State → Exec) : writeThen a v s k = raiseFault (.unmapped a) s := by simp [writeThen, devWrite, h]

/-- Settles O26: a mapped address is aligned, so a misaligned one has no register and either access raises the fault. -/
theorem misalignedAccessFaultsUnmapped : Obligations.MisalignedAccessFaultsUnmapped := by
  refine ⟨fun _ _ => MappedAddress.aligned, fun s a v hs ha => ?_⟩
  have hnone : regAt s.params.numGpioPins a = none := regAt_of_not_mapped fun hmap => ha hmap.aligned
  rw [exec_regRead_ready hs, exec_regWrite_ready hs, readThen_of_unmapped hnone, writeThen_of_unmapped hnone]
  exact ⟨rfl, rfl⟩

/-! ### Where the FIFOs change (R56) -/

/-- Neither FIFO is touched. -/
def FifosKept (s t : State) : Prop := t.tx = s.tx ∧ t.rx = s.rx

theorem FifosKept.trans {s u t : State} (hsu : FifosKept s u) (hut : FifosKept u t) : FifosKept s t :=
  ⟨hut.1.trans hsu.1, hut.2.trans hsu.2⟩

theorem Closed.fifosKept {u t : State} (h : Closed u t) : FifosKept u t := by
  cases h with
  | goes p h => subst h; exact ⟨rfl, rfl⟩
  | ends r h => subst h; exact ⟨rfl, rfl⟩

/-- A read leaves `tx`, and takes from `rx` only at UART_DR (R32, R102). -/
theorem devRead_fifos {a : Addr} {s u : State} {v : Word} (h : devRead a s = .ok (v, u)) :
    u.tx = s.tx ∧ (u.rx = s.rx ∨ a = uartDrAddr) := by
  refine ⟨by rw [(devRead_ok h).1], ?_⟩
  unfold devRead at h
  split at h
  case h_5 hdr => exact .inr (eq_uartDrAddr_of_regAt hdr)
  all_goals cases h <;> exact .inl rfl

/-- A write leaves `rx`, and appends to `tx` only at UART_DR (R32, R103). -/
theorem devWrite_fifos {a : Addr} {s u : State} {v : Word} (h : devWrite a v s = .ok u) :
    u.rx = s.rx ∧ (u.tx = s.tx ∨ a = uartDrAddr) := by
  rcases devWrite_ok h with ⟨p, -, rfl⟩ | ⟨hdr, -, rfl⟩
  · exact ⟨rfl, .inl rfl⟩
  · exact ⟨rfl, .inr (eq_uartDrAddr_of_regAt hdr)⟩

/-- `MemRead` before a step's end. -/
theorem readThen_fifos {a : Addr} {s t : State} {k : Word → State → Exec} (hk : ∀ v u, k v u = .next t → Closed u t)
    (h : readThen a s k = .next t) : t.tx = s.tx ∧ (t.rx = s.rx ∨ a = uartDrAddr) := by
  rcases readThen_cases h with ⟨v, u, hr, hu⟩ | ⟨-, hfault⟩
  · obtain ⟨htx, hrx⟩ := (hk _ _ hu).fifosKept
    rw [htx, hrx, State.logEvent_tx, State.logEvent_rx]
    exact devRead_fifos hr
  · cases hfault; exact ⟨rfl, .inl rfl⟩

/-- `MemWrite` before what leaves the FIFOs alone. -/
theorem writeThen_fifos {a : Addr} {v : Word} {s t : State} {k : State → Exec} (hk : ∀ u, k u = .next t → FifosKept u t)
    (h : writeThen a v s k = .next t) : t.rx = s.rx ∧ (t.tx = s.tx ∨ a = uartDrAddr) := by
  rcases writeThen_cases h with ⟨u, hw, hu⟩ | ⟨r, -, hfault⟩
  · obtain ⟨htx, hrx⟩ := hk _ hu
    rw [htx, hrx, State.logEvent_tx, State.logEvent_rx]
    exact devWrite_fifos hw
  · cases hfault; exact ⟨rfl, .inl rfl⟩

theorem ticksStep_fifosKept {wrap : TicksPhase → Phase} {k : DWord → State → Exec} {s t : State} {p : TicksPhase}
    (hk : ∀ d u, k d u = .next t → Closed u t) (h : ticksStep wrap k s p = .next t) : FifosKept s t :=
  ticksStep_keeps (P := FifosKept s) (fun _ _ => ⟨rfl, rfl⟩) (fun _ _ hu => (hk _ _ hu).fifosKept) h

theorem delayStep_fifosKept {n : Word} {wrap : DelayPhase → Phase} {k : State → Exec} {s t : State} {d : DelayPhase}
    (hk : ∀ u, k u = .next t → Closed u t) (h : delayStep n wrap k s d = .next t) : FifosKept s t :=
  delayStep_keeps (P := FifosKept s) (fun _ _ => ⟨rfl, rfl⟩) (fun _ hu => (hk _ hu).fifosKept) h

/-- The gated sending of bytes polls UART_FR and writes UART_DR; it takes nothing from `rx` (R131). -/
theorem sendStep_rx {s t : State} {p : List Byte × Bool} (h : sendStep s p = .next t) : t.rx = s.rx := by
  match p with
  | ([], ready) => cases h; rfl
  | (b :: rest, false) => rw [sendStep_poll] at h; cases h; rfl
  | (b :: rest, true) =>
    simp only [sendStep] at h
    refine (writeThen_fifos (fun u hu => ?_) h).1
    cases rest with
    | nil => exact (finish_closed hu).fifosKept
    | cons c cs => exact (goTo_closed hu).fifosKept

/-- No pin's control register is UART_DR (R51). -/
theorem ctrlAddr_ne_uartDrAddr (pin : Word) : ctrlAddr pin ≠ uartDrAddr := by
  intro h
  have haddr : gpioBase + (8 * pin.toNat + 4) = uartDrAddr.toNat := by rw [← ctrlAddr_toNat, h]
  have hbelow : uartDrAddr.toNat < gpioBase := by decide
  omega

/-- What passes the pin check goes on; what does not is a fault marked (R158). -/
theorem pinChecked_fifosKept {pin : Word} {s t : State} {k : Exec} (hk : k = .next t → FifosKept s t)
    (h : pinChecked pin s k = .next t) : FifosKept s t := by
  unfold pinChecked at h
  split at h
  · exact hk h
  · cases h; exact ⟨rfl, rfl⟩

/-- A function select accesses its pin's control register only (R150). -/
theorem setFunctionStep_fifosKept {pin f : Word} {hold : Word → Phase} {k : State → Exec} {s t : State} {held : Option Word}
    (hk : ∀ u, k u = .next t → FifosKept u t) (h : setFunctionStep pin f hold k s held = .next t) : FifosKept s t := by
  cases held with
  | none =>
    refine pinChecked_fifosKept (fun hread => ?_) h
    obtain ⟨htx, hrx⟩ := readThen_fifos (fun _ _ => goTo_closed) hread
    exact ⟨htx, hrx.resolve_right (ctrlAddr_ne_uartDrAddr pin)⟩
  | some v =>
    obtain ⟨hrx, htx⟩ := writeThen_fifos hk h
    exact ⟨htx.resolve_right (ctrlAddr_ne_uartDrAddr pin), hrx⟩

/-- An LED call accesses its pin's control register only (R153, R155, R156). -/
theorem ledStep_fifosKept {pin : Word} {level : Bool} {hold : Word → Phase} {k : Result → State → Exec} {s t : State}
    {held : Option Word} (hk : ∀ r u, k r u = .next t → Closed u t) (h : ledStep pin level hold k s held = .next t) :
    FifosKept s t :=
  setFunctionStep_fifosKept (fun _ => pinChecked_fifosKept fun hu => (hk _ _ hu).fifosKept) h

/-- What a controller step leaves of the FIFOs, by its operation: both, or `rx` of a sending operation and of REG_WRITE, which
appends to `tx` at UART_DR, or `tx` of GET_CHAR and of REG_READ, which takes from `rx` at UART_DR (R56). -/
inductive FifoEffect (s t : State) : Instr → Prop where
  | kept {i : Instr} (h : FifosKept s t) : FifoEffect s t i
  | sends {i : Instr} (hi : (sendBytes i).isSome = true) (hrx : t.rx = s.rx) : FifoEffect s t i
  | receives (htx : t.tx = s.tx) : FifoEffect s t .getChar
  | reads {a : Addr} (htx : t.tx = s.tx) (hrx : t.rx = s.rx ∨ a = uartDrAddr) : FifoEffect s t (.regRead a)
  | writes {a : Addr} {v : Word} (hrx : t.rx = s.rx) (htx : t.tx = s.tx ∨ a = uartDrAddr) : FifoEffect s t (.regWrite a v)

theorem exec_fifoEffect {i : Instr} {s t : State} (h : exec i s = .next t) : FifoEffect s t i := by
  cases i <;> obtain ⟨-, -, p, -, hp⟩ := guarded_next h
  case regRead addr =>
    obtain ⟨htx, hrx⟩ := readThen_fifos (fun _ _ => finish_closed) hp
    exact .reads htx hrx
  case regWrite addr value =>
    obtain ⟨hrx, htx⟩ := writeThen_fifos (fun _ hu => (finish_closed hu).fifosKept) hp
    exact .writes hrx htx
  case ticks | uptimeSeconds => exact .kept (ticksStep_fifosKept (fun _ _ => finish_closed) hp)
  case delayUs n | delayMs n => exact .kept (delayStep_fifosKept (fun _ => finish_closed) hp)
  case uartInit => exact .kept (finish_closed hp).fifosKept
  case putChar c | putString str | putHex n => exact .sends rfl (sendStep_rx hp)
  case getChar =>
    cases p with
    | false => exact .receives (readThen_fifos (fun _ _ => goTo_closed) hp).1
    | true => exact .receives (readThen_fifos (fun _ _ => finish_closed) hp).1
  case gpioSetFunction pin f | gpioSetOutput pin | gpioSetInput pin =>
    exact .kept (setFunctionStep_fifosKept (fun _ hu => (finish_closed hu).fifosKept) hp)
  case gpioSet pin value | gpioGet pin => exact .kept (pinChecked_fifosKept (fun hu => (finish_closed hu).fifosKept) hp)
  case ledOn pin | ledOff pin => exact .kept (ledStep_fifosKept (fun _ _ => finish_closed) hp)
  case blinkActivityLed =>
    cases p with
    | ledOn held | ledOff held => exact .kept (ledStep_fifosKept (fun _ _ => goTo_closed) hp)
    | delayOn d => exact .kept (delayStep_fifosKept (fun _ => goTo_closed) hp)
    | delayOff d => exact .kept (delayStep_fifosKept (fun _ => finish_closed) hp)

/-- Settles O19, by the effect each operation's step has on the FIFOs. -/
theorem fifosChangeOnlyByTheirOperations : Obligations.FifosChangeOnlyByTheirOperations := by
  intro i s t h
  cases exec_fifoEffect h with
  | kept hkept => exact ⟨fun htx => absurd hkept.1 htx, fun hrx => absurd hkept.2 hrx⟩
  | sends hi hrx => exact ⟨fun _ => .inl hi, fun hne => absurd hrx hne⟩
  | receives htx => exact ⟨fun hne => absurd htx hne, fun _ => .inl rfl⟩
  | @reads a htx hrx =>
    refine ⟨fun hne => absurd htx hne, fun hne => .inr ?_⟩
    obtain rfl := hrx.resolve_left hne
    rfl
  | @writes a v hrx htx =>
    refine ⟨fun hne => .inr ⟨v, ?_⟩, fun hne => absurd hrx hne⟩
    obtain rfl := htx.resolve_left hne
    rfl

end Sys2Proof.Machine

/-! SUPPORT. The statements about operation words (30_encoding.md): the decoder on encoded words, the words of a format, the
selectors and strings it refuses, and the lines of the assembler. -/

namespace Sys2Proof.Machine

/-! ### The decoder on encoded words (R71, R73) -/

/-- What the decoder answers for the word an operation is written as: of all that R72 asks, only well-formedness is left. -/
theorem decode_encode (i : Instr) : decode (encode i) = if i.wellFormed then .ok i else .error .nulInString := by
  simp [decode, encode, opOf_sel, buildInstr_slots]

/-- An accepted word is the word of the operation it decodes to: its selector names the operation and its slots
are the operands. -/
theorem encode_of_decode {w : OpWord} {i : Instr} (h : decode w = .ok i) : encode i = w ∧ i.wellFormed = true := by
  unfold decode at h
  split at h
  · cases h
  · rename_i op hop
    split at h
    · cases h
    · rename_i j hj
      split at h
      · rename_i hwf
        cases h
        obtain ⟨hiop, hslots⟩ := slots_of_buildInstr hj
        exact ⟨by rw [encode, hiop, hslots, sel_of_opOf hop], hwf⟩
      · cases h

/-- Settles O1: an accepted word is an encoded one, and an encoded word is accepted when its operation is well formed. -/
theorem decodeAndEncodeAgree : Obligations.DecodeAndEncodeAgree := by
  refine fun w i => ⟨encode_of_decode, ?_⟩
  rintro ⟨rfl, hwf⟩
  rw [decode_encode, if_pos hwf]

/-- Settles O5: each word is the encoded word of its operation. -/
theorem sampleWordsDecode : Obligations.SampleWordsDecode :=
  ⟨(decodeAndEncodeAgree _ _).2 ⟨rfl, rfl⟩, (decodeAndEncodeAgree _ _).2 ⟨rfl, rfl⟩,
    (decodeAndEncodeAgree _ _).2 ⟨rfl, rfl⟩, (decodeAndEncodeAgree _ _).2 ⟨rfl, rfl⟩⟩

/-! ### The words of a format (R71, R72, R77) -/

theorem putString_wellFormed_iff {str : List Byte} : (Instr.putString str).wellFormed = true ↔ 0x00#8 ∉ str := by
  simp [Instr.wellFormed, nulFree, List.forall_mem_ne']

/-- A byte 0x00 in a string is the only way to break R72 with operands of the right types. -/
theorem putString_of_not_wellFormed {i : Instr} (h : i.wellFormed ≠ true) : ∃ str, i = .putString str ∧ 0x00#8 ∈ str := by
  cases i with
  | putString str => exact ⟨str, rfl, not_not.1 (mt putString_wellFormed_iff.2 h)⟩
  | _ => exact absurd rfl h

/-- Slots of the types a format names are the operands of an operation: by the number of its slots, then by their types. -/
theorem buildInstr_of_kinds {op : Op} {sl : List Slot} (h : sl.map Slot.kind = op.format.slots) :
    ∃ i, buildInstr op sl = some i := by
  cases op
  case ticks | uptimeSeconds | uartInit | getChar | blinkActivityLed =>
    obtain rfl := List.map_eq_nil_iff.1 h
    exact ⟨_, rfl⟩
  case regRead | delayUs | delayMs | putChar | putString | putHex | gpioSetOutput | gpioSetInput | gpioGet | ledOn | ledOff =>
    obtain ⟨x, rfl, hx⟩ := List.map_eq_singleton_iff.1 h
    cases x <;> cases hx
    exact ⟨_, rfl⟩
  case regWrite | gpioSetFunction | gpioSet =>
    obtain ⟨x, rest, rfl, hx, hrest⟩ := List.map_eq_cons_iff.1 h
    obtain ⟨y, rfl, hy⟩ := List.map_eq_singleton_iff.1 hrest
    cases x <;> cases hx
    cases y <;> cases hy
    exact ⟨_, rfl⟩

/-- A word with the slots of its selector's format is the word of an operation, well formed or not. -/
theorem exists_encode_eq {w : OpWord} {op : Op} (hsel : w.sel = op.sel) (hslots : w.slots.map Slot.kind = op.format.slots) :
    ∃ i, i.op = op ∧ encode i = w := by
  obtain ⟨i, hi⟩ := buildInstr_of_kinds hslots
  obtain ⟨hiop, hislots⟩ := slots_of_buildInstr hi
  exact ⟨i, hiop, by rw [encode, hiop, hislots, ← hsel]⟩

/-- Settles O3: such a word is an encoded one, so it decodes unless its operation is not well formed. -/
theorem decoderAnswersEveryOperationWord : Obligations.DecoderAnswersEveryOperationWord := by
  intro w op hsel hslots
  obtain ⟨i, rfl, rfl⟩ := exists_encode_eq hsel hslots
  by_cases hwf : i.wellFormed = true
  · exact .inl ⟨i, by rw [decode_encode, if_pos hwf], rfl⟩
  · obtain ⟨str, rfl, hnul⟩ := putString_of_not_wellFormed hwf
    exact .inr ⟨rfl, by rw [decode_encode, if_neg hwf], str, rfl, hnul⟩

/-! ### Refused words (R24, R72, R75) -/

/-- A running controller at a word the decoder refuses records the refusal, and the mark then stops it (R24, R172). -/
theorem controllerTurn_of_refusal {s : State} {w : OpWord} {r : Refusal} (hrun : Running s) (hw : fetch s = some w)
    (hr : decode w = .error r) :
    controllerTurn s = .next { s with refused := some r } ∧
      controllerTurn { s with refused := some r } = .next { s with refused := some r } := by
  obtain ⟨hf, hnone⟩ := hrun
  exact ⟨by simp [controllerTurn, stopped, hf, hnone, hw, hr, State.markRefused],
    controllerTurn_of_stopped (by simp [stopped])⟩

/-- The selectors R75 reserves, as the rule lists them. -/
abbrev ReservedSelector (b : BitVec 8) : Prop :=
  b = 0x00#8 ∨ (0x03#8 ≤ b ∧ b ≤ 0x0F#8) ∨ (0x14#8 ≤ b ∧ b ≤ 0x1F#8) ∨ (0x25#8 ≤ b ∧ b ≤ 0x2F#8) ∨ 0x38#8 ≤ b

/-- No operation of R73 has a reserved selector. -/
theorem not_reserved_sel (op : Op) : ¬ ReservedSelector op.sel := by
  cases op <;> decide

theorem decode_of_reserved {w : OpWord} (h : ReservedSelector w.sel) : decode w = .error (.noSuchOperation w.sel) := by
  cases hop : opOf w.sel with
  | none => simp [decode, hop]
  | some op => exact absurd (sel_of_opOf hop ▸ h) (not_reserved_sel op)

/-- Settles O2: the selector names no operation, and the controller records the decoder's refusal. -/
theorem reservedSelectorsAreRefused : Obligations.ReservedSelectorsAreRefused := fun _ h =>
  ⟨decode_of_reserved h, fun _ hrun hw => controllerTurn_of_refusal hrun hw (decode_of_reserved h)⟩

theorem decode_encode_putString (str : List Byte) :
    decode (encode (.putString str)) = if 0x00#8 ∈ str then .error .nulInString else .ok (.putString str) := by
  rw [decode_encode]
  by_cases h : 0x00#8 ∈ str
  · rw [if_pos h, if_neg fun hwf => putString_wellFormed_iff.1 hwf h]
  · rw [if_neg h, if_pos (putString_wellFormed_iff.2 h)]

/-- Settles O4: both words are encoded ones, and of the two operations only PUT_STRING has an operand R72 restricts. -/
theorem nulIsRefusedInStringsOnly : Obligations.NulIsRefusedInStringsOnly := by
  refine ⟨decode_encode_putString, fun c => decode_encode (.putChar c), fun str s hnul hrun hw => ?_⟩
  exact controllerTurn_of_refusal hrun hw ((decode_encode_putString str).trans (if_pos hnul))

/-! ### The assembler (R78) -/

/-- A line with an operation puts its word before those of the lines after it. -/
theorem assemble_cons {line : String} {lines : List String} {w : OpWord} {ws : List OpWord}
    (hline : assembleLine line.toList = .ok (some w)) (hlines : assemble lines = .ok ws) :
    assemble (line :: lines) = .ok (w :: ws) := by
  simp [assemble, hline, hlines]

/-- Settles O6, line by line. -/
theorem syntaxExamplesAssemble : Obligations.SyntaxExamplesAssemble :=
  assemble_cons (by decide) <| assemble_cons (by decide) <| assemble_cons (by decide) <| assemble_cons (by decide) <|
    assemble_cons (by decide) rfl

end Sys2Proof.Machine

/-! SUPPORT. The statements about register access (40_register_access.md): what DevRead and DevWrite do at the registers the earlier
laws do not name, and the two operations as one such access with its event and its result. -/

namespace Sys2Proof.Machine

/-! ### The operations as one access (R100, R101) -/

/-- REG_READ of a value: the event and the result are appended to the state after the read's side effect (R100, R102). -/
theorem exec_regRead_of_ok {s u : State} {a : Addr} {v : Word} (hs : Ready s) (h : devRead a s = .ok (v, u)) :
    exec (.regRead a) s = .next (afterEnd (afterRead u a v) (.u32 v)) := by
  rw [exec_regRead_ready hs, readThen, h]
  rfl

/-- REG_WRITE that takes effect: the event and Unit are appended to the state the write changed (R101, R103). -/
theorem exec_regWrite_of_ok {s u : State} {a : Addr} {v : Word} (hs : Ready s) (h : devWrite a v s = .ok u) :
    exec (.regWrite a v) s = .next (afterEnd (afterWrite u a v) .unit) := by
  rw [exec_regWrite_ready hs, writeThen, h]
  rfl

/-- REG_WRITE that faults changes nothing but the mark (R103, R174). -/
theorem exec_regWrite_of_error {s : State} {a : Addr} {v : Word} {r : Fault} (hs : Ready s) (h : devWrite a v s = .error r) :
    exec (.regWrite a v) s = .next { s with fault := some r } := by
  rw [exec_regWrite_ready hs, writeThen, h]
  rfl

/-! ### Reads of the pin registers (R102) -/

theorem devRead_of_status {s : State} {a : Addr} {p : Nat} (hp : p < s.params.numGpioPins) (ha : a.toNat = 0x1f000d0000 + 8 * p) :
    devRead a s = .ok (Config.draw s.draws, s.countDraw) := by simp [devRead, regAt_of_status hp ha]

theorem devRead_of_ctrl {s : State} {a : Addr} {p : Nat} (hp : p < s.params.numGpioPins) (ha : a.toNat = 0x1f000d0004 + 8 * p) :
    devRead a s = .ok (ctrlRead s.gpioCtrl p, s) := by simp [devRead, regAt_of_ctrl hp ha]

/-! ### Writes (R103) -/

theorem devWrite_of_ctrl {s : State} {a : Addr} {p : Nat} (hp : p < s.params.numGpioPins) (ha : a.toNat = 0x1f000d0004 + 8 * p)
    (v : Word) : devWrite a v s = .ok { s with gpioCtrl := ctrlWrite s.gpioCtrl p v } := by simp [devWrite, regAt_of_ctrl hp ha]

theorem txFull_iff {s : State} : txFull s = true ↔ s.tx.length = s.params.txDepth := beq_iff_eq

theorem devWrite_uartDr_of_full {s : State} (h : s.tx.length = s.params.txDepth) (v : Word) :
    devWrite uartDrAddr v s = .error .txOverflow := by simp [devWrite, txFull_iff.2 h]

theorem devWrite_uartDr_of_room {s : State} (h : s.tx.length ≠ s.params.txDepth) (v : Word) :
    devWrite uartDrAddr v s = .ok { s with tx := s.tx ++ [lowByte v] } := by simp [devWrite, mt txFull_iff.1 h]

/-- The four registers R171 lists are the ones a write may not address. -/
theorem devWrite_of_readOnlyAddress {s : State} {a : Addr} (h : ReadOnlyAddress s.params.numGpioPins a) (v : Word) :
    devWrite a v s = .error (.readOnly a) := by
  have hreg : (∃ p, regAt s.params.numGpioPins a = some (.gpioStatus p)) ∨
      regAt s.params.numGpioPins a = some .timerLo ∨ regAt s.params.numGpioPins a = some .timerHi ∨
      regAt s.params.numGpioPins a = some .uartFr := by
    rcases h with ⟨p, hp, ha⟩ | ha
    · exact .inl ⟨p, regAt_of_status hp ha⟩
    · simp only [List.mem_cons, List.not_mem_nil, or_false] at ha
      rcases ha with rfl | rfl | rfl
      · exact .inr (.inl (regAt_timerLoAddr _))
      · exact .inr (.inr (.inl (regAt_timerHiAddr _)))
      · exact .inr (.inr (.inr (regAt_uartFrAddr _)))
  rcases hreg with ⟨p, hr⟩ | hr | hr | hr <;> simp [devWrite, hr]

/-! ### Each address -/

/-- Settles O27: at each address DevRead answers the register's value and side effect, and `exec_regRead_of_ok` adds event and result. -/
theorem regReadAtEachAddress : Obligations.RegReadAtEachAddress := by
  intro s a hs
  refine ⟨fun p hp ha => ?status, fun p hp ha => ?ctrl, ?timerLo, ?timerHi, ?drEmpty, ?drByte, ?flags, fun hmap => ?unmapped⟩
  case status => exact ⟨_, exec_regRead_of_ok hs (devRead_of_status hp ha)⟩
  case ctrl => exact exec_regRead_of_ok hs (devRead_of_ctrl hp ha)
  case timerLo => rintro rfl; exact exec_regRead_of_ok hs (devRead_timerLo s)
  case timerHi => rintro rfl; exact exec_regRead_of_ok hs (devRead_timerHi s)
  case drEmpty => rintro rfl hrx; exact ⟨_, exec_regRead_of_ok hs (devRead_uartDr_nil hrx)⟩
  case drByte =>
    rintro b rest rfl hrx
    exact ⟨_, lowByte_drWord _ b, exec_regRead_of_ok hs (devRead_uartDr_cons hrx)⟩
  case flags => rintro rfl; exact ⟨_, isFlagValue_frWord s _, exec_regRead_of_ok hs (devRead_uartFr s)⟩
  case unmapped =>
    rw [exec_regRead_ready hs, readThen_of_unmapped (regAt_of_not_mapped hmap)]
    rfl

/-- Settles O28: at each address DevWrite changes its register or names its fault; `ctrlRead_ctrlWrite` says what the bank then reads
as (R27). -/
theorem regWriteAtEachAddress : Obligations.RegWriteAtEachAddress := by
  intro s a v hs
  refine ⟨fun p hp ha => ?ctrl, fun p hp ha hwf => ?bank, ?dr, fun hro => ?readOnly, fun hmap => ?unmapped⟩
  case ctrl => exact exec_regWrite_of_ok hs (devWrite_of_ctrl hp ha v)
  case bank =>
    refine ⟨_, exec_regWrite_of_ok hs (devWrite_of_ctrl hp ha v), ?_, fun q hq => ?_⟩
    · exact (ctrlRead_ctrlWrite hwf p p v).trans (if_pos rfl)
    · exact (ctrlRead_ctrlWrite hwf p q v).trans (if_neg hq)
  case dr =>
    rintro rfl
    split
    case isTrue hfull => exact exec_regWrite_of_error hs (devWrite_uartDr_of_full hfull v)
    case isFalse hroom => exact exec_regWrite_of_ok hs (devWrite_uartDr_of_room hroom v)
  case readOnly => exact exec_regWrite_of_error hs (devWrite_of_readOnlyAddress hro v)
  case unmapped =>
    rw [exec_regWrite_ready hs, writeThen_of_unmapped (regAt_of_not_mapped hmap)]
    rfl

end Sys2Proof.Machine

/-! SUPPORT. The statements about the tick timer (41_tick_timer.md): the steps of the four operations, the counter's high half over
fewer than 2^32 timer steps, one iteration of a TICKS under an interleaving and in an execution, and the delays built on it. -/

namespace Sys2Proof.Machine

/-! ### The steps of TICKS and of the operations that read it (R110 to R113) -/

/-- Where the operation `i` stands at the phase `p`, its next step is the first TIMER_HI read of a TICKS (R110). -/
def ReadsHighFirst (i : Instr) (at_ : TicksPhase → Phase) (p : Phase) : Prop :=
  ∀ s : State, Running s → s.phase = p →
    exec i s = .next { afterRead s 0x107c003008#64 (highHalf s.ctr) with phase := at_ (.lo (highHalf s.ctr)) }

/-- An operation whose step at a phase is that of a TICKS about to begin reads TIMER_HI there. -/
theorem readsHighFirst_of_loop {i : Instr} {at_ : TicksPhase → Phase} {p : Phase} {k : DWord → State → Exec}
    (hexec : ∀ s, Running s → s.phase = p → exec i s = ticksStep at_ k s .hi1) : ReadsHighFirst i at_ p := by
  intro s hrun hp
  rw [hexec s hrun hp, ticksStep_hi1]
  rfl

theorem startsTicks_of_readsHighFirst {i : Instr} {at_ : TicksPhase → Phase} (h : ReadsHighFirst i at_ .start) :
    StartsTicks i at_ := fun s hs => h s hs.1 hs.2

theorem TicksSteps.readsHighFirst {i : Instr} {at_ : TicksPhase → Phase} {done : DWord → State → State}
    (h : TicksSteps i at_ done) : ReadsHighFirst i at_ (at_ .hi1) := fun s hrun => (h s hrun).1

/-- An operation whose steps at the phases `at_` are those of the TICKS loop takes the steps of R110 there. -/
theorem ticksSteps_of_loop {i : Instr} {at_ : TicksPhase → Phase} {k : DWord → State → Exec} {done : DWord → State → State}
    (hexec : ∀ s p, Running s → s.phase = at_ p → exec i s = ticksStep at_ k s p)
    (hk : ∀ d s, k d s = .next (done d s)) : TicksSteps i at_ done := by
  intro s hrun
  refine ⟨readsHighFirst_of_loop (fun s => hexec s .hi1) s hrun, fun h1 hp => ?lo, fun h1 lo hp => ?hi2⟩
  case lo =>
    rw [hexec s _ hrun hp, ticksStep_lo]
    rfl
  case hi2 =>
    rw [hexec s _ hrun hp, ticksStep_hi2, hk, ← apply_ite Host.Outcome.next]
    rfl

theorem delayElapsed_iff {start now : DWord} {n : Word} : delayElapsed start now n = true ↔ n.toNat ≤ (now - start).toNat := by
  have hn : (n.setWidth 64).toNat = n.toNat := BitVec.toNat_setWidth_of_le (by decide)
  simp only [delayElapsed, BitVec.ule, decide_eq_true_eq, hn]

theorem delayStep_first (n : Word) (wrap : DelayPhase → Phase) (k : State → Exec) (s : State) (p : TicksPhase) :
    delayStep n wrap k s (.first p) =
      ticksStep (fun q => wrap (.first q)) (fun start t => goTo (wrap (.spin start .hi1)) t) s p := rfl

theorem delayStep_spin (n : Word) (wrap : DelayPhase → Phase) (k : State → Exec) (s : State) (start : DWord) (p : TicksPhase) :
    delayStep n wrap k s (.spin start p) =
      ticksStep (fun q => wrap (.spin start q))
        (fun now t => if delayElapsed start now n then k t else goTo (wrap (.spin start .hi1)) t) s p := rfl

/-- An operation whose steps at the phases `at_` are those of the DELAY_US loop takes the steps of R111 there. -/
theorem delaySteps_of_loop {i : Instr} {n : Word} {at_ : DelayPhase → Phase} {k : State → Exec} {done : State → State}
    (hexec : ∀ s d, Running s → s.phase = at_ d → exec i s = delayStep n at_ k s d)
    (hk : ∀ s, k s = .next (done s)) : DelaySteps i n at_ done := by
  refine ⟨ticksSteps_of_loop (fun s p hrun hp => (hexec s _ hrun hp).trans (delayStep_first ..)) fun _ _ => rfl,
    fun start => ticksSteps_of_loop (fun s p hrun hp => (hexec s _ hrun hp).trans (delayStep_spin ..)) fun now s => ?_⟩
  simp only [delayElapsed_iff, hk, goTo, ← apply_ite Host.Outcome.next]
  rfl

theorem secondsOf_eq (t : DWord) : secondsOf t = BitVec.ofNat 32 (t.toNat / 1000000) := by
  apply BitVec.eq_of_toNat_eq
  simp [secondsOf, tickHz]

theorem exec_delayMs_running {s : State} (h : Running s) {n : Word} {d : DelayPhase} (hp : delayPhase s.phase = some d) :
    exec (.delayMs n) s = delayStep (usOf n) .delay (finish .unit) s d := by
  simp [exec, execDelayMs, whileRunning_of h.1 h.2, hp]

theorem ticks_readsHighFirst : ReadsHighFirst .ticks .ticks .start :=
  readsHighFirst_of_loop fun _ hrun hp => exec_ticks_running hrun (by rw [hp]; rfl)

theorem ticks_steps : TicksSteps .ticks .ticks fun d t => afterEnd t (.u64 d) :=
  ticksSteps_of_loop (fun _ _ hrun hp => exec_ticks_running hrun (by rw [hp]; rfl)) fun _ _ => rfl

theorem uptimeSeconds_readsHighFirst : ReadsHighFirst .uptimeSeconds .ticks .start :=
  readsHighFirst_of_loop fun _ hrun hp => exec_uptimeSeconds_running hrun (by rw [hp]; rfl)

theorem uptimeSeconds_steps :
    TicksSteps .uptimeSeconds .ticks fun d t => afterEnd t (.u32 (BitVec.ofNat 32 (d.toNat / 1000000))) :=
  ticksSteps_of_loop (fun _ _ hrun hp => exec_uptimeSeconds_running hrun (by rw [hp]; rfl)) fun d s => by
    rw [secondsOf_eq]; rfl

theorem delayUs_readsHighFirst (n : Word) : ReadsHighFirst (.delayUs n) (fun q => .delay (.first q)) .start :=
  readsHighFirst_of_loop fun _ hrun hp => (exec_delayUs_running hrun (by rw [hp]; rfl)).trans (delayStep_first ..)

theorem delayUs_steps (n : Word) : DelaySteps (.delayUs n) n .delay fun t => afterEnd t .unit :=
  delaySteps_of_loop (fun _ _ hrun hp => exec_delayUs_running hrun (by rw [hp]; rfl)) fun _ => rfl

theorem delayMs_readsHighFirst (n : Word) : ReadsHighFirst (.delayMs n) (fun q => .delay (.first q)) .start :=
  readsHighFirst_of_loop fun _ hrun hp => (exec_delayMs_running hrun (by rw [hp]; rfl)).trans (delayStep_first ..)

theorem delayMs_steps (n : Word) : DelaySteps (.delayMs n) (usOf n) .delay fun t => afterEnd t .unit :=
  delaySteps_of_loop (fun _ _ hrun hp => exec_delayMs_running hrun (by rw [hp]; rfl)) fun _ => rfl

/-- Settles O29: the steps of TICKS are those of the loop of R110, from its start too. -/
theorem ticksReadsHighLowHigh : Obligations.TicksReadsHighLowHigh :=
  ⟨rfl, startsTicks_of_readsHighFirst ticks_readsHighFirst, ticks_steps⟩

/-- Settles O30: the same loop, ended with the quotient of `secondsOf_eq`. -/
theorem uptimeDividesTheTicks : Obligations.UptimeDividesTheTicks :=
  ⟨rfl, startsTicks_of_readsHighFirst uptimeSeconds_readsHighFirst, uptimeSeconds_steps⟩

/-- Settles O31: the steps of DELAY_US are those of two TICKS loops, the second left when `delayElapsed_iff` says so. -/
theorem delayUsSpinsUntilElapsed : Obligations.DelayUsSpinsUntilElapsed := fun n =>
  ⟨rfl, startsTicks_of_readsHighFirst (delayUs_readsHighFirst n), delayUs_steps n⟩

/-- Settles O32: the steps of DELAY_MS are those of a DELAY_US of `US(n)`, which is the product of `usOf_eq`. -/
theorem delayMsMultipliesModulo : Obligations.DelayMsMultipliesModulo := by
  refine ⟨fun n => ⟨rfl, startsTicks_of_readsHighFirst (delayMs_readsHighFirst n), ?_⟩, fun n hn => ?_, by decide⟩
  · rw [← usOf_eq]
    exact delayMs_steps n
  · rw [usOf_eq, BitVec.toNat_ofNat]
    omega

/-! ### The counter over fewer than 2^32 timer steps (R28, R29, R114) -/

theorem highHalf_toNat (c : DWord) : (highHalf c).toNat = c.toNat / 2 ^ 32 := by
  have hc := c.isLt
  simp only [highHalf, BitVec.extractLsb'_toNat, Nat.shiftRight_eq_div_pow]
  omega

theorem highHalf_eq_iff {c d : DWord} : highHalf c = highHalf d ↔ c.toNat / 2 ^ 32 = d.toNat / 2 ^ 32 := by
  rw [← BitVec.toNat_inj, highHalf_toNat, highHalf_toNat]

/-- Where the high half is the same before and after fewer than 2^32 timer steps, it is the same all the way between. -/
theorem highHalf_between {c : DWord} {a₁ a₂ a₃ : Nat} (h₁₂ : a₁ ≤ a₂) (h₂₃ : a₂ ≤ a₃) (hslow : a₃ < a₁ + 2 ^ 32)
    (h : highHalf (c + BitVec.ofNat 64 a₁) = highHalf (c + BitVec.ofNat 64 a₃)) :
    highHalf (c + BitVec.ofNat 64 a₁) = highHalf (c + BitVec.ofNat 64 a₂) := by
  rw [highHalf_eq_iff] at h ⊢
  simp only [BitVec.toNat_add, BitVec.toNat_ofNat] at h ⊢
  omega

/-- Fewer than 2^32 timer steps change the high half at most once. -/
theorem highHalf_eq_of_ne_before {c : DWord} {a₁ a₃ a₄ a₆ : Nat} (h₁₃ : a₁ ≤ a₃) (h₃₄ : a₃ ≤ a₄) (h₄₆ : a₄ ≤ a₆)
    (hslow : a₆ < a₁ + 2 ^ 32) (h : highHalf (c + BitVec.ofNat 64 a₁) ≠ highHalf (c + BitVec.ofNat 64 a₃)) :
    highHalf (c + BitVec.ofNat 64 a₄) = highHalf (c + BitVec.ofNat 64 a₆) := by
  rw [Ne, highHalf_eq_iff] at h
  rw [highHalf_eq_iff]
  simp only [BitVec.toNat_add, BitVec.toNat_ofNat] at h ⊢
  omega

/-- An iteration whose two TIMER_HI reads agree composes the counter at its TIMER_LO read (R114). -/
theorem composeTicks_of_agree {c : DWord} {a₁ a₂ a₃ : Nat} (h₁₂ : a₁ ≤ a₂) (h₂₃ : a₂ ≤ a₃) (hslow : a₃ < a₁ + 2 ^ 32)
    (h : highHalf (c + BitVec.ofNat 64 a₁) = highHalf (c + BitVec.ofNat 64 a₃)) :
    composeTicks (highHalf (c + BitVec.ofNat 64 a₁)) (lowHalf (c + BitVec.ofNat 64 a₂)) = c + BitVec.ofNat 64 a₂ := by
  rw [highHalf_between h₁₂ h₂₃ hslow h, composeTicks_halves]

/-- The difference of two counter values is the timer steps between them, modulo 2^64 (R111). -/
theorem ctr_sub_toNat (c : DWord) {a b : Nat} (h : a ≤ b) :
    ((c + BitVec.ofNat 64 b) - (c + BitVec.ofNat 64 a)).toNat = (b - a) % 2 ^ 64 := by
  simp only [BitVec.toNat_sub, BitVec.toNat_add, BitVec.toNat_ofNat]
  omega

/-! ### A TICKS under an interleaving (R8, R110) -/

@[simp] theorem timerSteps_append (v w : List EnvAgent) : timerSteps (v ++ w) = timerSteps v + timerSteps w :=
  List.count_append

theorem envRun_ctr (w : List EnvAgent) (s : State) : (envRun w s).ctr = s.ctr + BitVec.ofNat 64 (timerSteps w) :=
  windowAdvancesTheCounterByItsTimerSteps w s

/-- `s` after the environment steps `w`, with the events `ev` of the accesses done meanwhile and its operation at the phase `p`: what
reads that change nothing else come to, whenever they were done. -/
def State.advance (s : State) (w : List EnvAgent) (ev : List Event) (p : Phase) : State :=
  { envRun w s with trace := s.trace ++ ev, phase := p }

section
variable (s : State) (w : List EnvAgent) (ev : List Event) (p : Phase)

@[simp] theorem State.advance_phase : (s.advance w ev p).phase = p := rfl
@[simp] theorem State.advance_trace : (s.advance w ev p).trace = s.trace ++ ev := rfl
@[simp] theorem State.advance_opidx : (s.advance w ev p).opidx = s.opidx := envRun_opidx w s
@[simp] theorem State.advance_results : (s.advance w ev p).results = s.results := envRun_results w s
@[simp] theorem State.advance_fault : (s.advance w ev p).fault = s.fault := envRun_fault w s
@[simp] theorem State.advance_refused : (s.advance w ev p).refused = s.refused := envRun_refused w s
@[simp] theorem State.advance_ctr : (s.advance w ev p).ctr = (envRun w s).ctr := rfl

end

theorem State.running_advance {s : State} (h : Running s) (w : List EnvAgent) (ev : List Event) (p : Phase) :
    Running (s.advance w ev p) := by simpa [Running] using h

/-- The environment agents neither read nor write what the reads of a TICKS leave behind. -/
theorem envRun_with_trace_phase (w : List EnvAgent) (s : State) (tr : List Event) (p : Phase) :
    envRun w { s with trace := tr, phase := p } = { envRun w s with trace := tr, phase := p } := by
  induction w generalizing s with
  | nil => rfl
  | cons a w ih =>
    have hstep : envStep a { s with trace := tr, phase := p } = { envStep a s with trace := tr, phase := p } := by
      rcases envStep_cases a s with ⟨rfl, h⟩ | ⟨rfl, htx, h⟩ | ⟨rfl, b, bs, htx, h⟩ | ⟨rfl, hin, h⟩ |
        ⟨rfl, b, bs, hin, hroom, h⟩ | ⟨rfl, b, bs, hin, hfull, h⟩
      · rfl
      all_goals simp [envStep, *]
    rw [envRun_cons, hstep, ih, envRun_cons]

theorem State.envRun_advance (s : State) (w v : List EnvAgent) (ev : List Event) (p : Phase) :
    envRun v (s.advance w ev p) = { envRun (w ++ v) s with trace := s.trace ++ ev, phase := p } := by
  rw [envRun_append]
  exact envRun_with_trace_phase v (envRun w s) _ p

/-- Reads on top of reads are reads. -/
theorem State.advance_advance (s : State) (w v : List EnvAgent) (ev ev' : List Event) (p q : Phase) :
    (s.advance w ev p).advance v ev' q = s.advance (w ++ v) (ev ++ ev') q := by
  rw [State.advance, State.envRun_advance, State.advance_trace, List.append_assoc]
  rfl

/-- A controller step that stays in its operation uses up its window, and the run goes on. -/
theorem runOp_cons_of_advance {i : Instr} {s : State} {w v : List EnvAgent} {ev : List Event} {p : Phase} (hrun : Running s)
    (h : exec i (envRun w s) = .next (s.advance v ev p)) (ws : List (List EnvAgent)) :
    runOp i (w :: ws) s = runOp i ws (s.advance v ev p) := by
  rw [runOp_cons_of_next h, if_pos]
  simp [stopped, hrun.1, hrun.2]

section
variable {i : Instr} {at_ : TicksPhase → Phase} {done : DWord → State → State} {s : State}

/-- The window before the first read of an iteration, and that read. -/
theorem runOp_first_read (hfirst : ReadsHighFirst i at_ s.phase) (hrun : Running s) (w : List EnvAgent)
    (ws : List (List EnvAgent)) :
    runOp i (w :: ws) s = runOp i ws
      (s.advance w [.rd 0x107c003008#64 (highHalf (envRun w s).ctr)] (at_ (.lo (highHalf (envRun w s).ctr)))) := by
  refine runOp_cons_of_advance hrun ?_ ws
  rw [hfirst _ (running_envRun hrun w) (envRun_phase w s)]
  simp [afterRead, State.advance]

/-- The window before the second read of an iteration, and that read. -/
theorem runOp_low_read (hsteps : TicksSteps i at_ done) {h₁ : Word} (hp : s.phase = at_ (.lo h₁)) (hrun : Running s)
    (w : List EnvAgent) (ws : List (List EnvAgent)) :
    runOp i (w :: ws) s = runOp i ws
      (s.advance w [.rd 0x107c003004#64 (lowHalf (envRun w s).ctr)] (at_ (.hi2 h₁ (lowHalf (envRun w s).ctr)))) := by
  obtain ⟨-, hlo, -⟩ := hsteps _ (running_envRun hrun w)
  refine runOp_cons_of_advance hrun ?_ ws
  rw [hlo h₁ (by rw [envRun_phase, hp])]
  simp [afterRead, State.advance, lowHalf]

/-- The window before the third read of an iteration, and what that read's step answers. -/
theorem runOp_high_read (hsteps : TicksSteps i at_ done) {h₁ lo : Word} (hp : s.phase = at_ (.hi2 h₁ lo)) (hrun : Running s)
    (w : List EnvAgent) (ws : List (List EnvAgent)) :
    runOp i (w :: ws) s =
      let ev := [.rd 0x107c003008#64 (highHalf (envRun w s).ctr)]
      let t := if h₁ = highHalf (envRun w s).ctr then done (composeTicks h₁ lo) (s.advance w ev s.phase)
        else s.advance w ev (at_ .hi1)
      if t.opidx = s.opidx ∧ stopped t = false then runOp i ws t else .next t := by
  obtain ⟨-, -, hhi⟩ := hsteps _ (running_envRun hrun w)
  refine runOp_cons_of_next ?_ ws
  rw [hhi h₁ lo (by rw [envRun_phase, hp])]
  simp [afterRead, State.advance, highHalf, composeTicks]

/-- The two TIMER_HI reads of an iteration agree, the windows before its three reads being `w₁`, `w₂`, `w₃` (R110). -/
abbrev HighReadsAgree (w₁ w₂ w₃ : List EnvAgent) (s : State) : Prop :=
  highHalf (envRun w₁ s).ctr = highHalf (envRun (w₁ ++ w₂ ++ w₃) s).ctr

/-- The events of that iteration (R110). -/
def iterationReads (w₁ w₂ w₃ : List EnvAgent) (s : State) : List Event :=
  [.rd 0x107c003008#64 (highHalf (envRun w₁ s).ctr), .rd 0x107c003004#64 (lowHalf (envRun (w₁ ++ w₂) s).ctr),
    .rd 0x107c003008#64 (highHalf (envRun (w₁ ++ w₂ ++ w₃) s).ctr)]

/-- `s` after that iteration (R110). -/
def iterationEnd (at_ : TicksPhase → Phase) (done : DWord → State → State) (w₁ w₂ w₃ : List EnvAgent) (s : State) : State :=
  let h₁ := highHalf (envRun w₁ s).ctr
  let lo := lowHalf (envRun (w₁ ++ w₂) s).ctr
  if HighReadsAgree w₁ w₂ w₃ s then
    done (composeTicks h₁ lo) (s.advance (w₁ ++ w₂ ++ w₃) (iterationReads w₁ w₂ w₃ s) (at_ (.hi2 h₁ lo)))
  else s.advance (w₁ ++ w₂ ++ w₃) (iterationReads w₁ w₂ w₃ s) (at_ .hi1)

/-- Three windows of a run at the first read of a TICKS are one iteration, after which the run goes on or ends. -/
theorem runOp_iteration (hfirst : ReadsHighFirst i at_ s.phase) (hsteps : TicksSteps i at_ done) (hrun : Running s)
    (w₁ w₂ w₃ : List EnvAgent) (ws : List (List EnvAgent)) :
    runOp i (w₁ :: w₂ :: w₃ :: ws) s =
      if (iterationEnd at_ done w₁ w₂ w₃ s).opidx = s.opidx ∧ stopped (iterationEnd at_ done w₁ w₂ w₃ s) = false then
        runOp i ws (iterationEnd at_ done w₁ w₂ w₃ s)
      else .next (iterationEnd at_ done w₁ w₂ w₃ s) := by
  rw [runOp_first_read hfirst hrun, runOp_low_read hsteps rfl (State.running_advance hrun _ _ _), State.advance_advance]
  rw [runOp_high_read hsteps rfl (State.running_advance hrun _ _ _)]
  simp only [State.envRun_advance, State.advance_advance, State.advance_phase, State.advance_opidx]
  rfl

/-- An iteration that only reads leaves the run going. -/
theorem runOp_of_iteration_stays (hfirst : ReadsHighFirst i at_ s.phase) (hsteps : TicksSteps i at_ done) (hrun : Running s)
    {w₁ w₂ w₃ v : List EnvAgent} {ev : List Event} {p : Phase} (h : iterationEnd at_ done w₁ w₂ w₃ s = s.advance v ev p)
    (ws : List (List EnvAgent)) : runOp i (w₁ :: w₂ :: w₃ :: ws) s = runOp i ws (s.advance v ev p) := by
  rw [runOp_iteration hfirst hsteps hrun, h, if_pos]
  simp [stopped, hrun.1, hrun.2]

/-- An iteration that ends the operation ends the run. -/
theorem runOp_of_iteration_ends (hfirst : ReadsHighFirst i at_ s.phase) (hsteps : TicksSteps i at_ done) (hrun : Running s)
    {w₁ w₂ w₃ v : List EnvAgent} {ev : List Event} {p : Phase} {r : Result}
    (h : iterationEnd at_ done w₁ w₂ w₃ s = afterEnd (s.advance v ev p) r) (ws : List (List EnvAgent)) :
    runOp i (w₁ :: w₂ :: w₃ :: ws) s = .next (afterEnd (s.advance v ev p) r) := by
  rw [runOp_iteration hfirst hsteps hrun, h, if_neg]
  simp [afterEnd]

/-- A TICKS ends in no fewer than three controller steps, so a run that has ended its operation had a whole iteration. -/
theorem exists_iteration_of_ended (hfirst : ReadsHighFirst i at_ s.phase) (hsteps : TicksSteps i at_ done) (hrun : Running s)
    {ws : List (List EnvAgent)} {t : State} (h : runOp i ws s = .next t) (hend : t.opidx ≠ s.opidx) :
    ∃ w₁ w₂ w₃ rest, ws = w₁ :: w₂ :: w₃ :: rest := by
  match ws with
  | [] => cases h; exact absurd rfl hend
  | [w₁] =>
    rw [runOp_first_read hfirst hrun] at h
    cases h
    exact absurd (State.advance_opidx ..) hend
  | [w₁, w₂] =>
    rw [runOp_first_read hfirst hrun, runOp_low_read hsteps rfl (State.running_advance hrun _ _ _), State.advance_advance] at h
    cases h
    exact absurd (State.advance_opidx ..) hend
  | w₁ :: w₂ :: w₃ :: rest => exact ⟨w₁, w₂, w₃, rest, rfl⟩

/-- An iteration whose TIMER_HI reads differ leaves the operation before its first read again. -/
theorem iterationEnd_of_differ {w₁ w₂ w₃ : List EnvAgent} (h : ¬ HighReadsAgree w₁ w₂ w₃ s) :
    iterationEnd at_ done w₁ w₂ w₃ s = s.advance (w₁ ++ w₂ ++ w₃) (iterationReads w₁ w₂ w₃ s) (at_ .hi1) := if_neg h

/-- R114: an iteration that returns while fewer than 2^32 timer steps occur between its first and its third read hands on exactly
the counter at its TIMER_LO read. -/
theorem iterationEnd_of_agree {w₁ w₂ w₃ : List EnvAgent} (hslow : timerSteps w₂ + timerSteps w₃ < 2 ^ 32)
    (h : HighReadsAgree w₁ w₂ w₃ s) :
    ∃ p, iterationEnd at_ done w₁ w₂ w₃ s =
      done (envRun (w₁ ++ w₂) s).ctr (s.advance (w₁ ++ w₂ ++ w₃) (iterationReads w₁ w₂ w₃ s) p) := by
  have hval : composeTicks (highHalf (envRun w₁ s).ctr) (lowHalf (envRun (w₁ ++ w₂) s).ctr) = (envRun (w₁ ++ w₂) s).ctr := by
    simp only [HighReadsAgree, envRun_ctr, timerSteps_append] at h ⊢
    exact composeTicks_of_agree (by omega) (by omega) (by omega) h
  refine ⟨at_ (.hi2 (highHalf (envRun w₁ s).ctr) (lowHalf (envRun (w₁ ++ w₂) s).ctr)), (if_pos h).trans ?_⟩
  rw [hval]

end

/-! ### TICKS (R110, R114, R116) -/

/-- A run of TICKS over one iteration that returns has ended with the counter at its TIMER_LO read. -/
theorem runOp_ticks_of_agree {s : State} (hfirst : ReadsHighFirst .ticks .ticks s.phase) (hrun : Running s)
    {w₁ w₂ w₃ : List EnvAgent} (hslow : timerSteps w₂ + timerSteps w₃ < 2 ^ 32) (h : HighReadsAgree w₁ w₂ w₃ s)
    (ws : List (List EnvAgent)) :
    ∃ p, runOp .ticks (w₁ :: w₂ :: w₃ :: ws) s = .next (afterEnd
      (s.advance (w₁ ++ w₂ ++ w₃) (iterationReads w₁ w₂ w₃ s) p) (.u64 (envRun (w₁ ++ w₂) s).ctr)) :=
  (iterationEnd_of_agree hslow h).imp fun _ hp => runOp_of_iteration_ends hfirst ticks_steps hrun hp ws

/-- A run of TICKS over one iteration that does not return goes on from before its first read. -/
theorem runOp_ticks_of_differ {s : State} (hfirst : ReadsHighFirst .ticks .ticks s.phase) (hrun : Running s)
    {w₁ w₂ w₃ : List EnvAgent} (h : ¬ HighReadsAgree w₁ w₂ w₃ s) (ws : List (List EnvAgent)) :
    runOp .ticks (w₁ :: w₂ :: w₃ :: ws) s =
      runOp .ticks ws (s.advance (w₁ ++ w₂ ++ w₃) (iterationReads w₁ w₂ w₃ s) (.ticks .hi1)) :=
  runOp_of_iteration_stays hfirst ticks_steps hrun (iterationEnd_of_differ h) ws

theorem afterEnd_advance {s : State} (hrun : Running s) (w : List EnvAgent) (ev : List Event) (p : Phase) (r : Result) :
    (afterEnd (s.advance w ev p) r).opidx = s.opidx + 1 ∧ (afterEnd (s.advance w ev p) r).results = s.results ++ [r] ∧
      Running (afterEnd (s.advance w ev p) r) := by simpa [afterEnd, Running] using hrun

/-- Settles O33: of the two ends of an iteration only the one that returns ends the operation. -/
theorem ticksReturnsTheCounterAtItsLowRead : Obligations.TicksReturnsTheCounterAtItsLowRead := by
  intro s t w₁ w₂ w₃ hrun hphase hslow ht hend
  have hfirst : ReadsHighFirst .ticks .ticks s.phase := by
    rcases hphase with hp | hp <;> rw [hp]
    · exact ticks_readsHighFirst
    · exact ticks_steps.readsHighFirst
  by_cases h : HighReadsAgree w₁ w₂ w₃ s
  · obtain ⟨p, hret⟩ := runOp_ticks_of_agree hfirst hrun hslow h []
    rw [hret] at ht
    cases ht
    rw [(afterEnd_advance hrun ..).2.1, envRun_ctr]
  · rw [runOp_ticks_of_differ hfirst hrun h] at ht
    cases ht
    simp at hend

/-- Settles O34: where the first iteration does not return, the high half has changed, and it does not change again before the
second has ended. -/
theorem ticksEndsWithinTwoIterations : Obligations.TicksEndsWithinTwoIterations := by
  rintro s ws ⟨hrun, hp⟩ hlen hslow
  match ws, hlen with
  | [w₁, w₂, w₃, w₄, w₅, w₆], _ =>
    have hslow' : timerSteps w₂ + timerSteps w₃ + timerSteps w₄ + timerSteps w₅ + timerSteps w₆ < 2 ^ 32 := by
      simpa [Nat.add_assoc] using hslow
    have hfirst : ReadsHighFirst .ticks .ticks s.phase := hp ▸ ticks_readsHighFirst
    by_cases h : HighReadsAgree w₁ w₂ w₃ s
    · obtain ⟨p, hret⟩ := runOp_ticks_of_agree hfirst hrun (by omega) h [w₄, w₅, w₆]
      exact ⟨_, _, hret, afterEnd_advance hrun ..⟩
    · have hagree : HighReadsAgree w₄ w₅ w₆ (s.advance (w₁ ++ w₂ ++ w₃) (iterationReads w₁ w₂ w₃ s) (.ticks .hi1)) := by
        simp only [HighReadsAgree, State.envRun_advance, envRun_ctr, timerSteps_append] at h ⊢
        exact highHalf_eq_of_ne_before (by omega) (by omega) (by omega) (by omega) h
      obtain ⟨p, hret⟩ := runOp_ticks_of_agree ticks_steps.readsHighFirst (State.running_advance hrun _ _ _) (by omega) hagree []
      rw [State.advance_advance] at hret
      exact ⟨_, _, (runOp_ticks_of_differ hfirst hrun h _).trans hret, afterEnd_advance hrun ..⟩

/-! ### DELAY_US under an interleaving (R111, R117) -/

/-- Where the first TICKS of a DELAY_US is about to read. -/
abbrev BeforeStart (n : Word) (s : State) : Prop :=
  Running s ∧ ReadsHighFirst (.delayUs n) (fun q => .delay (.first q)) s.phase

/-- One iteration of the first TICKS of a DELAY_US: it gives `start`, or begins again. -/
theorem runOp_delay_first {s : State} {n : Word} (hs : BeforeStart n s) {w₁ w₂ w₃ : List EnvAgent}
    (hslow : timerSteps w₂ + timerSteps w₃ < 2 ^ 32) (ws : List (List EnvAgent)) :
    runOp (.delayUs n) (w₁ :: w₂ :: w₃ :: ws) s = runOp (.delayUs n) ws
      (s.advance (w₁ ++ w₂ ++ w₃) (iterationReads w₁ w₂ w₃ s)
        (.delay (if HighReadsAgree w₁ w₂ w₃ s then .spin (envRun (w₁ ++ w₂) s).ctr .hi1 else .first .hi1))) := by
  obtain ⟨hrun, hfirst⟩ := hs
  refine runOp_of_iteration_stays hfirst (delayUs_steps n).1 hrun ?_ ws
  split_ifs with h
  · obtain ⟨p, hp⟩ := iterationEnd_of_agree hslow h
    rw [hp]
    rfl
  · exact iterationEnd_of_differ h

/-- One iteration of a later TICKS of a DELAY_US whose value ends it. -/
theorem runOp_delay_ends {s : State} {n : Word} {start : DWord} (hrun : Running s) (hp : s.phase = .delay (.spin start .hi1))
    {w₁ w₂ w₃ : List EnvAgent} (hslow : timerSteps w₂ + timerSteps w₃ < 2 ^ 32) (h : HighReadsAgree w₁ w₂ w₃ s)
    (hn : n.toNat ≤ ((envRun (w₁ ++ w₂) s).ctr - start).toNat) (ws : List (List EnvAgent)) :
    ∃ p, runOp (.delayUs n) (w₁ :: w₂ :: w₃ :: ws) s =
      .next (afterEnd (s.advance (w₁ ++ w₂ ++ w₃) (iterationReads w₁ w₂ w₃ s) p) .unit) := by
  obtain ⟨p, hend⟩ := iterationEnd_of_agree hslow h
  have hsteps := (delayUs_steps n).2 start
  refine ⟨p, runOp_of_iteration_ends (hp ▸ hsteps.readsHighFirst) hsteps hrun (hend.trans (if_pos hn)) ws⟩

/-- One iteration of a later TICKS of a DELAY_US that does not return, or whose value does not end it. -/
theorem runOp_delay_spins {s : State} {n : Word} {start : DWord} (hrun : Running s) (hp : s.phase = .delay (.spin start .hi1))
    {w₁ w₂ w₃ : List EnvAgent} (hslow : timerSteps w₂ + timerSteps w₃ < 2 ^ 32)
    (h : ¬ (HighReadsAgree w₁ w₂ w₃ s ∧ n.toNat ≤ ((envRun (w₁ ++ w₂) s).ctr - start).toNat)) (ws : List (List EnvAgent)) :
    runOp (.delayUs n) (w₁ :: w₂ :: w₃ :: ws) s = runOp (.delayUs n) ws
      (s.advance (w₁ ++ w₂ ++ w₃) (iterationReads w₁ w₂ w₃ s) (.delay (.spin start .hi1))) := by
  have hsteps := (delayUs_steps n).2 start
  refine runOp_of_iteration_stays (hp ▸ hsteps.readsHighFirst) hsteps hrun ?_ ws
  by_cases hagree : HighReadsAgree w₁ w₂ w₃ s
  · obtain ⟨p, hend⟩ := iterationEnd_of_agree hslow hagree
    rw [hend]
    exact if_neg fun hn => h ⟨hagree, hn⟩
  · exact iterationEnd_of_differ hagree

/-- With no timer step but `m >= n` between its first two TICKS, a DELAY_US of `n` ends in two iterations: the first gives the counter
as `start`, the second the counter `m` steps later (R111's example). -/
theorem runOp_delay_of_pause {s : State} (hs : Ready s) {n : Word} {m : Nat} (hnm : n.toNat ≤ m) (hm : m < 2 ^ 64) :
    ∃ ev p, ev.length = 6 ∧ runOp (.delayUs n) [[], [], [], List.replicate m .timer, [], []] s =
      .next (afterEnd (s.advance (List.replicate m .timer) ev p) .unit) := by
  obtain ⟨hrun, hp⟩ := hs
  have hbefore : BeforeStart n s := ⟨hrun, hp ▸ delayUs_readsHighFirst n⟩
  have hstart : runOp (.delayUs n) [[], [], [], List.replicate m .timer, [], []] s =
      runOp (.delayUs n) [List.replicate m .timer, [], []]
        (s.advance [] (iterationReads [] [] [] s) (.delay (.spin s.ctr .hi1))) :=
    runOp_delay_first hbefore (by decide) _ |>.trans (by rw [if_pos (show HighReadsAgree [] [] [] s from rfl)]; rfl)
  have helapsed : ∀ u : State, u.ctr = s.ctr → n.toNat ≤ ((envRun (List.replicate m .timer ++ []) u).ctr - s.ctr).toNat := by
    intro u hu
    have hcount : timerSteps (List.replicate m .timer) = m := List.count_replicate_self
    have hsub : s.ctr + BitVec.ofNat 64 m - s.ctr = BitVec.ofNat 64 m := add_sub_cancel_left ..
    rw [List.append_nil, envRun_ctr, hcount, hu, hsub, BitVec.toNat_ofNat, Nat.mod_eq_of_lt hm]
    exact hnm
  obtain ⟨p, hend⟩ := runOp_delay_ends
    (s := s.advance [] (iterationReads [] [] [] s) (.delay (.spin s.ctr .hi1))) (w₁ := List.replicate m .timer) (w₂ := [])
    (w₃ := []) (State.running_advance hrun _ _ _) rfl (by decide) (by simp [HighReadsAgree]) (helapsed _ rfl) []
  rw [State.advance_advance, List.append_nil, List.append_nil, List.nil_append] at hend
  exact ⟨_, p, rfl, hstart.trans hend⟩

/-- Settles O36, from `runOp_delay_of_pause`. -/
theorem delayEndsAfterSixReads : Obligations.DelayEndsAfterSixReads := by
  intro s n m hs hnm hm
  obtain ⟨ev, p, hev, hrun⟩ := runOp_delay_of_pause hs hnm hm
  obtain ⟨hidx, hres, -⟩ := afterEnd_advance hs.1 (List.replicate m .timer) ev p .unit
  exact ⟨_, hrun, hidx, hres, by simp [afterEnd, hev]⟩

/-- Settles O37: with no environment step the two TIMER_HI reads of an iteration agree, and DELAY_US of 0 is
`runOp_delay_of_pause` with no pause. -/
theorem undisturbedTimerOperations : Obligations.UndisturbedTimerOperations := by
  intro s hs
  obtain ⟨hrun, hp⟩ := hs
  refine ⟨?ticks, ?uptime, ?delay⟩
  case ticks =>
    obtain ⟨p, hend⟩ := runOp_ticks_of_agree (s := s) (hp ▸ ticks_readsHighFirst) hrun (w₁ := []) (w₂ := []) (w₃ := [])
      (by decide) rfl []
    exact ⟨_, hend, rfl, rfl⟩
  case uptime =>
    obtain ⟨p, hp'⟩ := iterationEnd_of_agree (s := s) (at_ := .ticks) (w₁ := []) (w₂ := []) (w₃ := []) (by decide) rfl
    exact ⟨_, runOp_of_iteration_ends (hp ▸ uptimeSeconds_readsHighFirst) uptimeSeconds_steps hrun hp' [], rfl,
      by simp [afterEnd, iterationReads]⟩
  case delay =>
    obtain ⟨ev, p, hev, hend⟩ := runOp_delay_of_pause ⟨hrun, hp⟩ (n := 0#32) (m := 0) (by decide) (by decide)
    exact ⟨_, hend, rfl, by simp [afterEnd, hev]⟩

/-! ### The timer steps a DELAY_US lets pass (R117) -/

/-- Any two consecutive windows hold fewer than 2^32 timer steps, so that every TICKS under them is exact (R114). -/
def SlowPairs (ws : List (List EnvAgent)) : Prop :=
  ∀ k, timerSteps (ws.getD k []) + timerSteps (ws.getD (k + 1) []) < 2 ^ 32

theorem SlowPairs.tail {w : List EnvAgent} {ws : List (List EnvAgent)} (h : SlowPairs (w :: ws)) : SlowPairs ws :=
  fun k => h (k + 1)

theorem length_iterationReads_append {w₁ w₂ w₃ : List EnvAgent} {s : State} {ev : List Event} {k : Nat}
    (h : ev.length = 3 * (k + 1)) : (iterationReads w₁ w₂ w₃ s ++ ev).length = 3 * (k + 1 + 1) := by
  simp only [List.length_append, h, iterationReads, List.length_cons, List.length_nil]
  omega

theorem iterationReturns_append_succ {rs ev : List Event} (h : rs.length = 3) (k : Nat) :
    IterationReturns (rs ++ ev) (k + 1) ↔ IterationReturns ev k := by
  have hskip : ∀ j, (rs ++ ev)[3 * (k + 1) + j]? = ev[3 * k + j]? := fun j => by
    rw [List.getElem?_append_right (by omega)]
    congr 1
    omega
  have hskip₀ : (rs ++ ev)[3 * (k + 1)]? = ev[3 * k]? := hskip 0
  simp only [IterationReturns, hskip, hskip₀]

theorem iterationReturns_zero {w₁ w₂ w₃ : List EnvAgent} {s : State} (ev : List Event) :
    IterationReturns (iterationReads w₁ w₂ w₃ s ++ ev) 0 ↔ HighReadsAgree w₁ w₂ w₃ s := by
  simp [IterationReturns, iterationReads, HighReadsAgree, eq_comm]

/-- The windows of one iteration and of those after it up to the TIMER_LO read of iteration `k`. -/
theorem take_iteration (w₁ w₂ w₃ : List EnvAgent) (ws : List (List EnvAgent)) (k : Nat) :
    (w₁ :: w₂ :: w₃ :: ws).take (3 * (k + 1) + 2) = w₁ :: w₂ :: w₃ :: ws.take (3 * k + 2) := rfl

/-- A DELAY_US that has sampled `start` and then ends does so in the last iteration of its events, whose TIMER_LO read found the
counter at least `n` past `start`. -/
theorem delay_spin_run {n : Word} {start : DWord} {t : State} : ∀ {ws : List (List EnvAgent)} {s : State}, Running s →
    s.phase = .delay (.spin start .hi1) → SlowPairs ws → runOp (.delayUs n) ws s = .next t → t.opidx = s.opidx + 1 →
    ∃ ev k, t.trace = s.trace ++ ev ∧ ev.length = 3 * (k + 1) ∧ IterationReturns ev k ∧
      n.toNat ≤ ((envRun (ws.take (3 * k + 2)).flatten s).ctr - start).toNat := by
  intro ws s hrun hp hslow ht hend
  have hsteps := (delayUs_steps n).2 start
  obtain ⟨w₁, w₂, w₃, rest, rfl⟩ := exists_iteration_of_ended (hp ▸ hsteps.readsHighFirst) hsteps hrun ht (by omega)
  have hpair : timerSteps w₂ + timerSteps w₃ < 2 ^ 32 := hslow 1
  by_cases h : HighReadsAgree w₁ w₂ w₃ s ∧ n.toNat ≤ ((envRun (w₁ ++ w₂) s).ctr - start).toNat
  · obtain ⟨p, hret⟩ := runOp_delay_ends hrun hp hpair h.1 h.2 rest
    rw [hret] at ht
    cases ht
    have hzero := (iterationReturns_zero (w₁ := w₁) (w₂ := w₂) (w₃ := w₃) (s := s) []).2 h.1
    refine ⟨iterationReads w₁ w₂ w₃ s, 0, rfl, rfl, by simpa using hzero, by simpa using h.2⟩
  · rw [runOp_delay_spins hrun hp hpair h] at ht
    obtain ⟨ev, k, htrace, hlen, hlast, hn⟩ :=
      delay_spin_run (State.running_advance hrun _ _ _) (State.advance_phase ..) hslow.tail.tail.tail ht (by simpa using hend)
    refine ⟨iterationReads w₁ w₂ w₃ s ++ ev, k + 1, by simpa using htrace, length_iterationReads_append hlen,
      (iterationReturns_append_succ rfl k).2 hlast, ?_⟩
    rw [take_iteration]
    simpa [State.envRun_advance] using hn
termination_by ws => ws.length

/-- A DELAY_US that ends has an iteration that gives `start` and a last iteration that gives the last `now`, and at least `n` timer
steps fall between their TIMER_LO reads. -/
theorem delay_run {n : Word} {t : State} : ∀ {ws : List (List EnvAgent)} {s : State}, BeforeStart n s → SlowPairs ws →
    runOp (.delayUs n) ws s = .next t → t.opidx = s.opidx + 1 →
    ∃ ev j k, t.trace = s.trace ++ ev ∧ ev.length = 3 * (k + 1) ∧ j < k ∧
      IterationReturns ev j ∧ (∀ i < j, ¬ IterationReturns ev i) ∧ IterationReturns ev k ∧
      n.toNat ≤ timerSteps ((ws.take (3 * k + 2)).drop (3 * j + 2)).flatten := by
  intro ws s hs hslow ht hend
  obtain ⟨w₁, w₂, w₃, rest, rfl⟩ := exists_iteration_of_ended hs.2 (delayUs_steps n).1 hs.1 ht (by omega)
  have hpair : timerSteps w₂ + timerSteps w₃ < 2 ^ 32 := hslow 1
  rw [runOp_delay_first hs hpair] at ht
  by_cases h : HighReadsAgree w₁ w₂ w₃ s
  · rw [if_pos h] at ht
    obtain ⟨ev, k, htrace, hlen, hlast, hn⟩ :=
      delay_spin_run (State.running_advance hs.1 _ _ _) (State.advance_phase ..) hslow.tail.tail.tail ht (by simpa using hend)
    refine ⟨iterationReads w₁ w₂ w₃ s ++ ev, 0, k + 1, by simpa using htrace, length_iterationReads_append hlen, by omega,
      (iterationReturns_zero ev).2 h, by simp, (iterationReturns_append_succ rfl k).2 hlast, ?_⟩
    simp only [State.envRun_advance, envRun_ctr] at hn
    rw [ctr_sub_toNat _ (by simp)] at hn
    rw [take_iteration]
    simp only [timerSteps_append, mul_zero, zero_add, List.drop_succ_cons, List.drop_zero, List.flatten_cons] at hn ⊢
    omega
  · rw [if_neg h] at ht
    obtain ⟨ev, j, k, htrace, hlen, hjk, hfirst, hretries, hlast, hn⟩ :=
      delay_run ⟨State.running_advance hs.1 _ _ _, (delayUs_steps n).1.readsHighFirst⟩ hslow.tail.tail.tail ht (by simpa using hend)
    refine ⟨iterationReads w₁ w₂ w₃ s ++ ev, j + 1, k + 1, by simpa using htrace, length_iterationReads_append hlen, by omega,
      (iterationReturns_append_succ rfl j).2 hfirst, fun i hi => ?_, (iterationReturns_append_succ rfl k).2 hlast, ?_⟩
    · cases i with
      | zero => exact mt (iterationReturns_zero ev).1 h
      | succ i => exact mt (iterationReturns_append_succ rfl i).1 (hretries i (by omega))
    · rw [take_iteration]
      exact hn
termination_by ws => ws.length

/-- Settles O35, by `delay_run` from the operation's start. -/
theorem delayWaitsAtLeastItsTicks : Obligations.DelayWaitsAtLeastItsTicks := by
  rintro s t n ws ⟨hrun, hp⟩ hslow ht hend
  obtain ⟨ev, j, k, htrace, hlen, hjk, hfirst, hretries, hlast, hn⟩ :=
    delay_run ⟨hrun, hp ▸ delayUs_readsHighFirst n⟩ hslow ht hend
  refine ⟨ev, j, k, htrace, hlen, hjk, hfirst, hretries, hlast, ?_⟩
  have hsum : timerSteps ((ws.take (3 * k + 2)).drop (3 * j + 2)).flatten =
      (((ws.take (3 * k + 2)).drop (3 * j + 2)).map timerSteps).sum := List.count_flatten
  exact hsum ▸ hn

/-! ### Counting the moves of an execution (R8, R37) -/

/-- How many of the steps from step `m` up to step `m'` are the agent's. -/
def movesBetween (who : Nat → Agent) (a : Agent) (m m' : Nat) : Nat := countMoves who a m (m' - m)

theorem countMoves_add (who : Nat → Agent) (a : Agent) (n x y : Nat) :
    countMoves who a n (x + y) = countMoves who a n x + countMoves who a (n + x) y := by
  induction y with
  | zero => rfl
  | succ y ih => rw [← Nat.add_assoc, countMoves, ih, countMoves, Nat.add_assoc, Nat.add_assoc n x y]

section
variable {who : Nat → Agent} {a : Agent}

theorem movesBetween_add {m₁ m₂ m₃ : Nat} (h₁₂ : m₁ ≤ m₂) (h₂₃ : m₂ ≤ m₃) :
    movesBetween who a m₁ m₃ = movesBetween who a m₁ m₂ + movesBetween who a m₂ m₃ := by
  have hlen : m₃ - m₁ = (m₂ - m₁) + (m₃ - m₂) := by omega
  have hstart : m₁ + (m₂ - m₁) = m₂ := by omega
  rw [movesBetween, hlen, countMoves_add, hstart]
  rfl

@[simp] theorem movesBetween_self (m : Nat) : movesBetween who a m m = 0 := by simp [movesBetween, countMoves]

@[simp] theorem movesBetween_succ (m : Nat) : movesBetween who a m (m + 1) = if who m = a then 1 else 0 := by
  simp [movesBetween, countMoves]

/-- An agent that steps again and again steps any number of times. -/
theorem exists_movesBetween_ge (hfair : ∀ n, ∃ m, n ≤ m ∧ who m = a) (m N : Nat) :
    ∃ m', m ≤ m' ∧ N ≤ movesBetween who a m m' := by
  induction N with
  | zero => exact ⟨m, le_rfl, Nat.zero_le _⟩
  | succ N ih =>
    obtain ⟨m', hm', hN⟩ := ih
    obtain ⟨q, hq, hturn⟩ := hfair m'
    refine ⟨q + 1, by omega, ?_⟩
    rw [movesBetween_add (hm'.trans hq) (Nat.le_succ q), movesBetween_add hm' hq, movesBetween_succ, if_pos hturn]
    omega

/-- TIMER_SLOW (R116), from one of the controller's steps to one of its next five. -/
theorem timerMoves_lt_of_slow (hslow : TimerSlow who) {m m' : Nat} (hle : m ≤ m') (hm : who m = .controller)
    (hm' : who m' = .controller) (hturns : movesBetween who .controller m m' ≤ 5) :
    movesBetween who (.env .timer) m m' < 2 ^ 32 := by
  have hcount : ∀ a, countMoves who a m (m' - m + 1) = movesBetween who a m m' + if who m' = a then 1 else 0 := fun a => by
    rw [countMoves, show m + (m' - m) = m' by omega]
    rfl
  have hlast : who (m + (m' - m + 1) - 1) = .controller := by rw [show m + (m' - m + 1) - 1 = m' by omega, hm']
  have h := hslow m (m' - m + 1) hm (by rw [hcount, if_pos hm']; omega) fun _ => hlast
  rw [hcount] at h
  omega

end

/-! ### The controller in an execution (R8, R22, R37) -/

/-- The running controller stands in its operation `i`, the program's number `o`, at the phase `p`. -/
structure StandsAt (i : Instr) (o : Nat) (p : Phase) (s : State) : Prop where
  running : Running s
  current : current s = some i
  opidx : s.opidx = o
  phase : s.phase = p

section
variable {i : Instr} {o : Nat} {p : Phase} {s : State}

theorem StandsAt.envStep (h : StandsAt i o p s) (a : EnvAgent) : StandsAt i o p (envStep a s) :=
  ⟨by simpa [Running] using h.running, by simpa [Machine.current, fetch] using h.current, by simpa using h.opidx,
    by simpa using h.phase⟩

theorem StandsAt.afterRead (h : StandsAt i o p s) (a : Addr) (v : Word) (q : Phase) :
    StandsAt i o q { afterRead s a v with phase := q } := ⟨h.running, h.current, h.opidx, rfl⟩

/-- The turn of a controller that stands in an operation is a step of it. -/
theorem StandsAt.controllerTurn (h : StandsAt i o p s) : controllerTurn s = exec i s := by
  have hcur := h.current
  unfold Machine.current at hcur
  split at hcur
  · cases hcur
  · rename_i w hw
    split at hcur
    · rename_i j hj
      cases hcur
      exact controllerTurn_of_decode h.running hw hj
    · cases hcur

theorem StandsAt.not_halted (h : StandsAt i o p s) : ¬ halted s := by
  rintro (hstop | hfetch)
  · simp [stopped, h.running.1, h.running.2] at hstop
  · have hcur := h.current
    simp [Machine.current, hfetch] at hcur

end

section
variable {σ : Nat → State} {who : Nat → Agent} {i : Instr} {o : Nat} {p : Phase} {m : Nat}

/-- Whoever steps, the counter moves with the timer alone (R30, R34). -/
theorem agentStep_ctr {a : Agent} {s t : State} (h : AgentStep a s t) :
    t.ctr = s.ctr + BitVec.ofNat 64 (if a = .env .timer then 1 else 0) := by
  cases a with
  | controller =>
    rcases controllerTurn_cases h with rfl | ⟨-, r, rfl⟩ | ⟨i, -, hi⟩
    · simp
    · simp
    · simp [(exec_frame hi).1.ctr]
  | env a =>
    obtain ⟨-, rfl⟩ := h
    rw [envStep_ctr]
    cases a <;> simp

/-- The counter along an execution. -/
theorem execution_ctr (hex : IsExecution σ who) {m' : Nat} (h : m ≤ m') :
    (σ m').ctr = (σ m).ctr + BitVec.ofNat 64 (movesBetween who (.env .timer) m m') := by
  induction m', h using Nat.le_induction with
  | base => simp
  | succ q hq ih =>
    rw [agentStep_ctr (hex q), ih, movesBetween_add hq (Nat.le_succ q), movesBetween_succ, BitVec.ofNat_add, BitVec.add_assoc]

/-- Under CTRL_FAIR a controller that stands in an operation gets a next turn, from where it stands. -/
theorem exists_next_turn (hex : IsExecution σ who) (hfair : CtrlFair σ who) (h : StandsAt i o p (σ m)) :
    ∃ m', m ≤ m' ∧ who m' = .controller ∧ movesBetween who .controller m m' = 0 ∧ StandsAt i o p (σ m') ∧
      exec i (σ m') = .next (σ (m' + 1)) := by
  obtain ⟨M, hM, hturn⟩ := hfair m
  obtain ⟨d, rfl⟩ := Nat.exists_eq_add_of_le hM
  clear hM
  induction d generalizing m with
  | zero =>
    have hm : who m = .controller := hturn.resolve_right h.not_halted
    have hstep := hex m
    rw [hm] at hstep
    exact ⟨m, le_rfl, hm, movesBetween_self m, h, h.controllerTurn.symm.trans hstep⟩
  | succ d ih =>
    have hstep := hex m
    cases hm : who m with
    | controller =>
      rw [hm] at hstep
      exact ⟨m, le_rfl, hm, movesBetween_self m, h, h.controllerTurn.symm.trans hstep⟩
    | env a =>
      rw [hm] at hstep
      obtain ⟨-, hnext⟩ := hstep
      obtain ⟨m', hle, hm', hcount, hstands, hexec⟩ := ih (m := m + 1) (hnext ▸ h.envStep a)
        (by rwa [show m + 1 + d = m + (d + 1) by omega])
      refine ⟨m', by omega, hm', ?_, hstands, hexec⟩
      rw [movesBetween_add (Nat.le_succ m) hle, movesBetween_succ, hm, hcount]
      rfl

/-! ### TICKS in an execution (R110, R114, R116) -/

/-- The three controller steps `m₁`, `m₂`, `m₃` of one iteration of a TICKS that begins at step `m` of an execution. -/
structure IterationTurns (σ : Nat → State) (who : Nat → Agent) (i : Instr) (o m m₁ m₂ m₃ : Nat) : Prop where
  le₁ : m ≤ m₁
  lt₂ : m₁ < m₂
  lt₃ : m₂ < m₃
  turn₁ : who m₁ = .controller
  turn₃ : who m₃ = .controller
  none_before : movesBetween who .controller m m₁ = 0
  two_before : movesBetween who .controller m₁ m₃ = 2
  stands : ∃ p, StandsAt i o p (σ m₃)

/-- A controller about to begin an iteration of a TICKS performs it, and it returns or begins again (R110). -/
theorem exists_iterationTurns (hex : IsExecution σ who) (hfair : CtrlFair σ who) {at_ : TicksPhase → Phase}
    {done : DWord → State → State} (hfirst : ReadsHighFirst i at_ p) (hsteps : TicksSteps i at_ done)
    (h : StandsAt i o p (σ m)) :
    ∃ m₁ m₂ m₃ v, IterationTurns σ who i o m m₁ m₂ m₃ ∧
      σ (m₃ + 1) = if highHalf (σ m₁).ctr = highHalf (σ m₃).ctr then
          done (composeTicks (highHalf (σ m₁).ctr) (lowHalf (σ m₂).ctr)) (afterRead (σ m₃) 0x107c003008#64 v)
        else { afterRead (σ m₃) 0x107c003008#64 v with phase := at_ .hi1 } := by
  obtain ⟨m₁, hle₁, hturn₁, hnone₁, hs₁, hexec₁⟩ := exists_next_turn hex hfair h
  rw [hfirst _ hs₁.running hs₁.phase, Host.Outcome.next.injEq] at hexec₁
  obtain ⟨m₂, hle₂, hturn₂, hnone₂, hs₂, hexec₂⟩ := exists_next_turn hex hfair (hexec₁ ▸ hs₁.afterRead ..)
  obtain ⟨-, hlo, -⟩ := hsteps _ hs₂.running
  rw [hlo _ hs₂.phase, Host.Outcome.next.injEq] at hexec₂
  obtain ⟨m₃, hle₃, hturn₃, hnone₃, hs₃, hexec₃⟩ := exists_next_turn hex hfair (hexec₂ ▸ hs₂.afterRead ..)
  obtain ⟨-, -, hhi⟩ := hsteps _ hs₃.running
  rw [hhi _ _ hs₃.phase, Host.Outcome.next.injEq] at hexec₃
  have htwo : movesBetween who .controller m₁ m₃ = 2 := by
    rw [movesBetween_add (Nat.le_succ m₁) (by omega : m₁ + 1 ≤ m₃), movesBetween_add hle₂ (by omega : m₂ ≤ m₃),
      movesBetween_add (Nat.le_succ m₂) hle₃]
    simp [hturn₁, hturn₂, hnone₂, hnone₃]
  exact ⟨m₁, m₂, m₃, _, ⟨hle₁, hle₂, hle₃, hturn₁, hturn₃, hnone₁, htwo, _, hs₃⟩, hexec₃.symm⟩
section
variable {m₁ m₂ m₃ : Nat}

theorem IterationTurns.lt₁₃ (ht : IterationTurns σ who i o m m₁ m₂ m₃) : m₁ < m₃ := ht.lt₂.trans ht.lt₃

/-- TIMER_SLOW from the first to the last read of an iteration. -/
theorem IterationTurns.slow (ht : IterationTurns σ who i o m m₁ m₂ m₃) (hslow : TimerSlow who) :
    movesBetween who (.env .timer) m₁ m₃ < 2 ^ 32 :=
  timerMoves_lt_of_slow hslow ht.lt₁₃.le ht.turn₁ ht.turn₃ (by rw [ht.two_before]; decide)

/-- TIMER_SLOW from one of the controller's last three steps before an iteration to the last of the iteration. -/
theorem IterationTurns.slow_from (ht : IterationTurns σ who i o m m₁ m₂ m₃) (hslow : TimerSlow who) {l : Nat} (hle : l ≤ m)
    (hturn : who l = .controller) (hcount : movesBetween who .controller l m ≤ 3) :
    movesBetween who (.env .timer) l m₃ < 2 ^ 32 := by
  have hle₃ : m ≤ m₃ := ht.le₁.trans ht.lt₁₃.le
  refine timerMoves_lt_of_slow hslow (hle.trans hle₃) hturn ht.turn₃ ?_
  rw [movesBetween_add hle hle₃, movesBetween_add ht.le₁ ht.lt₁₃.le, ht.none_before, ht.two_before]
  omega

/-- Under TIMER_SLOW an iteration that returns hands on the counter at its TIMER_LO read (R114). -/
theorem IterationTurns.composeTicks_eq (ht : IterationTurns σ who i o m m₁ m₂ m₃) (hex : IsExecution σ who)
    (hslow : TimerSlow who) (h : highHalf (σ m₁).ctr = highHalf (σ m₃).ctr) :
    composeTicks (highHalf (σ m₁).ctr) (lowHalf (σ m₂).ctr) = (σ m₂).ctr := by
  have h₁₃ := ht.slow hslow
  have hsum₂ := movesBetween_add (who := who) (a := .env .timer) ht.le₁ ht.lt₂.le
  have hsum₃ := movesBetween_add (who := who) (a := .env .timer) ht.lt₂.le ht.lt₃.le
  have hsum := movesBetween_add (who := who) (a := .env .timer) ht.le₁ ht.lt₁₃.le
  have hle₂ : m ≤ m₂ := ht.le₁.trans ht.lt₂.le
  rw [execution_ctr hex ht.le₁, execution_ctr hex (hle₂.trans ht.lt₃.le)] at h
  rw [execution_ctr hex ht.le₁, execution_ctr hex hle₂]
  exact composeTicks_of_agree (by omega) (by omega) (by omega) h

/-- Where an iteration does not return, the high half has changed, and under TIMER_SLOW it does not change again before the next
iteration has ended (R116). -/
theorem IterationTurns.agree_of_differ {n₁ n₂ n₃ : Nat} (ht : IterationTurns σ who i o m m₁ m₂ m₃)
    (hn : IterationTurns σ who i o (m₃ + 1) n₁ n₂ n₃) (hex : IsExecution σ who)
    (hslow : movesBetween who (.env .timer) m₁ n₃ < 2 ^ 32) (h : highHalf (σ m₁).ctr ≠ highHalf (σ m₃).ctr) :
    highHalf (σ n₁).ctr = highHalf (σ n₃).ctr := by
  have hle₃ : m ≤ m₃ := ht.le₁.trans ht.lt₁₃.le
  have hlen₁ : m₃ ≤ n₁ := (Nat.le_succ m₃).trans hn.le₁
  have hsum₁ := movesBetween_add (who := who) (a := .env .timer) ht.le₁ (ht.lt₁₃.le.trans (hlen₁.trans hn.lt₁₃.le))
  have hsum₃ := movesBetween_add (who := who) (a := .env .timer) ht.le₁ ht.lt₁₃.le
  have hsumn₁ := movesBetween_add (who := who) (a := .env .timer) hle₃ hlen₁
  have hsumn₃ := movesBetween_add (who := who) (a := .env .timer) (hle₃.trans hlen₁) hn.lt₁₃.le
  rw [execution_ctr hex ht.le₁, execution_ctr hex hle₃] at h
  rw [execution_ctr hex (hle₃.trans hlen₁), execution_ctr hex (hle₃.trans (hlen₁.trans hn.lt₁₃.le))]
  exact highHalf_eq_of_ne_before (by omega) (by omega) (by omega) (by omega) h

end

/-- R116: under TIMER_SLOW a TICKS ends within two iterations, with the counter at a TIMER_LO read `m₂` that comes fewer than 2^32
timer steps before its last read `m₃`, and fewer than 2^33 after the controller's step before the TICKS. -/
theorem exists_tick (hex : IsExecution σ who) (hfair : CtrlFair σ who) (hslow : TimerSlow who) {at_ : TicksPhase → Phase}
    {done : DWord → State → State} (hfirst : ReadsHighFirst i at_ p) (hsteps : TicksSteps i at_ done)
    (h : StandsAt i o p (σ m)) :
    ∃ m₂ m₃ v q, m ≤ m₂ ∧ m₂ < m₃ ∧ who m₃ = .controller ∧ StandsAt i o q (σ m₃) ∧
      σ (m₃ + 1) = done (σ m₂).ctr (afterRead (σ m₃) 0x107c003008#64 v) ∧
      movesBetween who (.env .timer) m₂ m₃ < 2 ^ 32 ∧
      ∀ l, l + 1 = m → who l = .controller → movesBetween who (.env .timer) l m₂ < 2 ^ 33 := by
  obtain ⟨m₁, m₂, m₃, v, ht, hend⟩ := exists_iterationTurns hex hfair hfirst hsteps h
  obtain ⟨q, hs₃⟩ := ht.stands
  have hle₂ : m ≤ m₂ := ht.le₁.trans ht.lt₂.le
  have hslow₁₃ := ht.slow hslow
  have hsum₁₃ := movesBetween_add (who := who) (a := .env .timer) ht.lt₂.le ht.lt₃.le
  have hbefore : ∀ l, l + 1 = m → who l = .controller → movesBetween who (.env .timer) l m₃ < 2 ^ 32 := by
    rintro l rfl hl
    exact ht.slow_from hslow (Nat.le_succ l) hl (by rw [movesBetween_succ, if_pos hl]; decide)
  by_cases hagree : highHalf (σ m₁).ctr = highHalf (σ m₃).ctr
  · rw [if_pos hagree, ht.composeTicks_eq hex hslow hagree] at hend
    refine ⟨m₂, m₃, v, q, hle₂, ht.lt₃, ht.turn₃, hs₃, hend, by omega, fun l hl hturn => ?_⟩
    have hl₃ := hbefore l hl hturn
    rw [movesBetween_add (by omega : l ≤ m₂) ht.lt₃.le] at hl₃
    omega
  · rw [if_neg hagree] at hend
    obtain ⟨n₁, n₂, n₃, v', hn, hend'⟩ :=
      exists_iterationTurns hex hfair hsteps.readsHighFirst hsteps (hend ▸ hs₃.afterRead ..)
    obtain ⟨q', hs₃'⟩ := hn.stands
    have hlt : m₃ < n₂ := Nat.lt_of_succ_lt (hn.le₁.trans_lt hn.lt₂)
    have hslow' : movesBetween who (.env .timer) m₁ n₃ < 2 ^ 32 := by
      refine hn.slow_from hslow (ht.lt₁₃.le.trans (Nat.le_succ m₃)) ht.turn₁ ?_
      rw [movesBetween_add ht.lt₁₃.le (Nat.le_succ m₃), ht.two_before, movesBetween_succ, if_pos ht.turn₃]
    have hagree' := ht.agree_of_differ hn hex hslow' hagree
    have hle₁n₂ : m₁ ≤ n₂ := ht.lt₁₃.le.trans hlt.le
    rw [movesBetween_add hle₁n₂ hn.lt₃.le] at hslow'
    rw [if_pos hagree', hn.composeTicks_eq hex hslow hagree'] at hend'
    refine ⟨n₂, n₃, v', q', (hle₂.trans ht.lt₃.le).trans hlt.le, hn.lt₃, hn.turn₃, hs₃', hend', by omega, fun l hl hturn => ?_⟩
    have hl₃ := hbefore l hl hturn
    have hlm₁ : l ≤ m₁ := by have := ht.le₁; omega
    rw [movesBetween_add hlm₁ ht.lt₁₃.le] at hl₃
    rw [movesBetween_add hlm₁ hle₁n₂]
    omega

/-! ### DELAY_US in an execution (R117) -/

/-- The controller has just done step `q`, the last of an iteration of a DELAY_US that sampled `start` at step `l` and goes on, and
the true number of timer steps since then is still far from 2^64. -/
structure SpinsFrom (σ : Nat → State) (who : Nat → Agent) (n : Word) (o l q : Nat) : Prop where
  le : l ≤ q
  turn : who q = .controller
  stands : StandsAt (.delayUs n) o (.delay (.spin (σ l).ctr .hi1)) (σ (q + 1))
  waited : movesBetween who (.env .timer) l q < n.toNat + 2 ^ 32

/-- A DELAY_US about to start comes to sample `start`. -/
theorem exists_spinsFrom (hex : IsExecution σ who) (hfair : CtrlFair σ who) (hslow : TimerSlow who) {n : Word}
    (h : StandsAt (.delayUs n) o .start (σ m)) : ∃ l q, m ≤ l ∧ SpinsFrom σ who n o l q := by
  obtain ⟨m₂, m₃, v, q, hle, hlt, hturn, hs₃, hend, hshort, -⟩ :=
    exists_tick hex hfair hslow (delayUs_readsHighFirst n) (delayUs_steps n).1 h
  refine ⟨m₂, m₃, hle, hlt.le, hturn, hend ▸ hs₃.afterRead .., by omega⟩

/-- The next TICKS of a DELAY_US ends it, unless fewer than `n` timer steps have passed at its TIMER_LO read; so fewer than
`n + 2^32` have at its last read. -/
theorem SpinsFrom.next (hex : IsExecution σ who) (hfair : CtrlFair σ who) (hslow : TimerSlow who) {n : Word} {l q : Nat}
    (h : SpinsFrom σ who n o l q) : ∃ q', q < q' ∧ ((σ (q' + 1)).opidx = o + 1 ∨ SpinsFrom σ who n o l q') := by
  have hsteps := (delayUs_steps n).2 (σ l).ctr
  obtain ⟨m₂, m₃, v, p, hle, hlt, hturn, hs₃, hend, hshort, hsoon⟩ :=
    exists_tick hex hfair hslow hsteps.readsHighFirst hsteps h.stands
  have hle₂ : l ≤ m₂ := h.le.trans (by omega)
  have hreach : movesBetween who (.env .timer) l m₂ < n.toNat + 2 ^ 32 + 2 ^ 33 := by
    rw [movesBetween_add h.le (by omega : q ≤ m₂)]
    exact Nat.add_lt_add h.waited (hsoon q rfl h.turn)
  have helapsed : ((σ m₂).ctr - (σ l).ctr).toNat = movesBetween who (.env .timer) l m₂ := by
    have hn := n.isLt
    have hsub : (σ l).ctr + BitVec.ofNat 64 (movesBetween who (.env .timer) l m₂) - (σ l).ctr = _ := add_sub_cancel_left ..
    rw [execution_ctr hex hle₂, hsub, BitVec.toNat_ofNat, Nat.mod_eq_of_lt (by omega)]
  refine ⟨m₃, by omega, ?_⟩
  rw [helapsed] at hend
  split_ifs at hend with hn
  · refine .inl ?_
    rw [hend]
    exact congrArg (· + 1) hs₃.opidx
  · refine .inr ⟨hle₂.trans hlt.le, hturn, hend ▸ hs₃.afterRead .., ?_⟩
    rw [movesBetween_add hle₂ hlt.le]
    omega

/-- A DELAY_US that has sampled `start` ends, or spins as late as one likes. -/
theorem SpinsFrom.ends_or_spins (hex : IsExecution σ who) (hfair : CtrlFair σ who) (hslow : TimerSlow who) {n : Word} {l q : Nat}
    (h : SpinsFrom σ who n o l q) (N : Nat) :
    (∃ m, l < m ∧ (σ m).opidx = o + 1) ∨ ∃ q', N ≤ q' ∧ SpinsFrom σ who n o l q' := by
  induction N with
  | zero => exact .inr ⟨q, Nat.zero_le q, h⟩
  | succ N ih =>
    rcases ih with hend | ⟨q', hN, hspins⟩
    · exact .inl hend
    · obtain ⟨q'', hlt, hend | hspins'⟩ := hspins.next hex hfair hslow
      · exact .inl ⟨q'' + 1, by have := hspins.le; omega, hend⟩
      · exact .inr ⟨q'', by omega, hspins'⟩

end

/-- Settles O38: while it spins, a DELAY_US sees its `n` timer steps come under TIMER_FAIR. -/
theorem delayEndsUnderFairness : Obligations.DelayEndsUnderFairness := by
  intro σ who k n hex hfair htimer hslow hready hcur
  obtain ⟨hrun, hp⟩ := hready
  obtain ⟨l, q, hkl, hspins⟩ := exists_spinsFrom hex hfair hslow ⟨hrun, hcur, rfl, hp⟩
  obtain ⟨M, hlM, hM⟩ := exists_movesBetween_ge htimer l (n.toNat + 2 ^ 32)
  rcases hspins.ends_or_spins hex hfair hslow M with ⟨m, hm, hend⟩ | ⟨q', hMq', hspins'⟩
  · exact ⟨m, by omega, hend⟩
  · have hwaited := hspins'.waited
    rw [movesBetween_add hlM hMq'] at hwaited
    omega

end Sys2Proof.Machine

/-! SUPPORT. The statements about the serial channel (42_serial.md): the steps of the sending operations and of GET_CHAR, the text of
PUT_HEX, and both kinds of operation under an interleaving and in an execution. -/

namespace Sys2Proof.Machine

/-! ### UART_INIT (R130) -/

/-- Settles O39: UART_INIT runs from its start, and its one step is its end. -/
theorem uartInitPerformsNoAccess : Obligations.UartInitPerformsNoAccess := by
  refine ⟨rfl, fun s ⟨⟨hf, hr⟩, hp⟩ => ?_⟩
  simp only [exec, execUartInit, whileRunning_of hf hr, hp, startOnly, inPhase_some]
  rfl

/-! ### The text of PUT_HEX (R134, R135) -/

theorem hexDigit_toNat_of_le {d : BitVec 4} (h : d.toNat ≤ 9) : (hexDigit d).toNat = 0x30 + d.toNat := by
  rw [hexDigit, if_pos h, BitVec.toNat_ofNat]
  omega

theorem hexDigit_toNat_of_ge {d : BitVec 4} (h : 10 ≤ d.toNat) : (hexDigit d).toNat = 0x41 + (d.toNat - 10) := by
  have hd := d.isLt
  rw [hexDigit, if_neg (by omega), BitVec.toNat_ofNat]
  omega

/-- Settles O43: the two branches of `hexDigit`. -/
theorem hexDigitsAreUppercaseAscii : Obligations.HexDigitsAreUppercaseAscii :=
  ⟨fun _ => hexDigit_toNat_of_le, fun _ => hexDigit_toNat_of_ge⟩

/-- The number a character stands for as an uppercase hexadecimal digit. -/
def hexDigitValue (c : Byte) : Nat := if c.toNat ≤ 0x39 then c.toNat - 0x30 else c.toNat - 0x41 + 10

@[simp] theorem hexDigitValue_hexDigit : ∀ d : BitVec 4, hexDigitValue (hexDigit d) = d.toNat := by decide

theorem hexDigit_ne_lineFeed : ∀ d : BitVec 4, hexDigit d ≠ 0x0A#8 := by decide

theorem nibble_toNat (n : Word) (i : Nat) : (nibble n i).toNat = n.toNat / 2 ^ (4 * i) % 16 := by
  rw [nibble, BitVec.extractLsb'_toNat, Nat.shiftRight_eq_div_pow]

/-- The eight nibbles of a word, the most significant first, are its digits to the base 16. -/
theorem foldl_nibbles (n : Word) :
    [7, 6, 5, 4, 3, 2, 1, 0].foldl (fun acc i => 16 * acc + (nibble n i).toNat) 0 = n.toNat := by
  have hn := n.isLt
  simp only [List.foldl_cons, List.foldl_nil, nibble_toNat]
  omega

/-- Settles O44: the digits are `hexDigit` of the nibbles, and `hexDigitValue` reads them back. -/
theorem hexTextDenotesItsNumber : Obligations.HexTextDenotesItsNumber := by
  intro n
  refine ⟨rfl, ?noLineFeed, rfl, ?value⟩
  case noLineFeed => simp [hexChars, (hexDigit_ne_lineFeed _).symm]
  case value =>
    calc ((hexChars n).drop 2).foldl (fun acc c => 16 * acc + hexDigitValue c) 0
        = ([7, 6, 5, 4, 3, 2, 1, 0].map fun i => hexDigit (nibble n i)).foldl (fun acc c => 16 * acc + hexDigitValue c) 0 := rfl
      _ = n.toNat := by simpa only [List.foldl_map, hexDigitValue_hexDigit] using foldl_nibbles n

/-! ### The steps of the sending operations (R131, R132, R134) -/

/-- Every operation that sends bytes takes the steps of R131 with them. -/
theorem sendSteps_of_sendBytes {i : Instr} {bs : List Byte} (hi : sendBytes i = some bs) : SendSteps i bs := by
  intro s hrun
  refine ⟨fun hp hbs => ?nothing, fun todo hp htodo => ?poll, fun b rest hp hroom => ?write⟩
  case nothing =>
    subst hbs
    rw [exec_sending_running hi hrun (p := ([], false)) (by rw [hp]; rfl)]
    rfl
  case poll =>
    have hphase : sendPhase bs s.phase = some (todo, false) := by
      rcases hp with ⟨hp, rfl⟩ | hp <;> rw [hp] <;> rfl
    obtain ⟨b, rest, rfl⟩ := List.exists_cons_of_ne_nil htodo
    rw [exec_sending_running hi hrun hphase, sendStep_poll]
    exact ⟨_, isFlagValue_frWord s _, rfl⟩
  case write =>
    rw [exec_sending_running hi hrun (p := (b :: rest, true)) (by rw [hp]; rfl),
      sendStep_write (by simpa [txFull] using hroom)]
    rfl

/-- PUT_HEX's text, its digits by the shifts that bring them down. -/
theorem hexChars_eq (n : Word) :
    hexChars n = 0x30#8 :: 0x78#8 :: [28, 24, 20, 16, 12, 8, 4, 0].map fun k => hexDigit (BitVec.ofNat 4 (n.toNat >>> k)) := rfl

/-- Settles O40: the three operations send the bytes the rules list. -/
theorem sendingOperationsPollThenWrite : Obligations.SendingOperationsPollThenWrite := by
  refine ⟨fun c => sendSteps_of_sendBytes rfl, fun str => sendSteps_of_sendBytes rfl, fun n => ?_⟩
  rw [← hexChars_eq, ← stringBytes_hexChars]
  exact sendSteps_of_sendBytes rfl

/-! ### The steps of GET_CHAR (R133) -/

/-- Settles O45: the poll goes by RXFE, and the byte the read removes is the low byte of its value. -/
theorem getCharPollsThenReads : Obligations.GetCharPollsThenReads := by
  intro s hrun
  refine ⟨fun hp => ?poll, fun b rest hp hrx => ?read⟩
  case poll =>
    rw [exec_getChar_poll hrun hp, readThen_uartFr, rxfeOf_frWord]
    exact ⟨_, isFlagValue_frWord s _, rfl⟩
  case read =>
    rw [exec_getChar_read hrun hp, readThen_uartDr_cons hrx, lowByte_drWord]
    exact ⟨_, lowByte_drWord _ b, rfl⟩

/-! ### A sending operation in progress (R131, R136) -/

/-- What every environment agent keeps, a window of them keeps. -/
theorem envRun_induction {P : State → Prop} (hstep : ∀ a s, P s → P (envStep a s)) {s : State} (h : P s)
    (w : List EnvAgent) : P (envRun w s) := by
  induction w generalizing s with
  | nil => exact h
  | cons a w ih => exact ih (hstep a s h)

/-- An operation under an interleaving that goes on through states of `P`, which the environment keeps, until a step of it ends in
one of `Q`. -/
theorem runOp_goes_on_or_ends {i : Instr} {o : Nat} {P Q : State → Prop} (hstands : ∀ t, P t → Running t ∧ t.opidx = o)
    (hended : ∀ t, Q t → t.opidx = o + 1) (henv : ∀ a t, P t → P (envStep a t))
    (hexec : ∀ t, P t → ∃ u, exec i t = .next u ∧ (P u ∨ Q u)) (ws : List (List EnvAgent)) {s : State} (hs : P s) :
    ∃ t, runOp i ws s = .next t ∧ (P t ∨ Q t) := by
  refine runOp_induction (fun t w ht => ?_) ws hs
  obtain ⟨-, hidx⟩ := hstands t ht
  obtain ⟨u, hu, hP | hQ⟩ := hexec _ (envRun_induction henv ht w)
  · obtain ⟨⟨hf, hr⟩, hidx'⟩ := hstands u hP
    exact ⟨u, hu, .inl ⟨hidx'.trans hidx.symm, by simp [stopped, hf, hr], hP⟩⟩
  · exact ⟨u, hu, .inr ⟨.inl (by have := hended u hQ; omega), hQ⟩⟩

/-- The transmit FIFO is not full. -/
abbrev HasRoom (s : State) : Prop := s.tx.length < s.params.txDepth

theorem HasRoom.txFull_eq {s : State} (h : HasRoom s) : txFull s = false := by simpa [txFull] using h.ne

/-- The environment only makes room (R35). -/
theorem HasRoom.envStep {s : State} (h : HasRoom s) (a : EnvAgent) : HasRoom (envStep a s) := by
  have htx := (envStep_fifos a s).1
  simpa [HasRoom] using htx.trans_lt h

/-- `t` is reached from `s` inside an operation begun there that sends `bs`: `todo` is left to send, the rest has been handed over, and
`ready` says that the next byte's poll has found room, which is still there (R131, R136). -/
structure SendingFrom (bs : List Byte) (s : State) (todo : List Byte) (ready : Bool) (t : State) : Prop where
  running : Running t
  params : t.params = s.params
  prog : t.prog = s.prog
  opidx : t.opidx = s.opidx
  results : t.results = s.results
  phase : sendPhase bs t.phase = some (todo, ready)
  tx_le : t.tx.length ≤ t.params.txDepth
  room : ready = true → HasRoom t
  handed : ∃ sent, sent ++ todo = bs ∧ committed t = committed s ++ sent

/-- `t` is reached from `s` by a whole operation that sends `bs` (R131, R137). -/
structure SentFrom (bs : List Byte) (s t : State) : Prop where
  running : Running t
  opidx : t.opidx = s.opidx + 1
  results : t.results = s.results ++ [.unit]
  handed : committed t = committed s ++ bs

section
variable {i : Instr} {bs todo : List Byte} {ready : Bool} {s t : State}

theorem sendingFrom_start (hs : Ready s) (htx : s.tx.length ≤ s.params.txDepth) (bs : List Byte) :
    SendingFrom bs s bs false s where
  running := hs.1
  params := rfl
  prog := rfl
  opidx := rfl
  results := rfl
  phase := by rw [hs.2]; rfl
  tx_le := htx
  room := by simp
  handed := ⟨[], by simp⟩

theorem SendingFrom.envStep (h : SendingFrom bs s todo ready t) (a : EnvAgent) :
    SendingFrom bs s todo ready (envStep a t) where
  running := running_envRun h.running [a]
  params := by rw [envStep_params, h.params]
  prog := by rw [envStep_prog, h.prog]
  opidx := by rw [envStep_opidx, h.opidx]
  results := by rw [envStep_results, h.results]
  phase := by rw [envStep_phase, h.phase]
  tx_le := by simpa using (envStep_fifos a t).1.trans h.tx_le
  room := fun hready => (h.room hready).envStep a
  handed := by rw [envStep_committed]; exact h.handed

/-- With nothing left to send the operation ends (R132, R8). -/
theorem SendingFrom.exec_nil (hi : sendBytes i = some bs) (h : SendingFrom bs s [] ready t) :
    ∃ u, exec i t = .next u ∧ SentFrom bs s u := by
  obtain ⟨sent, hsent, hout⟩ := h.handed
  rw [exec_sending_running hi h.running h.phase]
  refine ⟨_, sendStep_nil t ready, h.running, ?_, ?_, ?_⟩
  · simpa using h.opidx
  · simpa using h.results
  · rw [← hsent, List.append_nil]
    exact hout

/-- A poll leaves the byte to send, and is the last before its write exactly where it finds room. -/
theorem SendingFrom.exec_poll {b : Byte} {rest : List Byte} (hi : sendBytes i = some bs)
    (h : SendingFrom bs s (b :: rest) false t) :
    ∃ u, exec i t = .next u ∧ SendingFrom bs s (b :: rest) (!txFull t) u := by
  rw [exec_sending_running hi h.running h.phase]
  refine ⟨_, sendStep_poll t b rest, { h with phase := rfl, room := fun hroom => ?_ }⟩
  exact lt_of_le_of_ne h.tx_le (by simpa [txFull] using hroom)

/-- The write of the last byte ends the operation; that of another is followed by the next byte's poll. -/
theorem SendingFrom.exec_write {b : Byte} {rest : List Byte} (hi : sendBytes i = some bs)
    (h : SendingFrom bs s (b :: rest) true t) :
    ∃ u, exec i t = .next u ∧ (SentFrom bs s u ∨ SendingFrom bs s rest false u) := by
  have hroom : HasRoom t := h.room rfl
  obtain ⟨sent, hsent, hout⟩ := h.handed
  have hout' : ∀ v, t.lineOut ++ (t.tx ++ [v]) = committed s ++ (sent ++ [v]) := fun v => by
    rw [← List.append_assoc, ← List.append_assoc, ← hout]
    rfl
  rw [exec_sending_running hi h.running h.phase, sendStep_write hroom.txFull_eq]
  refine ⟨_, rfl, ?_⟩
  split_ifs with hrest
  · subst hrest
    refine .inl ⟨h.running, by rw [← h.opidx]; rfl, by rw [← h.results]; rfl, ?_⟩
    rw [← hsent]
    exact hout' b
  · refine .inr { h with phase := rfl, tx_le := ?_, room := by simp, handed := ⟨sent ++ [b], by simpa using hsent, hout' b⟩ }
    simpa using hroom

/-- One controller step of a sending operation in progress: it goes on, or has sent all its bytes. -/
theorem SendingFrom.exec_goes_on_or_ends (hi : sendBytes i = some bs) (h : SendingFrom bs s todo ready t) :
    ∃ u, exec i t = .next u ∧ ((∃ todo' ready', SendingFrom bs s todo' ready' u) ∨ SentFrom bs s u) := by
  match todo, ready with
  | [], _ => exact (h.exec_nil hi).imp fun _ => And.imp_right .inr
  | _ :: _, false => exact (h.exec_poll hi).imp fun _ => And.imp_right fun hu => .inl ⟨_, _, hu⟩
  | _ :: _, true => exact (h.exec_write hi).imp fun _ => And.imp_right fun hu => hu.symm.imp_left fun hu => ⟨_, _, hu⟩

/-- The bytes an operation sends are those R137 lists for it. -/
theorem opBytes_of_sendBytes (hi : sendBytes i = some bs) : opBytes i = bs := by
  cases i <;> simp [sendBytes] at hi <;> subst hi
  case putChar c | putString str => rfl
  case putHex n => exact (stringBytes_hexChars n).symm

end

/-- Settles O41, by `SendingFrom` along the interleaving. -/
theorem sendingOperationsHandOverExactlyTheirBytes : Obligations.SendingOperationsHandOverExactlyTheirBytes := by
  intro i s ws hsends hs htx
  obtain ⟨bs, hi⟩ := Option.isSome_iff_exists.1 hsends
  rw [opBytes_of_sendBytes hi]
  obtain ⟨t, ht, ⟨todo, ready, h⟩ | h⟩ := runOp_goes_on_or_ends (P := fun t => ∃ todo ready, SendingFrom bs s todo ready t)
    (Q := SentFrom bs s) (fun _ ⟨_, _, h⟩ => ⟨h.running, h.opidx⟩) (fun _ h => h.opidx)
    (fun a _ ⟨todo, ready, h⟩ => ⟨todo, ready, h.envStep a⟩) (fun _ ⟨_, _, h⟩ => h.exec_goes_on_or_ends hi) ws
    ⟨bs, false, sendingFrom_start hs htx bs⟩
  · obtain ⟨sent, hsent, hout⟩ := h.handed
    exact ⟨t, ht, h.running, .inl ⟨h.opidx, h.results, sent, ⟨todo, hsent⟩, hout⟩⟩
  · exact ⟨t, ht, h.running, .inr ⟨h.opidx, h.results, h.handed⟩⟩

/-! ### GET_CHAR under an interleaving (R133, R36) -/

/-- The bytes GET_CHAR has not read, the oldest first: what `rx` holds, then what the host still sends. -/
def unread (s : State) : List Byte := s.rx ++ s.hostIn

/-- The oldest unread byte stays the oldest until the controller reads it: an arrival is lost only behind a full `rx` (R36, R58). -/
theorem envStep_oldest (a : EnvAgent) {s : State} (hdepth : 1 ≤ s.params.rxDepth) :
    (unread (envStep a s)).head? = (unread s).head? := by
  rcases envStep_cases a s with ⟨-, h⟩ | ⟨-, -, h⟩ | ⟨-, b, rest, -, h⟩ | ⟨-, -, h⟩ | ⟨-, b, rest, hin, -, h⟩ |
    ⟨-, b, rest, -, hfull, h⟩ <;> rw [h]
  case inr.inr.inr.inr.inl => simp [unread, hin]
  case inr.inr.inr.inr.inr =>
    have hrx : s.rx ≠ [] := by
      intro hnil
      rw [hnil] at hfull
      exact hfull hdepth
    simp [unread, List.head?_append_of_ne_nil _ hrx]
  all_goals rfl

/-- `t` is reached from `s` inside a GET_CHAR begun there (R133). -/
structure ReceivingFrom (s t : State) : Prop where
  running : Running t
  depth_pos : 1 ≤ t.params.rxDepth
  opidx : t.opidx = s.opidx
  results : t.results = s.results
  phase : t.phase = .start ∨ t.phase = .recv ∧ t.rx ≠ []
  oldest : (unread t).head? = (unread s).head?

/-- `t` is reached from `s` by a whole GET_CHAR (R133). -/
structure ReceivedFrom (s t : State) : Prop where
  running : Running t
  opidx : t.opidx = s.opidx + 1
  result : ∃ b, (unread s).head? = some b ∧ t.results = s.results ++ [.u8 b]

section
variable {s t : State}

theorem ReceivingFrom.envStep (h : ReceivingFrom s t) (a : EnvAgent) : ReceivingFrom s (envStep a t) where
  running := running_envRun h.running [a]
  depth_pos := by rw [envStep_params]; exact h.depth_pos
  opidx := by rw [envStep_opidx, h.opidx]
  results := by rw [envStep_results, h.results]
  phase := by
    rw [envStep_phase]
    exact h.phase.imp_right (And.imp_right (envStep_fifos a t).2.2)
  oldest := (envStep_oldest a h.depth_pos).trans h.oldest

/-- A poll goes on to the read exactly where it finds a byte. -/
theorem ReceivingFrom.exec_poll (h : ReceivingFrom s t) (hp : t.phase = .start) :
    ∃ u, exec .getChar t = .next u ∧ ReceivingFrom s u := by
  obtain ⟨f, -, hexec⟩ := (getCharPollsThenReads t h.running).1 hp
  refine ⟨_, hexec, { h with phase := ?_ }⟩
  cases hrx : t.rx with
  | nil => exact .inl rfl
  | cons b rest => exact .inr ⟨rfl, by simp [afterRead, hrx]⟩

/-- The read ends the operation with the oldest unread byte. -/
theorem ReceivingFrom.exec_read (h : ReceivingFrom s t) (hp : t.phase = .recv) (hrx : t.rx ≠ []) :
    ∃ u, exec .getChar t = .next u ∧ ReceivedFrom s u := by
  obtain ⟨b, rest, hcons⟩ := List.exists_cons_of_ne_nil hrx
  obtain ⟨v, -, hexec⟩ := (getCharPollsThenReads t h.running).2 b rest hp hcons
  refine ⟨_, hexec, h.running, by rw [← h.opidx]; rfl, b, ?_, by rw [← h.results]; rfl⟩
  rw [← h.oldest, unread, hcons]
  rfl

/-- One controller step of a GET_CHAR in progress: it goes on, or has received its byte. -/
theorem ReceivingFrom.exec_goes_on_or_ends (h : ReceivingFrom s t) :
    ∃ u, exec .getChar t = .next u ∧ (ReceivingFrom s u ∨ ReceivedFrom s u) := by
  rcases h.phase with hp | ⟨hp, hrx⟩
  · exact (h.exec_poll hp).imp fun _ => And.imp_right .inl
  · exact (h.exec_read hp hrx).imp fun _ => And.imp_right .inr

end

/-- Settles O46, by `ReceivingFrom` along the interleaving. -/
theorem getCharReturnsTheOldestByte : Obligations.GetCharReturnsTheOldestByte := by
  intro s ws hs hdepth
  have hstart : ReceivingFrom s s := ⟨hs.1, hdepth, rfl, rfl, .inl hs.2, rfl⟩
  obtain ⟨t, ht, h | h⟩ := runOp_goes_on_or_ends (fun _ h => ⟨h.running, h.opidx⟩) (fun _ h => h.opidx)
    (fun a _ h => h.envStep a) (fun _ h => h.exec_goes_on_or_ends) ws hstart
  · exact ⟨t, ht, h.running, .inl ⟨h.opidx, h.results⟩⟩
  · exact ⟨t, ht, h.running, .inr ⟨h.opidx, h.result⟩⟩

/-! ### A sending operation in an execution (R37, R138) -/

section
variable {σ : Nat → State} {who : Nat → Agent} {i : Instr} {bs rest : List Byte} {b : Byte} {s : State} {m : Nat}

/-- What every environment agent keeps stands at the controller's next turn. -/
theorem keeps_until_turn {P : State → Prop} (hkeep : ∀ a t, P t → P (envStep a t)) (hex : IsExecution σ who) {m' : Nat}
    (hle : m ≤ m') (hnone : movesBetween who .controller m m' = 0) (h : P (σ m)) : P (σ m') := by
  induction m', hle using Nat.le_induction with
  | base => exact h
  | succ q hq ih =>
    rw [movesBetween_add hq (Nat.le_succ q), movesBetween_succ] at hnone
    obtain ⟨hbefore, hnot⟩ := Nat.add_eq_zero_iff.1 hnone
    have hstep := hex q
    cases hwho : who q with
    | controller => simp [hwho] at hnot
    | env a =>
      rw [hwho] at hstep
      obtain ⟨-, hnext⟩ := hstep
      exact hnext ▸ hkeep a _ (ih hbefore)

theorem SendingFrom.standsAt {todo : List Byte} {ready : Bool} {t : State} (h : SendingFrom bs s todo ready t)
    (hcur : current s = some i) : StandsAt i s.opidx t.phase t :=
  ⟨h.running, (current_congr h.prog h.opidx).trans hcur, h.opidx, rfl⟩

/-- Under CTRL_FAIR a sending operation in progress gets its next step, with what the environment keeps still standing. -/
theorem SendingFrom.exists_turn (hex : IsExecution σ who) (hfair : CtrlFair σ who) (hcur : current s = some i)
    {todo : List Byte} {ready : Bool} (h : SendingFrom bs s todo ready (σ m)) :
    ∃ m', m ≤ m' ∧ SendingFrom bs s todo ready (σ m') ∧ (HasRoom (σ m) → HasRoom (σ m')) ∧
      exec i (σ m') = .next (σ (m' + 1)) := by
  obtain ⟨m', hle, -, hnone, -, hexec⟩ := exists_next_turn hex hfair (h.standsAt hcur)
  exact ⟨m', hle, keeps_until_turn (fun a _ ht => ht.envStep a) hex hle hnone h,
    keeps_until_turn (fun a _ ht => ht.envStep a) hex hle hnone, hexec⟩

/-- Whoever steps, a sending operation that polls a full FIFO polls again. -/
theorem SendingFrom.agentStep_full (hi : sendBytes i = some bs) (hcur : current s = some i) {a : Agent} {t u : State}
    (h : SendingFrom bs s (b :: rest) false t) (hfull : ¬ HasRoom t) (hstep : AgentStep a t u) :
    SendingFrom bs s (b :: rest) false u := by
  cases a with
  | env a => obtain ⟨-, rfl⟩ := hstep; exact h.envStep a
  | controller =>
    obtain ⟨v, hexec, hv⟩ := h.exec_poll hi
    have htxFull : txFull t = true := txFull_iff.2 (h.tx_le.antisymm (Nat.le_of_not_lt hfull))
    rw [AgentStep, (h.standsAt hcur).controllerTurn, hexec] at hstep
    cases hstep
    rwa [htxFull] at hv

/-- A drain step makes room (R35). -/
theorem hasRoom_of_drain {t u : State} (htx : t.tx.length ≤ t.params.txDepth) (h : AgentStep (.env .drain) t u) :
    HasRoom u := by
  obtain ⟨hen, rfl⟩ := h
  cases hcons : t.tx with
  | nil => simp [envEnabled, hcons] at hen
  | cons b bs =>
    rw [hcons] at htx
    simpa [HasRoom, envStep, hcons] using htx

/-- Under TX_DRAIN_FAIR a sending operation that polls comes to stand where there is room: a FIFO that stays full is not empty, so
the drain steps (R37). -/
theorem SendingFrom.exists_room (hex : IsExecution σ who) (hdrain : TxDrainFair σ who) (hi : sendBytes i = some bs)
    (hcur : current s = some i) (hdepth : 1 ≤ s.params.txDepth) (h : SendingFrom bs s (b :: rest) false (σ m)) :
    ∃ q, m ≤ q ∧ SendingFrom bs s (b :: rest) false (σ q) ∧ HasRoom (σ q) := by
  by_contra hnone
  have hfull : ∀ q, m ≤ q → SendingFrom bs s (b :: rest) false (σ q) → ¬ HasRoom (σ q) :=
    fun q hq hs hroom => hnone ⟨q, hq, hs, hroom⟩
  have hpolls : ∀ q, m ≤ q → SendingFrom bs s (b :: rest) false (σ q) := fun q hq => by
    induction q, hq using Nat.le_induction with
    | base => exact h
    | succ q hq ih => exact ih.agentStep_full hi hcur (hfull q hq ih) (hex q)
  obtain ⟨q, hq, hwho⟩ := hdrain m fun q hq htx => by
    have hs := hpolls q hq
    refine hfull q hq hs ?_
    rw [HasRoom, htx, hs.params]
    exact hdepth
  have hstep := hex q
  rw [hwho] at hstep
  exact hfull (q + 1) (Nat.le_succ_of_le hq) (hpolls _ (Nat.le_succ_of_le hq)) (hasRoom_of_drain (hpolls q hq).tx_le hstep)

/-- Under both assumptions a sending operation that polls comes to its write. -/
theorem SendingFrom.exists_ready (hex : IsExecution σ who) (hfair : CtrlFair σ who) (hdrain : TxDrainFair σ who)
    (hi : sendBytes i = some bs) (hcur : current s = some i) (hdepth : 1 ≤ s.params.txDepth)
    (h : SendingFrom bs s (b :: rest) false (σ m)) : ∃ m', m < m' ∧ SendingFrom bs s (b :: rest) true (σ m') := by
  obtain ⟨q, hmq, hq, hroom⟩ := h.exists_room hex hdrain hi hcur hdepth
  obtain ⟨m', hqm', hm', hroom', hexec⟩ := hq.exists_turn hex hfair hcur
  obtain ⟨u, hu, hready⟩ := hm'.exec_poll hi
  rw [hexec] at hu
  cases hu
  rw [(hroom' hroom).txFull_eq] at hready
  exact ⟨m' + 1, by omega, hready⟩

/-- R138: under both assumptions a sending operation in progress ends, by induction on the bytes it has left. -/
theorem SendingFrom.ends (hex : IsExecution σ who) (hfair : CtrlFair σ who) (hdrain : TxDrainFair σ who)
    (hi : sendBytes i = some bs) (hcur : current s = some i) (hdepth : 1 ≤ s.params.txDepth) {todo : List Byte}
    (h : SendingFrom bs s todo false (σ m)) : ∃ m', m < m' ∧ SentFrom bs s (σ m') := by
  induction todo generalizing m with
  | nil =>
    obtain ⟨m', hle, hm', -, hexec⟩ := h.exists_turn hex hfair hcur
    obtain ⟨u, hu, hsent⟩ := hm'.exec_nil hi
    rw [hexec] at hu
    cases hu
    exact ⟨m' + 1, by omega, hsent⟩
  | cons b rest ih =>
    obtain ⟨q, hmq, hq⟩ := h.exists_ready hex hfair hdrain hi hcur hdepth
    obtain ⟨m', hle, hm', -, hexec⟩ := hq.exists_turn hex hfair hcur
    obtain ⟨u, hu, hnext⟩ := hm'.exec_write hi
    rw [hexec] at hu
    cases hu
    rcases hnext with hsent | hnext
    · exact ⟨m' + 1, by omega, hsent⟩
    · obtain ⟨m'', hlt, hsent⟩ := ih hnext
      exact ⟨m'', by omega, hsent⟩

end

/-- Settles O48, by `SendingFrom.ends` from the operation's start. -/
theorem sendingEndsUnderFairness : Obligations.SendingEndsUnderFairness := by
  intro σ who k i hex hfair hdrain hinv hready hdepth hcur hsends
  obtain ⟨bs, hi⟩ := Option.isSome_iff_exists.1 hsends
  obtain ⟨m, hkm, hsent⟩ := (sendingFrom_start hready hinv.tx_le bs).ends hex hfair hdrain hi hcur hdepth
  exact ⟨m, hkm, hsent.opidx⟩

end Sys2Proof.Machine

/-! SUPPORT. The statements about the GPIO pin controller (43_gpio.md): each operation as its function select, its delay or its pin
check, the two steps of a function select (R150), and the control register a whole one leaves (R160). -/

namespace Sys2Proof.Machine

/-! ### Each operation as its loop (R150 to R157) -/

/-- GPIO_SET_FUNCTION, GPIO_SET_OUTPUT and GPIO_SET_INPUT stand at their start before the read, and in `rmw` before the write. -/
@[simp] theorem rmwPhase_elim (held : Option Word) : rmwPhase (held.elim .start .rmw) = some held := by cases held <;> rfl

section
variable {s : State} {held : Option Word}

theorem exec_gpioSetFunction_running (h : Running s) (hp : rmwPhase s.phase = some held) (pin f : Word) :
    exec (.gpioSetFunction pin f) s = setFunctionStep pin f .rmw (finish .unit) s held := by
  simp [exec, execGpioSetFunction, whileRunning_of h.1 h.2, hp]

theorem exec_gpioSetOutput_running (h : Running s) (hp : rmwPhase s.phase = some held) (pin : Word) :
    exec (.gpioSetOutput pin) s = setFunctionStep pin funcSio .rmw (finish .unit) s held := by
  simp [exec, execGpioSetOutput, whileRunning_of h.1 h.2, hp]

theorem exec_ledOn_running (h : Running s) (hp : rmwPhase s.phase = some held) (pin : Word) :
    exec (.ledOn pin) s = ledStep pin true .rmw (fun r t => finish r t) s held := by
  simp [exec, execLedOn, whileRunning_of h.1 h.2, hp]

theorem exec_ledOff_running (h : Running s) (hp : rmwPhase s.phase = some held) (pin : Word) :
    exec (.ledOff pin) s = ledStep pin false .rmw (fun r t => finish r t) s held := by
  simp [exec, execLedOff, whileRunning_of h.1 h.2, hp]

theorem exec_gpioSet_ready (h : Ready s) (pin : Word) (value : Bool) :
    exec (.gpioSet pin value) s = pinChecked pin s (finish .unsupported s) := by
  obtain ⟨⟨hf, hr⟩, hp⟩ := h
  simp [exec, execGpioSet, setLevel, whileRunning_of hf hr, hp, startOnly]

theorem exec_gpioGet_ready (h : Ready s) (pin : Word) :
    exec (.gpioGet pin) s = pinChecked pin s (finish .unsupported s) := by
  obtain ⟨⟨hf, hr⟩, hp⟩ := h
  simp [exec, execGpioGet, whileRunning_of hf hr, hp, startOnly]

/-! BLINK_ACTIVITY_LED is one of its four calls (R157). -/

theorem exec_blink_ledOn (h : Running s) (hp : blinkPhase s.phase = some (.ledOn held)) :
    exec .blinkActivityLed s = ledStep pinActLed true (fun v => .blink (.ledOn (some v)))
      (fun _ t => goTo (.blink (.delayOn (.first .hi1))) t) s held := by
  simp [exec, execBlinkActivityLed, whileRunning_of h.1 h.2, hp]

theorem exec_blink_delayOn (h : Running s) {d : DelayPhase} (hp : s.phase = .blink (.delayOn d)) :
    exec .blinkActivityLed s = delayStep (usOf blinkHalfPeriodMs) (fun q => .blink (.delayOn q))
      (fun t => goTo (.blink (.ledOff none)) t) s d := by
  simp [exec, execBlinkActivityLed, whileRunning_of h.1 h.2, hp, blinkPhase]

theorem exec_blink_ledOff (h : Running s) (hp : s.phase = .blink (.ledOff held)) :
    exec .blinkActivityLed s = ledStep pinActLed false (fun v => .blink (.ledOff (some v)))
      (fun _ t => goTo (.blink (.delayOff (.first .hi1))) t) s held := by
  simp [exec, execBlinkActivityLed, whileRunning_of h.1 h.2, hp, blinkPhase]

theorem exec_blink_delayOff (h : Running s) {d : DelayPhase} (hp : s.phase = .blink (.delayOff d)) :
    exec .blinkActivityLed s = delayStep (usOf blinkHalfPeriodMs) (fun q => .blink (.delayOff q))
      (finish .unsupported) s d := by
  simp [exec, execBlinkActivityLed, whileRunning_of h.1 h.2, hp, blinkPhase]

end

/-- Settles O51: both are GPIO_SET_FUNCTION of the one code for software-controlled I/O (R151, R152). -/
theorem outputAndInputAreTheSame : Obligations.OutputAndInputAreTheSame := fun _ _ => rfl

/-! ### The pin check (R158) -/

section
variable {s : State} {pin : Word}

theorem pinChecked_of_lt (h : pin.toNat < s.params.numGpioPins) (k : Exec) : pinChecked pin s k = k := if_pos h

theorem pinChecked_of_ge (h : s.params.numGpioPins ≤ pin.toNat) (k : Exec) :
    pinChecked pin s k = .next { s with fault := some (.pinRange pin) } := if_neg (Nat.not_lt.2 h)

/-- A function select about to begin makes the check before its read. -/
theorem setFunctionStep_none_of_ge (h : s.params.numGpioPins ≤ pin.toNat) (f : Word) (hold : Word → Phase)
    (k : State → Exec) : setFunctionStep pin f hold k s none = .next { s with fault := some (.pinRange pin) } :=
  pinChecked_of_ge h _

theorem ledStep_none_of_ge (h : s.params.numGpioPins ≤ pin.toNat) (level : Bool) (hold : Word → Phase)
    (k : Result → State → Exec) : ledStep pin level hold k s none = .next { s with fault := some (.pinRange pin) } :=
  setFunctionStep_none_of_ge h ..

end

/-- Settles O52: the check is the first thing each operation does. -/
theorem pinOutOfRangeFaults : Obligations.PinOutOfRangeFaults := by
  rintro s pin i ⟨hrun, hp⟩ hpin hi
  have hstart : rmwPhase s.phase = some none := by rw [hp]; rfl
  rcases hi with ⟨f, rfl⟩ | rfl | rfl | ⟨v, rfl⟩ | rfl | rfl | rfl | ⟨rfl, rfl⟩
  · rw [exec_gpioSetFunction_running hrun hstart, setFunctionStep_none_of_ge hpin]
  · rw [exec_gpioSetOutput_running hrun hstart, setFunctionStep_none_of_ge hpin]
  · rw [← outputAndInputAreTheSame, exec_gpioSetOutput_running hrun hstart, setFunctionStep_none_of_ge hpin]
  · rw [exec_gpioSet_ready ⟨hrun, hp⟩, pinChecked_of_ge hpin]
  · rw [exec_gpioGet_ready ⟨hrun, hp⟩, pinChecked_of_ge hpin]
  · rw [exec_ledOn_running hrun hstart, ledStep_none_of_ge hpin]
  · rw [exec_ledOff_running hrun hstart, ledStep_none_of_ge hpin]
  · rw [exec_blink_ledOn hrun (held := none) (by rw [hp]; rfl)]
    exact ledStep_none_of_ge hpin ..

/-- Settles O53: both operations are the pin check and their end, the level in neither. -/
theorem pinLevelOperationsAreUnsupported : Obligations.PinLevelOperationsAreUnsupported := by
  refine ⟨fun _ _ => rfl, fun _ => rfl, fun s pin i hs hi => ?_⟩
  have hexec : exec i s = pinChecked pin s (finish .unsupported s) := by
    rcases hi with ⟨v, rfl⟩ | rfl
    · exact exec_gpioSet_ready hs pin v
    · exact exec_gpioGet_ready hs pin
  rw [hexec]
  split_ifs with hpin
  · exact pinChecked_of_lt hpin _
  · exact pinChecked_of_ge (Nat.le_of_not_lt hpin) _

/-! ### The two steps of a function select (R150) -/

section
variable {i : Instr} {pin f : Word} {begin_ : Phase} {hold : Word → Phase} {done : State → State}

/-- An operation whose steps, before the read and with the value held, are those of a function select takes the steps of R150. -/
theorem selectSteps_of_loop {k : State → Exec}
    (hexec : ∀ s held, Running s → s.phase = Option.elim held begin_ hold → exec i s = setFunctionStep pin f hold k s held)
    (hk : ∀ t : State, pin.toNat < t.params.numGpioPins → k t = .next (done t)) : SelectSteps i pin f begin_ hold done := by
  intro s hrun hpin
  rw [← ctrlAddr_eq]
  refine ⟨fun hp => ?read, fun v hp => ?write⟩
  case read =>
    rw [hexec s none hrun hp, setFunctionStep_none hpin]
    rfl
  case write =>
    rw [hexec s (some v) hrun hp, setFunctionStep_some hpin]
    exact hk _ hpin

/-- The same for an LED call, a function select of the code 5 after which GPIO_SET passes the same pin check (R155, R156). -/
theorem selectSteps_of_led {level : Bool} {k : Result → State → Exec}
    (hexec : ∀ s held, Running s → s.phase = Option.elim held begin_ hold → exec i s = ledStep pin level hold k s held)
    (hk : ∀ t, k .unsupported t = .next (done t)) : SelectSteps i pin 5#32 begin_ hold done :=
  selectSteps_of_loop hexec fun t hpin => (pinChecked_of_lt hpin _).trans (hk t)

end

theorem gpioSetFunction_steps (pin f : Word) :
    SelectSteps (.gpioSetFunction pin f) pin f .start .rmw fun t => afterEnd t .unit :=
  selectSteps_of_loop (fun _ _ hrun hp => exec_gpioSetFunction_running hrun (by rw [hp, rmwPhase_elim]) pin f) fun _ _ => rfl

theorem gpioSetOutput_steps (pin : Word) :
    SelectSteps (.gpioSetOutput pin) pin 5#32 .start .rmw fun t => afterEnd t .unit :=
  selectSteps_of_loop (fun _ _ hrun hp => exec_gpioSetOutput_running hrun (by rw [hp, rmwPhase_elim]) pin) fun _ _ => rfl

/-- Settles O49: each of the five is a function select, GPIO_SET_INPUT the same one as GPIO_SET_OUTPUT. -/
theorem functionSelectReadsThenWrites : Obligations.FunctionSelectReadsThenWrites := by
  refine ⟨gpioSetFunction_steps, gpioSetOutput_steps, fun pin => ?input, fun pin => ?ledOn, fun pin => ?ledOff⟩
  case input => exact fun s => outputAndInputAreTheSame pin s ▸ gpioSetOutput_steps pin s
  case ledOn =>
    exact selectSteps_of_led (fun _ _ hrun hp => exec_ledOn_running hrun (by rw [hp, rmwPhase_elim]) pin) fun _ => rfl
  case ledOff =>
    exact selectSteps_of_led (fun _ _ hrun hp => exec_ledOff_running hrun (by rw [hp, rmwPhase_elim]) pin) fun _ => rfl

/-! ### BLINK_ACTIVITY_LED (R157) -/

theorem usOf_blinkHalfPeriodMs : usOf blinkHalfPeriodMs = 100000#32 := by decide

/-- Settles O54: the four calls are two LED calls of the activity LED's pin and two delays of `usOf_blinkHalfPeriodMs`. -/
theorem blinkRunsItsFourCalls : Obligations.BlinkRunsItsFourCalls := by
  rw [Obligations.BlinkRunsItsFourCalls, ← usOf_blinkHalfPeriodMs]
  refine ⟨?ledOn, ?delayOn, ?ledOff, ?delayOff⟩
  case ledOn =>
    exact selectSteps_of_led (fun s held hrun hp => exec_blink_ledOn hrun (by rw [hp]; cases held <;> rfl)) fun _ => rfl
  case delayOn => exact delaySteps_of_loop (fun _ _ hrun hp => exec_blink_delayOn hrun hp) fun _ => rfl
  case ledOff =>
    exact selectSteps_of_led (fun s held hrun hp => exec_blink_ledOff hrun (by rw [hp]; cases held <;> rfl)) fun _ => rfl
  case delayOff => exact delaySteps_of_loop (fun _ _ hrun hp => exec_blink_delayOff hrun hp) fun _ => rfl

/-! ### The control register a function select leaves (R160) -/

theorem insertFunc_bits_above (v f : Word) : (insertFunc v f).extractLsb' 5 27 = v.extractLsb' 5 27 := by
  have hkeep : (0xFFFFFFE0#32).extractLsb' 5 27 = BitVec.allOnes 27 := by decide
  have hclear : (0x1F#32).extractLsb' 5 27 = 0#27 := by decide
  rw [insertFunc, func, BitVec.extractLsb'_or, BitVec.extractLsb'_and, BitVec.extractLsb'_and, hkeep, hclear,
    BitVec.and_allOnes, BitVec.and_zero, BitVec.or_zero]

theorem insertFunc_funcsel (v f : Word) : (insertFunc v f).extractLsb' 0 5 = f.extractLsb' 0 5 := by
  have hclear : (0xFFFFFFE0#32).extractLsb' 0 5 = 0#5 := by decide
  have hkeep : (0x1F#32).extractLsb' 0 5 = BitVec.allOnes 5 := by decide
  rw [insertFunc, func, BitVec.extractLsb'_or, BitVec.extractLsb'_and, BitVec.extractLsb'_and, hkeep, hclear,
    BitVec.and_allOnes, BitVec.and_zero, BitVec.zero_or]

@[simp] theorem State.advance_params (s : State) (w : List EnvAgent) (ev : List Event) (p : Phase) :
    (s.advance w ev p).params = s.params := envRun_params w s

@[simp] theorem State.advance_gpioCtrl (s : State) (w : List EnvAgent) (ev : List Event) (p : Phase) :
    (s.advance w ev p).gpioCtrl = s.gpioCtrl := envRun_gpioCtrl w s

section
variable {i : Instr} {pin f : Word} {begin_ : Phase} {hold : Word → Phase} {s : State}

/-- The window before the read of a function select, and that read. -/
theorem runOp_select_read {done : State → State} (hsteps : SelectSteps i pin f begin_ hold done) (hrun : Running s)
    (hpin : pin.toNat < s.params.numGpioPins) (hp : s.phase = begin_) (w : List EnvAgent) (ws : List (List EnvAgent)) :
    runOp i (w :: ws) s = runOp i ws
      (s.advance w [.rd (BitVec.ofNat 64 (0x1f000d0004 + 8 * pin.toNat)) (ctrlRead s.gpioCtrl pin.toNat)]
        (hold (ctrlRead s.gpioCtrl pin.toNat))) := by
  obtain ⟨hread, -⟩ := hsteps (envRun w s) (running_envRun hrun w) (by simpa using hpin)
  refine runOp_cons_of_advance hrun ?_ ws
  rw [hread (by rw [envRun_phase, hp])]
  simp [afterRead, State.advance]

/-- The window before the write of a function select that ends its operation, and that write. -/
theorem runOp_select_write {r : Result} (hsteps : SelectSteps i pin f begin_ hold fun t => afterEnd t r) (hrun : Running s)
    (hpin : pin.toNat < s.params.numGpioPins) {v : Word} (hp : s.phase = hold v) (w : List EnvAgent)
    (ws : List (List EnvAgent)) :
    ∃ t, runOp i (w :: ws) s = .next t ∧ t.opidx = s.opidx + 1 ∧ t.results = s.results ++ [r] ∧
      t.gpioCtrl = ctrlWrite s.gpioCtrl pin.toNat (insertFunc v f) := by
  obtain ⟨-, hwrite⟩ := hsteps (envRun w s) (running_envRun hrun w) (by simpa using hpin)
  rw [runOp_cons_of_next (hwrite v (by rw [envRun_phase, hp])), if_neg (by simp [afterEnd, afterWrite])]
  exact ⟨_, rfl, by simp [afterEnd, afterWrite], by simp [afterEnd, afterWrite], by simp [afterEnd, insertFunc, func]⟩

/-- A whole function select under an interleaving writes back the register it read: no environment step touches the bank in between
(R58, R60). -/
theorem runOp_select {r : Result} (hsteps : SelectSteps i pin f begin_ hold fun t => afterEnd t r) (hrun : Running s)
    (hpin : pin.toNat < s.params.numGpioPins) (hp : s.phase = begin_) (w₁ w₂ : List EnvAgent) (ws : List (List EnvAgent)) :
    ∃ t, runOp i (w₁ :: w₂ :: ws) s = .next t ∧ t.opidx = s.opidx + 1 ∧ t.results = s.results ++ [r] ∧
      t.gpioCtrl = ctrlWrite s.gpioCtrl pin.toNat (insertFunc (ctrlRead s.gpioCtrl pin.toNat) f) := by
  rw [runOp_select_read hsteps hrun hpin hp]
  simpa using runOp_select_write hsteps (State.running_advance hrun w₁ _ _) (by simpa using hpin) (State.advance_phase ..) w₂ ws

end

/-- Settles O50: by `ctrlRead_ctrlWrite` only the pin's register changes, to the value of `insertFunc`. -/
theorem functionSelectPreservesTheOtherBits : Obligations.FunctionSelectPreservesTheOtherBits := by
  intro s pin f w₁ w₂ hs hwf hpin
  obtain ⟨t, ht, hidx, hres, hbank⟩ := runOp_select (gpioSetFunction_steps pin f) hs.1 hpin hs.2 w₁ w₂ []
  have hreads : ∀ q, ctrlRead t.gpioCtrl q =
      if q = pin.toNat then insertFunc (ctrlRead s.gpioCtrl pin.toNat) f else ctrlRead s.gpioCtrl q :=
    fun q => hbank ▸ ctrlRead_ctrlWrite hwf pin.toNat q _
  refine ⟨t, ht, hidx, hres, ?above, ?funcsel, fun q hq => (hreads q).trans (if_neg hq)⟩
  case above => rw [hreads, if_pos rfl, insertFunc_bits_above]
  case funcsel => rw [hreads, if_pos rfl, insertFunc_funcsel]

end Sys2Proof.Machine

/-! SUPPORT. The statements about exceptions (60_exceptions.md): the reason and the preciseness of each fault (R171, R174), and the
operations that never end while what they wait for does not happen (R175). -/

namespace Sys2Proof.Machine

/-! ### The faults of R171 -/

/-- What R171 asks of a fault `r` of the operation `i` begun in `s`. -/
def FaultReason (s : State) (i : Instr) (r : Fault) : Prop :=
  (∃ a, r = .unmapped a ∧ ¬ MappedAddress s.params.numGpioPins a ∧ (i = .regRead a ∨ ∃ v, i = .regWrite a v)) ∨
    (∃ a v, r = .readOnly a ∧ i = .regWrite a v ∧ ReadOnlyAddress s.params.numGpioPins a) ∨
    (∃ v, r = .txOverflow ∧ i = .regWrite 0x107d001000#64 v ∧ s.tx.length = s.params.txDepth) ∨
    (∃ pin, r = .pinRange pin ∧ checkedPin i = some pin ∧ s.params.numGpioPins ≤ pin.toNat)

/-- Every address that R51 lists has a register. -/
theorem MappedAddress.regAt_ne_none {n : Nat} {a : Addr} (h : MappedAddress n a) : regAt n a ≠ none := by
  suffices hreg : ∃ r : DevReg, r.presentIn n ∧ a.toNat = r.addr by
    obtain ⟨r, hr, ha⟩ := hreg
    simp [regAt_of_addr hr ha]
  rcases h with ⟨p, hp, ha | ha⟩ | ha
  · exact ⟨.gpioStatus p, hp, ha⟩
  · exact ⟨.gpioCtrl p, hp, ha⟩
  · simp only [List.mem_cons, List.not_mem_nil, or_false] at ha
    rcases ha with rfl | rfl | rfl | rfl
    · exact ⟨.timerLo, trivial, rfl⟩
    · exact ⟨.timerHi, trivial, rfl⟩
    · exact ⟨.uartDr, trivial, rfl⟩
    · exact ⟨.uartFr, trivial, rfl⟩

/-- What a write that faults is refused for (R103, R171). -/
theorem faultReason_of_devWrite {s : State} {a : Addr} {v : Word} {r : Fault} (h : devWrite a v s = .error r) :
    FaultReason s (.regWrite a v) r := by
  have hreadOnly (hro : ReadOnlyAddress s.params.numGpioPins a) (hr : .readOnly a = r) : FaultReason s (.regWrite a v) r :=
    .inr (.inl ⟨a, v, hr.symm, rfl, hro⟩)
  obtain ⟨hstatus, -, hlo, hhi, hdr, hfr⟩ := addressMapIsExact s.params.numGpioPins a
  unfold devWrite at h
  split at h
  case h_1 => cases h
  case h_2 hreg =>
    split at h <;> cases h
    exact .inr (.inr (.inl ⟨v, rfl, by rw [hdr.1 hreg], txFull_iff.1 ‹_›⟩))
  case h_3 p hreg => exact hreadOnly (.inl ⟨p, (hstatus p).1 hreg⟩) (Except.error.inj h)
  case h_4 hreg => exact hreadOnly (.inr (by simp [hlo.1 hreg])) (Except.error.inj h)
  case h_5 hreg => exact hreadOnly (.inr (by simp [hhi.1 hreg])) (Except.error.inj h)
  case h_6 hreg => exact hreadOnly (.inr (by simp [hfr.1 hreg])) (Except.error.inj h)
  case h_7 hnone =>
    cases h
    exact .inl ⟨a, rfl, fun hmap => hmap.regAt_ne_none hnone, .inr ⟨v, rfl⟩⟩

/-! ### Which operations fault -/

/-- The next step of the operation `i` marks no fault. -/
def StepsUnfaulted (i : Instr) (s : State) : Prop := ∃ t, exec i s = .next t ∧ t.fault = none

theorem StepsUnfaulted.not_fault {i : Instr} {s t : State} {r : Fault} (h : StepsUnfaulted i s)
    (ht : exec i s = .next t) : t.fault ≠ some r := by
  obtain ⟨u, hu, hnone⟩ := h
  cases hu.symm.trans ht
  simp [hnone]

section
variable {s : State}

/-- TICKS, UPTIME_SECONDS and the delays begin with a read of TIMER_HI, which is mapped (R110). -/
theorem ReadsHighFirst.stepsUnfaulted {i : Instr} {at_ : TicksPhase → Phase} (h : ReadsHighFirst i at_ .start)
    (hs : Ready s) : StepsUnfaulted i s := ⟨_, h s hs.1 hs.2, hs.1.1⟩

/-- A sending operation ends at once or begins with a poll of UART_FR (R131, R132). -/
theorem sending_stepsUnfaulted {i : Instr} {bs : List Byte} (hi : sendBytes i = some bs) (hs : Ready s) :
    StepsUnfaulted i s := by
  obtain ⟨hend, hpoll, -⟩ := sendSteps_of_sendBytes hi s hs.1
  by_cases hbs : bs = []
  · exact ⟨_, hend hs.2 hbs, hs.1.1⟩
  · obtain ⟨f, -, hexec⟩ := hpoll bs (.inl ⟨hs.2, rfl⟩) hbs
    exact ⟨_, hexec, hs.1.1⟩

/-- GET_CHAR begins with a poll of UART_FR (R133). -/
theorem getChar_stepsUnfaulted (hs : Ready s) : StepsUnfaulted .getChar s := by
  obtain ⟨f, -, hexec⟩ := (getCharPollsThenReads s hs.1).1 hs.2
  exact ⟨_, hexec, hs.1.1⟩

/-- A function select of an admitted pin begins with a read of its control register (R150). -/
theorem SelectSteps.stepsUnfaulted {i : Instr} {pin f : Word} {hold : Word → Phase} {done : State → State}
    (h : SelectSteps i pin f .start hold done) (hs : Ready s) (hpin : pin.toNat < s.params.numGpioPins) :
    StepsUnfaulted i s := ⟨_, (h s hs.1 hpin).1 hs.2, hs.1.1⟩

/-- GPIO_SET and GPIO_GET of an admitted pin end UNSUPPORTED (R153, R154). -/
theorem pinLevel_stepsUnfaulted {i : Instr} {pin : Word} (hi : (∃ v, i = .gpioSet pin v) ∨ i = .gpioGet pin) (hs : Ready s)
    (hpin : pin.toNat < s.params.numGpioPins) : StepsUnfaulted i s := by
  obtain ⟨-, -, hexec⟩ := pinLevelOperationsAreUnsupported
  exact ⟨_, (hexec s pin i hs hi).trans (congrArg _ (if_pos hpin)), hs.1.1⟩

/-- An operation whose pin passes the check does not fault (R158). -/
theorem pin_stepsUnfaulted {i : Instr} {pin : Word} (hi : checkedPin i = some pin) (hs : Ready s)
    (hpin : pin.toNat < s.params.numGpioPins) : StepsUnfaulted i s := by
  obtain ⟨hfunction, houtput, hinput, hon, hoff⟩ := functionSelectReadsThenWrites
  cases i <;> cases hi
  case gpioSetFunction f => exact (hfunction pin f).stepsUnfaulted hs hpin
  case gpioSetOutput => exact (houtput pin).stepsUnfaulted hs hpin
  case gpioSetInput => exact (hinput pin).stepsUnfaulted hs hpin
  case gpioSet value => exact pinLevel_stepsUnfaulted (.inl ⟨value, rfl⟩) hs hpin
  case gpioGet => exact pinLevel_stepsUnfaulted (.inr rfl) hs hpin
  case ledOn => exact (hon pin).stepsUnfaulted hs hpin
  case ledOff => exact (hoff pin).stepsUnfaulted hs hpin
  case blinkActivityLed => exact blinkRunsItsFourCalls.1.stepsUnfaulted hs hpin

/-- An operation whose pin does not pass the check faults PIN_RANGE (R158). -/
theorem exec_of_pin_not_admitted {i : Instr} {pin : Word} (hi : checkedPin i = some pin) (hs : Ready s)
    (hpin : s.params.numGpioPins ≤ pin.toNat) : exec i s = .next { s with fault := some (.pinRange pin) } := by
  refine pinOutOfRangeFaults s pin i hs hpin ?_
  cases i <;> cases hi <;> simp [pinActLed]

/-- A REG_READ that faults addresses no register (R102, R171). -/
theorem faultReason_of_regRead {a : Addr} {t : State} {r : Fault} (hs : Ready s) (h : exec (.regRead a) s = .next t)
    (hr : t.fault = some r) : FaultReason s (.regRead a) r := by
  cases hread : devRead a s with
  | ok p =>
    obtain ⟨v, u⟩ := p
    have hu : u.fault = none := by rw [(devRead_ok hread).1]; exact hs.1.1
    exact absurd hr (StepsUnfaulted.not_fault ⟨_, exec_regRead_of_ok hs hread, hu⟩ h)
  | error r' =>
    obtain ⟨rfl, hnone⟩ := devRead_error hread
    rw [exec_regRead_ready hs, readThen_of_unmapped hnone] at h
    cases h; cases hr
    exact .inl ⟨a, rfl, fun hmap => hmap.regAt_ne_none hnone, .inl rfl⟩

/-- A REG_WRITE that faults is refused by the device. -/
theorem faultReason_of_regWrite {a : Addr} {v : Word} {t : State} {r : Fault} (hs : Ready s)
    (h : exec (.regWrite a v) s = .next t) (hr : t.fault = some r) : FaultReason s (.regWrite a v) r := by
  cases hwrite : devWrite a v s with
  | ok u =>
    have hu : u.fault = none := by
      rcases devWrite_ok hwrite with ⟨p, -, rfl⟩ | ⟨-, -, rfl⟩ <;> exact hs.1.1
    exact absurd hr (StepsUnfaulted.not_fault ⟨_, exec_regWrite_of_ok hs hwrite, hu⟩ h)
  | error r' =>
    rw [exec_regWrite_of_error hs hwrite] at h
    cases h; cases hr
    exact faultReason_of_devWrite hwrite

/-- An operation faults at its start for a reason R171 gives: an access of REG_READ or REG_WRITE, or the pin check; the accesses of
the others are to registers that are there. -/
theorem faultReason_of_exec {i : Instr} {t : State} {r : Fault} (hs : Ready s) (h : exec i s = .next t)
    (hr : t.fault = some r) : FaultReason s i r := by
  have hun : ¬ StepsUnfaulted i s := fun hun => hun.not_fault h hr
  cases hpin : checkedPin i with
  | some pin =>
    have hge : s.params.numGpioPins ≤ pin.toNat := not_lt.1 fun hlt => hun (pin_stepsUnfaulted hpin hs hlt)
    rw [exec_of_pin_not_admitted hpin hs hge] at h
    cases h; cases hr
    exact .inr (.inr (.inr ⟨pin, rfl, hpin, hge⟩))
  | none =>
    cases i <;> simp only [checkedPin, reduceCtorEq] at hpin
    case regRead a => exact faultReason_of_regRead hs h hr
    case regWrite a v => exact faultReason_of_regWrite hs h hr
    all_goals refine absurd ?_ hun
    case ticks => exact ticks_readsHighFirst.stepsUnfaulted hs
    case uptimeSeconds => exact uptimeSeconds_readsHighFirst.stepsUnfaulted hs
    case delayUs n => exact (delayUs_readsHighFirst n).stepsUnfaulted hs
    case delayMs n => exact (delayMs_readsHighFirst n).stepsUnfaulted hs
    case uartInit => exact ⟨_, uartInitPerformsNoAccess.2 s hs, hs.1.1⟩
    case putChar c | putString str | putHex n => exact sending_stepsUnfaulted rfl hs
    case getChar => exact getChar_stepsUnfaulted hs

/-! ### A fault changes nothing but the mark (R174) -/

/-- Only a running controller takes a step (R24). -/
theorem running_of_exec {i : Instr} {t : State} (h : exec i s = .next t) : Running s := by
  cases hf : s.fault with
  | some r => cases (exec_of_fault hf).symm.trans h
  | none =>
    cases hr : s.refused with
    | some r => cases (exec_of_refused hf hr).symm.trans h
    | none => exact ⟨hf, hr⟩

theorem Closed.fault_eq {u t : State} (h : Closed u t) : t.fault = u.fault := by rw [h.frame.1]

/-- A controller step that marks a fault does nothing else. -/
theorem eq_markFault_of_exec {i : Instr} {t : State} {r : Fault} (hs : s.fault = none) (h : exec i s = .next t)
    (hr : t.fault = some r) : t = s.markFault r := by
  have hne : t.fault ≠ s.fault := by simp [hr, hs]
  cases exec_kind h with
  | fault r' ht => subst ht; cases hr; rfl
  | quiet hc => exact absurd hc.fault_eq hne
  | read a v u hread hc =>
    refine absurd (hc.fault_eq.trans ?_) hne
    rw [(devRead_ok hread).1]; rfl
  | write a v u hwrite hc =>
    refine absurd (hc.fault_eq.trans ?_) hne
    rcases devWrite_ok hwrite with ⟨p, -, rfl⟩ | ⟨-, -, rfl⟩ <;> rfl

/-- A step that marks a fault is a controller step of the operation in progress, then the opening of a window. -/
theorem exists_exec_of_step_faults {t : State} {r : Fault} (hs : s.fault = none) (h : step s = .next t)
    (hr : t.fault = some r) : ∃ i u, current s = some i ∧ exec i s = .next u ∧ t = u.openWindow := by
  rcases step_turn_cases h with ⟨a, rest, -, rfl⟩ | ⟨u, hu, rfl⟩
  · simp [hs] at hr
  · rcases controllerTurn_cases hu with rfl | ⟨-, r', rfl⟩ | ⟨i, hi, hexec⟩
    · simp [hs] at hr
    · simp [hs] at hr
    · exact ⟨i, u, hi, hexec, rfl⟩

end

/-- Settles O21: the step is one of the operation in progress and leaves only the mark; the invariant holds after it, and a marked
state of the invariant stands at a start, so the fault is one of an operation at its start. -/
theorem faultsArePreciseAndNamed : Obligations.FaultsArePreciseAndNamed := by
  intro s t r hinv hs hstep hr
  obtain ⟨i, u, hi, hexec, rfl⟩ := exists_exec_of_step_faults hs hstep hr
  have hu : u = s.markFault r := eq_markFault_of_exec hs hexec hr
  have hstart : u.phase = .start := (exec_keeps_blockInv hinv hi hexec).mark_at_start (by simp [stopped, hu])
  subst hu
  exact ⟨rfl, hstart, i, hi, faultReason_of_exec ⟨running_of_exec hexec, hstart⟩ hexec hr⟩

/-! ### An operation that one agent could end, in windows without that agent (R175) -/

/-- What every other agent keeps, a window without `b` keeps. -/
theorem envRun_induction_without {b : EnvAgent} {P : State → Prop} (hstep : ∀ a s, a ≠ b → P s → P (envStep a s))
    {w : List EnvAgent} (hw : b ∉ w) {s : State} (h : P s) : P (envRun w s) := by
  induction w generalizing s with
  | nil => exact h
  | cons a w ih =>
    obtain ⟨hne, hw⟩ := List.ne_and_not_mem_of_not_mem_cons hw
    exact ih hw (hstep a s hne.symm h)

/-- An operation whose steps stay in states of `P` that every agent but `b` keeps never ends under an interleaving without `b`. -/
theorem runOp_goes_on_without {b : EnvAgent} {i : Instr} {o : Nat} {P : State → Prop}
    (hstands : ∀ t, P t → Running t ∧ t.opidx = o) (henv : ∀ a t, a ≠ b → P t → P (envStep a t))
    (hexec : ∀ t, P t → ∃ u, exec i t = .next u ∧ P u) {ws : List (List EnvAgent)} (hws : ∀ w ∈ ws, b ∉ w) {s : State}
    (hs : P s) : ∃ t, runOp i ws s = .next t ∧ P t := by
  induction ws generalizing s with
  | nil => exact ⟨s, rfl, hs⟩
  | cons w ws ih =>
    obtain ⟨hw, hws⟩ := List.forall_mem_cons.1 hws
    obtain ⟨u, hu, hPu⟩ := hexec _ (envRun_induction_without henv hw hs)
    obtain ⟨⟨hf, hr⟩, hidx⟩ := hstands u hPu
    rw [runOp_cons_of_next hu, if_pos ⟨hidx.trans (hstands s hs).2.symm, by simp [stopped, hf, hr]⟩]
    exact ih hws hPu

/-! ### A delay on a counter that stands still (R111, R112, R157) -/

/-- What a TICKS has read so far shows the counter value `c`. -/
def TicksPhase.Shows (c : DWord) : TicksPhase → Prop
  | .hi1 => True
  | .lo h1 => h1 = highHalf c
  | .hi2 h1 low => h1 = highHalf c ∧ low = lowHalf c

/-- What a DELAY_US has read so far, its `start` too, shows the counter value `c`. -/
def DelayPhase.Shows (c : DWord) : DelayPhase → Prop
  | .first p => p.Shows c
  | .spin start p => start = c ∧ p.Shows c

/-- A TICKS that has read the counter as it stands goes on so, or hands it on. -/
theorem ticksStep_of_shows {wrap : TicksPhase → Phase} {k : DWord → State → Exec} {s : State} {p : TicksPhase}
    (hp : p.Shows s.ctr) :
    ∃ e, (∃ q : TicksPhase, q.Shows s.ctr ∧ ticksStep wrap k s p = .next ((s.logEvent e).setPhase (wrap q))) ∨
      ticksStep wrap k s p = k s.ctr (s.logEvent e) := by
  cases p with
  | hi1 => exact ⟨_, .inl ⟨.lo _, rfl, ticksStep_hi1 ..⟩⟩
  | lo h1 => exact ⟨_, .inl ⟨.hi2 _ _, ⟨hp, rfl⟩, ticksStep_lo ..⟩⟩
  | hi2 h1 lo =>
    obtain ⟨rfl, rfl⟩ := hp
    exact ⟨_, .inr (by rw [ticksStep_hi2, if_pos rfl, composeTicks_halves])⟩

/-- No time has passed since a `start` at the counter as it stands, so a DELAY_US of `n > 0` spins. -/
theorem delayStep_of_shows {n : Word} (hn : 0 < n.toNat) {wrap : DelayPhase → Phase} {k : State → Exec} {s : State}
    {d : DelayPhase} (hd : d.Shows s.ctr) :
    ∃ e, ∃ d' : DelayPhase, d'.Shows s.ctr ∧ delayStep n wrap k s d = .next ((s.logEvent e).setPhase (wrap d')) := by
  cases d with
  | first p =>
    rw [delayStep_first]
    obtain ⟨e, ⟨q, hq, hstep⟩ | hstep⟩ := ticksStep_of_shows hd
    · exact ⟨e, .first q, hq, hstep⟩
    · exact ⟨e, .spin s.ctr .hi1, ⟨rfl, trivial⟩, hstep⟩
  | spin start p =>
    obtain ⟨rfl, hp⟩ := hd
    have hspins : ¬ delayElapsed s.ctr s.ctr n = true := by simpa [delayElapsed_iff] using hn.ne'
    rw [delayStep_spin]
    obtain ⟨e, ⟨q, hq, hstep⟩ | hstep⟩ := ticksStep_of_shows hp
    · exact ⟨e, .spin s.ctr q, ⟨rfl, hq⟩, hstep⟩
    · exact ⟨e, .spin s.ctr .hi1, ⟨rfl, trivial⟩, by rw [hstep, if_neg hspins]; rfl⟩

/-- The operation `i` stands in a delay that only a timer step can end, or in the LED_ON before one. -/
inductive AwaitsTimer (t : State) : Instr → Prop where
  | delayUs {n : Word} {d : DelayPhase} (hn : 0 < n.toNat) (hp : delayPhase t.phase = some d) (hd : d.Shows t.ctr) :
      AwaitsTimer t (.delayUs n)
  | delayMs {n : Word} {d : DelayPhase} (hn : 0 < (usOf n).toNat) (hp : delayPhase t.phase = some d) (hd : d.Shows t.ctr) :
      AwaitsTimer t (.delayMs n)
  | ledOn {held : Option Word} (hpin : pinActLed.toNat < t.params.numGpioPins) (hp : blinkPhase t.phase = some (.ledOn held)) :
      AwaitsTimer t .blinkActivityLed
  | delayOn {d : DelayPhase} (hp : t.phase = .blink (.delayOn d)) (hd : d.Shows t.ctr) : AwaitsTimer t .blinkActivityLed

/-- `t` is reached from `s` inside an operation begun there that has not ended: no mark and no result (R175). -/
structure Unfinished (s t : State) : Prop where
  running : Running t
  opidx : t.opidx = s.opidx
  results : t.results = s.results

section
variable {i : Instr} {s t : State}

theorem Unfinished.refl (hs : Ready s) : Unfinished s s := ⟨hs.1, rfl, rfl⟩

theorem Unfinished.envStep (h : Unfinished s t) (a : EnvAgent) : Unfinished s (envStep a t) where
  running := running_envRun h.running [a]
  opidx := by rw [envStep_opidx, h.opidx]
  results := by rw [envStep_results, h.results]

theorem AwaitsTimer.envStep (h : AwaitsTimer t i) {a : EnvAgent} (ha : a ≠ .timer) : AwaitsTimer (envStep a t) i := by
  have hctr : (Machine.envStep a t).ctr = t.ctr := by rw [envStep_ctr, if_neg ha]
  have hphase := envStep_phase a t
  cases h with
  | delayUs hn hp hd => exact .delayUs hn (hphase ▸ hp) (hctr ▸ hd)
  | delayMs hn hp hd => exact .delayMs hn (hphase ▸ hp) (hctr ▸ hd)
  | ledOn hpin hp => exact .ledOn (by rwa [envStep_params]) (hphase ▸ hp)
  | delayOn hp hd => exact .delayOn (hphase ▸ hp) (hctr ▸ hd)

theorem AwaitsTimer.exec_goes_on (h : AwaitsTimer t i) (hun : Unfinished s t) :
    ∃ u, exec i t = .next u ∧ Unfinished s u ∧ AwaitsTimer u i := by
  cases h with
  | delayUs hn hp hd =>
    obtain ⟨e, d', hd', hstep⟩ := delayStep_of_shows hn hd
    exact ⟨_, (exec_delayUs_running hun.running hp).trans hstep, { hun with }, .delayUs hn rfl hd'⟩
  | delayMs hn hp hd =>
    obtain ⟨e, d', hd', hstep⟩ := delayStep_of_shows hn hd
    exact ⟨_, (exec_delayMs_running hun.running hp).trans hstep, { hun with }, .delayMs hn rfl hd'⟩
  | @ledOn held hpin hp =>
    have hexec := exec_blink_ledOn hun.running hp
    cases held with
    | none => exact ⟨_, hexec.trans (setFunctionStep_none hpin ..), { hun with }, .ledOn hpin rfl⟩
    | some v => exact ⟨_, hexec.trans (ledStep_some hpin ..), { hun with }, .delayOn rfl trivial⟩
  | delayOn hp hd =>
    have hn : 0 < (usOf blinkHalfPeriodMs).toNat := by decide
    obtain ⟨e, d', hd', hstep⟩ := delayStep_of_shows hn hd
    exact ⟨_, (exec_blink_delayOn hun.running hp).trans hstep, { hun with }, .delayOn rfl hd'⟩

/-- With no timer step a delay, or a BLINK_ACTIVITY_LED, never ends. -/
theorem runOp_of_awaitsTimer (hs : Ready s) (h : AwaitsTimer s i) {ws : List (List EnvAgent)} (hws : ∀ w ∈ ws, .timer ∉ w) :
    ∃ t, runOp i ws s = .next t ∧ Unfinished s t := by
  obtain ⟨t, ht, hun, -⟩ := runOp_goes_on_without (P := fun t => Unfinished s t ∧ AwaitsTimer t i)
    (fun _ ⟨hun, _⟩ => ⟨hun.running, hun.opidx⟩) (fun a _ ha ⟨hun, hawaits⟩ => ⟨hun.envStep a, hawaits.envStep ha⟩)
    (fun _ ⟨hun, hawaits⟩ => hawaits.exec_goes_on hun) hws ⟨.refl hs, h⟩
  exact ⟨t, ht, hun⟩

/-! ### A sending operation on a FIFO that does not drain (R138) -/

/-- The line output changes by a drain only (R31, R35). -/
theorem envStep_lineOut {a : EnvAgent} (ha : a ≠ .drain) (s : State) : (envStep a s).lineOut = s.lineOut := by
  rcases envStep_cases a s with ⟨-, h⟩ | ⟨hdrain, -⟩ | ⟨hdrain, -⟩ | ⟨-, -, h⟩ | ⟨-, b, rest, -, -, h⟩ |
    ⟨-, b, rest, -, -, h⟩
  case inr.inl | inr.inr.inl => exact absurd hdrain ha
  all_goals rw [h]

/-- A controller step keeps the transmit FIFO within its depth (R31, R136). -/
theorem AccessFrame.tx_le (h : AccessFrame s t) (hs : s.tx.length ≤ s.params.txDepth) : t.tx.length ≤ t.params.txDepth := by
  rw [h.params]
  rcases h.tx with htx | ⟨hroom, b, htx⟩ <;> rw [htx]
  · exact hs
  · have hne : s.tx.length ≠ s.params.txDepth := by simpa [txFull] using hroom
    simpa using lt_of_le_of_ne hs hne

variable {bs : List Byte}

/-- While the line output is as it was, the bytes handed over are all in the transmit FIFO (R39). -/
theorem tx_of_committed {sent : List Byte} (hline : t.lineOut = s.lineOut) (h : committed t = committed s ++ sent) :
    t.tx = s.tx ++ sent := by
  rw [committed, committed, hline, List.append_assoc] at h
  exact List.append_cancel_left h

/-- With more bytes to send than room, a step of a sending operation does not end it: all its bytes would be in the FIFO. -/
theorem SendingFrom.exec_goes_on {todo : List Byte} {ready : Bool} (hi : sendBytes i = some bs)
    (h : SendingFrom bs s todo ready t) (hline : t.lineOut = s.lineOut) (hmore : s.params.txDepth < s.tx.length + bs.length) :
    ∃ u, exec i t = .next u ∧ (∃ todo' ready', SendingFrom bs s todo' ready' u) ∧ u.lineOut = s.lineOut := by
  obtain ⟨u, hu, hgoes | hsent⟩ := h.exec_goes_on_or_ends hi
  all_goals
    obtain ⟨hframe, -⟩ := exec_frame hu
    have hline' : u.lineOut = s.lineOut := hframe.lineOut.trans hline
  · exact ⟨u, hu, hgoes, hline'⟩
  · have hle := hframe.tx_le h.tx_le
    rw [tx_of_committed hline' hsent.handed, List.length_append, hframe.params, h.params] at hle
    omega

/-- With no drain step a sending operation with more bytes than room never ends. -/
theorem runOp_of_no_drain (hi : sendBytes i = some bs) (hs : Ready s) (htx : s.tx.length ≤ s.params.txDepth)
    (hmore : s.params.txDepth < s.tx.length + bs.length) {ws : List (List EnvAgent)} (hws : ∀ w ∈ ws, .drain ∉ w) :
    ∃ t, runOp i ws s = .next t ∧ (∃ todo ready, SendingFrom bs s todo ready t) ∧ t.lineOut = s.lineOut :=
  runOp_goes_on_without (P := fun t => (∃ todo ready, SendingFrom bs s todo ready t) ∧ t.lineOut = s.lineOut)
    (fun _ ⟨⟨_, _, h⟩, _⟩ => ⟨h.running, h.opidx⟩)
    (fun a t ha ⟨⟨_, _, h⟩, hline⟩ => ⟨⟨_, _, h.envStep a⟩, (envStep_lineOut ha t).trans hline⟩)
    (fun _ ⟨⟨_, _, h⟩, hline⟩ => h.exec_goes_on hi hline hmore) hws ⟨⟨bs, false, sendingFrom_start hs htx bs⟩, rfl⟩

/-! ### A GET_CHAR with nothing to arrive (R133) -/

/-- A GET_CHAR begun in `s` polls an empty `rx`, and the host has nothing to send. -/
structure PollsInVain (s t : State) : Prop where
  unfinished : Unfinished s t
  phase : t.phase = .start
  rx : t.rx = []
  hostIn : t.hostIn = []

theorem PollsInVain.envStep (h : PollsInVain s t) (a : EnvAgent) : PollsInVain s (envStep a t) := by
  obtain ⟨hrx, hin⟩ : (Machine.envStep a t).rx = [] ∧ (Machine.envStep a t).hostIn = [] := by
    rcases envStep_cases a t with ⟨-, ht⟩ | ⟨-, -, ht⟩ | ⟨-, b, rest, -, ht⟩ | ⟨-, -, ht⟩ | ⟨-, b, rest, hin, -⟩ |
      ⟨-, b, rest, hin, -⟩
    case inr.inr.inr.inr.inl | inr.inr.inr.inr.inr => simp [h.hostIn] at hin
    all_goals rw [ht]; exact ⟨h.rx, h.hostIn⟩
  exact ⟨h.unfinished.envStep a, (envStep_phase a t).trans h.phase, hrx, hin⟩

theorem PollsInVain.exec (h : PollsInVain s t) : ∃ u, exec .getChar t = .next u ∧ PollsInVain s u := by
  obtain ⟨f, -, hexec⟩ := (getCharPollsThenReads t h.unfinished.running).1 h.phase
  exact ⟨_, hexec, { h.unfinished with }, by simp [h.rx], h.rx, h.hostIn⟩

theorem runOp_getChar_of_nothing (hs : Ready s) (hrx : s.rx = []) (hin : s.hostIn = []) (ws : List (List EnvAgent)) :
    ∃ t, runOp .getChar ws s = .next t ∧ Unfinished s t := by
  obtain ⟨t, ht, h | h⟩ := runOp_goes_on_or_ends (P := PollsInVain s) (Q := fun _ => False)
    (fun _ h => ⟨h.unfinished.running, h.unfinished.opidx⟩) (fun _ h => h.elim) (fun a _ h => h.envStep a)
    (fun _ h => h.exec.imp fun _ => And.imp_right .inl) ws ⟨.refl hs, hs.2, hrx, hin⟩
  · exact ⟨t, ht, h.unfinished⟩
  · exact h.elim

/-! ### A TICKS that keeps retrying (R110, R116) -/

theorem timerSteps_replicate (m : Nat) : timerSteps (List.replicate m .timer) = m := List.count_replicate_self

/-- 2^32 timer steps between the first and the third read of an iteration change the high half. -/
theorem not_highReadsAgree {w : List EnvAgent} (hw : timerSteps w = 2 ^ 32) (s : State) : ¬ HighReadsAgree [] [] w s := by
  rw [HighReadsAgree, highHalf_eq_iff, envRun_ctr, envRun_ctr, List.append_nil, List.nil_append, hw, BitVec.toNat_add,
    BitVec.toNat_add]
  have := s.ctr.isLt
  simp only [BitVec.toNat_ofNat, timerSteps, List.count_nil]
  omega

/-- For any number of controller steps, an interleaving in which each iteration's third read finds the high half changed. -/
theorem exists_ticks_retrying (len : Nat) {s : State} (hfirst : ReadsHighFirst .ticks .ticks s.phase) (hrun : Running s) :
    ∃ ws : List (List EnvAgent), ws.length = len ∧ ∃ v ev p, runOp .ticks ws s = .next (s.advance v ev p) := by
  match len with
  | 0 => exact ⟨[], rfl, [], [], s.phase, by simp [State.advance]⟩
  | 1 => exact ⟨[[]], rfl, _, _, _, runOp_first_read hfirst hrun [] []⟩
  | 2 =>
    refine ⟨[[], []], rfl, ?_⟩
    rw [runOp_first_read hfirst hrun, runOp_low_read ticks_steps rfl (State.running_advance hrun _ _ _), State.advance_advance]
    exact ⟨_, _, _, rfl⟩
  | len + 3 =>
    obtain ⟨w, hw⟩ : ∃ w, timerSteps w = 2 ^ 32 := ⟨_, timerSteps_replicate _⟩
    obtain ⟨ws, hlen, v, ev, p, hws⟩ := exists_ticks_retrying len (ticks_steps.readsHighFirst)
      (State.running_advance hrun ([] ++ [] ++ w) (iterationReads [] [] w s) (.ticks .hi1))
    refine ⟨[] :: [] :: w :: ws, by simp [hlen], ?_⟩
    rw [runOp_ticks_of_differ hfirst hrun (not_highReadsAgree hw s), hws, State.advance_advance]
    exact ⟨_, _, _, rfl⟩

end

/-- Settles O47: without its agent each operation stays in the states that await it (`AwaitsTimer`, `SendingFrom` with the line output
as it was, `PollsInVain`); TICKS retries along the interleaving of `exists_ticks_retrying`. -/
theorem hangsAreNeverEnded : Obligations.HangsAreNeverEnded := by
  refine ⟨fun s i ws hs hi hws => ?timer, fun s i ws hs hsends htx hmore hws => ?drain, fun s ws hs hrx hin => ?arrival,
    fun s len hs => ?ticks⟩
  case timer =>
    have hawaits : AwaitsTimer s i := by
      have hstart : delayPhase s.phase = some (.first .hi1) := by rw [hs.2]; rfl
      rcases hi with ⟨n, rfl, hn⟩ | ⟨n, rfl, hn⟩ | ⟨rfl, hpin⟩
      · exact .delayUs hn hstart trivial
      · exact .delayMs (by rwa [usOf_eq, BitVec.toNat_ofNat]) hstart trivial
      · exact .ledOn (held := none) hpin (by rw [hs.2]; rfl)
    obtain ⟨t, ht, hun⟩ := runOp_of_awaitsTimer hs hawaits hws
    exact ⟨t, ht, hun.opidx, hun.results, hun.running⟩
  case drain =>
    obtain ⟨bs, hbs⟩ := Option.isSome_iff_exists.1 hsends
    rw [opBytes_of_sendBytes hbs] at hmore ⊢
    obtain ⟨t, ht, ⟨todo, ready, h⟩, hline⟩ := runOp_of_no_drain hbs hs htx hmore hws
    obtain ⟨sent, hsent, hout⟩ := h.handed
    exact ⟨t, ht, h.opidx, h.results, h.running, sent, ⟨todo, hsent⟩, tx_of_committed hline hout, h.params ▸ h.tx_le⟩
  case arrival =>
    obtain ⟨t, ht, hun⟩ := runOp_getChar_of_nothing hs hrx hin ws
    exact ⟨t, ht, hun.opidx, hun.results, hun.running⟩
  case ticks =>
    obtain ⟨ws, hlen, v, ev, p, ht⟩ := exists_ticks_retrying len (hs.2 ▸ ticks_readsHighFirst) hs.1
    exact ⟨ws, _, hlen, ht, State.advance_opidx .., State.advance_results .., State.running_advance hs.1 ..⟩

end Sys2Proof.Machine

/-! SUPPORT. The statement about hazards (70_reset_and_hazards.md): the bytes of a sending operation are gated one by one (R196). -/

namespace Sys2Proof.Machine

/-! ### A byte and its gate, undisturbed (R131, R196) -/

/-- `s` after a read of UART_FR with the value `f` and the write of `b` to UART_DR that it admits, `rest` left to send (R131). -/
def gatedWrite (f : Word) (b : Byte) (rest : List Byte) (s : State) : State :=
  { s with
    tx := s.tx ++ [b]
    trace := s.trace ++ [.rd 0x107d001018#64 f, .wr 0x107d001000#64 (b.setWidth 32)]
    draws := s.draws + 1
    phase := .send rest false }

/-- Undisturbed, with room in the transmit FIFO, a sending operation polls once with TXFF = 0 and then writes its next byte; the
operation ends with its last byte, and goes on to the next byte's own poll after another. -/
theorem runOp_gatedWrite {i : Instr} {bs : List Byte} (hsteps : SendSteps i bs) {s : State} (hrun : Running s) {b : Byte}
    {rest : List Byte} (hp : s.phase = .start ∧ b :: rest = bs ∨ s.phase = .send (b :: rest) false) (hroom : HasRoom s) :
    ∃ f : Word, f.getLsbD 5 = false ∧ ∀ ws, runOp i ([] :: [] :: ws) s =
      if rest = [] then .next (afterEnd (gatedWrite f b rest s) .unit) else runOp i ws (gatedWrite f b rest s) := by
  have hne : s.tx.length ≠ s.params.txDepth := hroom.ne
  have hgoes : stopped s = false := by simp [stopped, hrun.1, hrun.2]
  obtain ⟨-, hpolls, -⟩ := hsteps s hrun
  obtain ⟨f, ⟨-, htxff⟩, hpoll⟩ := hpolls _ hp (List.cons_ne_nil b rest)
  rw [bne_iff_ne.2 hne] at hpoll
  obtain ⟨-, -, hwrites⟩ := hsteps
    { afterRead s 0x107d001018#64 f with draws := s.draws + 1, phase := .send (b :: rest) true } hrun
  have hwrite := hwrites b rest rfl hne
  refine ⟨f, htxff.trans (beq_false_of_ne hne), fun ws => ?_⟩
  rw [runOp_cons_of_next hpoll, if_pos ⟨rfl, hgoes⟩, runOp_cons_of_next hwrite]
  by_cases hrest : rest = []
  · simp [hrest, afterEnd, afterWrite, afterRead, gatedWrite]
  · simp only [if_neg hrest]
    rw [if_pos ⟨rfl, hgoes⟩]
    simp [afterWrite, afterRead, gatedWrite]

/-- Settles O42: the carriage return's gated write, then the line feed's. -/
theorem lineFeedIsTwoGatedWrites : Obligations.LineFeedIsTwoGatedWrites := by
  intro s ⟨hrun, hstart⟩ hroom
  have hsteps : SendSteps (.putChar 0x0A#8) [0x0D#8, 0x0A#8] := sendSteps_of_sendBytes rfl
  obtain ⟨f₁, htxff₁, hcr⟩ := runOp_gatedWrite hsteps hrun (.inl ⟨hstart, rfl⟩) (by rw [HasRoom]; omega)
  obtain ⟨f₂, htxff₂, hlf⟩ := runOp_gatedWrite hsteps (s := gatedWrite f₁ 0x0D#8 [0x0A#8] s) hrun (.inr rfl)
    (by simpa [HasRoom, gatedWrite] using Nat.lt_of_succ_le hroom)
  refine ⟨afterEnd (gatedWrite f₂ 0x0A#8 [] (gatedWrite f₁ 0x0D#8 [0x0A#8] s)) .unit, f₁, f₂, ?_, htxff₁, htxff₂, ?_⟩
  · rw [hcr, if_neg (List.cons_ne_nil _ _), hlf, if_pos rfl]
  · simp [afterEnd, gatedWrite]

end Sys2Proof.Machine
